-- ==== Sys2Proof/Word.lean ====
section
/-!
DEFINITION. The plain data types every layer names: bytes, words, address-register indices, limb sequences and the
error kinds.
-/

namespace Sys2Proof

/-- One byte: a byte of the text buffer (R45), an octet of a V4 address (R3). -/
abbrev Byte := BitVec 8

/-- One 32-bit word: a command word (R100), a bus word (R73). -/
abbrev Word := BitVec 32

/-- An address-register index, 0..7 for A0..A7 (R107: each of the 8 values is valid). -/
abbrev RegIx := Fin 8

/-- A complete group sequence of `n` limbs of `w` bits, limb 0 the most significant (R3, R11). -/
abbrev Limbs (w n : Nat) := Vector (BitVec w) n

/-- The groups of a V4 address: 4 limbs of 8 bits (R8). -/
abbrev V4Limbs := Limbs 8 4

/-- The groups of a V6 address: 8 limbs of 16 bits (R8). -/
abbrev V6Limbs := Limbs 16 8

/-- The error kinds a command can raise (R341, R342). None of them stops the unit: an error ends one command, and R344
says what it records. -/
inductive ErrKind where
  /-- The input's shape is not one of the recognized forms (R341). -/
  | illegalArgument
  /-- A numeric token or scalar is out of its component's range, or is not numeric (R341). -/
  | illegalValue
  /-- A derived quantity is outside its structural bound (R341). -/
  | illegalRange
  /-- Structural corruption of the input (R341). -/
  | malformed
  /-- An illegal or reserved command word (R108, R109). -/
  | badCommand
  /-- A source register is EMPTY (R343). -/
  | emptyOperand
  /-- The two sources of and, or, add or sub differ in version (R301). -/
  | versionMismatch
  deriving DecidableEq, Repr

end Sys2Proof
end

