-- ==== Sys2Proof/Syntax.lean ====
section
/-!
DEFINITION. The 23 commands of the unit: one constructor per row of the opcode table (R106), with the operands its
format uses (R102-R105).
-/

namespace Sys2Proof

/-- One command. `rd`, `rs1` and `rs2` are address-register indices and `nbits` is the unsigned count of the NBITS field
(R101, R107). -/
inductive Instr where
  /-- `d4.abs`: absent or false input to a V4 address (R142). -/
  | d4abs (rd : RegIx)
  /-- `d4.true`: boolean true input to a V4 address (R143). -/
  | d4true (rd : RegIx)
  /-- `d4.int`: integer input to a V4 address (R144). -/
  | d4int (rd : RegIx)
  /-- `d4.flt`: floating-point input to a V4 address (R145). -/
  | d4flt (rd : RegIx)
  /-- `d4.txt`: text input to a V4 address (R148). -/
  | d4txt (rd : RegIx)
  /-- `d4.lst`: 4-element list input to a V4 address (R150). -/
  | d4lst (rd : RegIx)
  /-- `d4.adr`: address input to a V4 address (R151). -/
  | d4adr (rd rs1 : RegIx)
  /-- `d6.abs`: absent or false input to a V6 address (R202). -/
  | d6abs (rd : RegIx)
  /-- `d6.true`: boolean true input to a V6 address (R203). -/
  | d6true (rd : RegIx)
  /-- `d6.int`: integer input to a V6 address (R204). -/
  | d6int (rd : RegIx)
  /-- `d6.flt`: floating-point input to a V6 address (R205). -/
  | d6flt (rd : RegIx)
  /-- `d6.txt`: text input to a V6 address (R212). -/
  | d6txt (rd : RegIx)
  /-- `d6.lst`: 8- or 10-element list input to a V6 address (R214). -/
  | d6lst (rd : RegIx)
  /-- `d6.adr`: address input to a V6 address (R215). -/
  | d6adr (rd rs1 : RegIx)
  /-- `m4.net`: V4 netmask of a bit count (R276). -/
  | m4net (rd : RegIx) (nbits : Nat)
  /-- `m4.wild`: V4 wildcard mask of a bit count (R277). -/
  | m4wild (rd : RegIx) (nbits : Nat)
  /-- `m6.net`: V6 netmask of a bit count (R278). -/
  | m6net (rd : RegIx) (nbits : Nat)
  /-- `m6.wild`: V6 wildcard mask of a bit count (R279). -/
  | m6wild (rd : RegIx) (nbits : Nat)
  /-- `and`: limb-wise AND (R302). -/
  | and (rd rs1 rs2 : RegIx)
  /-- `or`: limb-wise OR (R303). -/
  | or (rd rs1 rs2 : RegIx)
  /-- `not`: limb-wise complement (R304). -/
  | not (rd rs1 : RegIx)
  /-- `add`: addition modulo the address width (R305). -/
  | add (rd rs1 rs2 : RegIx)
  /-- `sub`: subtraction modulo the address width (R306). -/
  | sub (rd rs1 rs2 : RegIx)
  deriving DecidableEq, Repr

end Sys2Proof
end

