-- ==== Sys2Proof/WellFormed.lean ====
section
/-!
DEFINITION. Which commands can be encoded. A register operand is in range by its type (R107). The one bound left is that of
NBITS, an unsigned 8-bit field (R101, R107).
-/

namespace Sys2Proof

/-- The command's operands fit their fields: NBITS is 0..255 (R101, R107). -/
def Instr.wellFormed : Instr → Bool
  | .d4abs _ => true
  | .d4true _ => true
  | .d4int _ => true
  | .d4flt _ => true
  | .d4txt _ => true
  | .d4lst _ => true
  | .d4adr _ _ => true
  | .d6abs _ => true
  | .d6true _ => true
  | .d6int _ => true
  | .d6flt _ => true
  | .d6txt _ => true
  | .d6lst _ => true
  | .d6adr _ _ => true
  | .m4net _ nbits => decide (nbits < 256)
  | .m4wild _ nbits => decide (nbits < 256)
  | .m6net _ nbits => decide (nbits < 256)
  | .m6wild _ nbits => decide (nbits < 256)
  | .and _ _ _ => true
  | .or _ _ _ => true
  | .not _ _ => true
  | .add _ _ _ => true
  | .sub _ _ _ => true

end Sys2Proof
end

