-- ==== Sys2Proof/Decode.lean ====
section
/-!
DEFINITION. The command word: its fields (R101), the opcode map (R106), the total decoding function (R108) and the
encoder (R110).
-/

namespace Sys2Proof

/-- The `len` bits of `w` from bit `lo` up, as an unsigned number (R10: `w[lo+len-1 : lo]`). -/
def field (w : Word) (lo len : Nat) : Nat := w.toNat / 2 ^ lo % 2 ^ len

/-- OPC, bits [7:0] (R101). -/
def opcField (w : Word) : Nat := field w 0 8

/-- RD, bits [10:8] (R101). -/
def rdField (w : Word) : RegIx := Fin.ofNat 8 (field w 8 3)

/-- RS1, bits [13:11] (R101). -/
def rs1Field (w : Word) : RegIx := Fin.ofNat 8 (field w 11 3)

/-- RS2, bits [16:14] (R101). -/
def rs2Field (w : Word) : RegIx := Fin.ofNat 8 (field w 14 3)

/-- NBITS, bits [24:17], zero-extended (R101, R107). -/
def nbitsField (w : Word) : Nat := field w 17 8

/-- The used bits of format D: OPC and RD (R102). -/
def usedD : Word := 0x000007FF

/-- The used bits of format U: OPC, RD and RS1 (R103). -/
def usedU : Word := 0x00003FFF

/-- The used bits of format R: OPC, RD, RS1 and RS2 (R104). -/
def usedR : Word := 0x0001FFFF

/-- The used bits of format M: OPC, RD and NBITS (R105). -/
def usedM : Word := 0x01FE07FF

/-- The opcode map (R106): the used-bit mask of the opcode's format and the command it names, with the operands given. -/
def opcodeRow (opc : Nat) (rd rs1 rs2 : RegIx) (nbits : Nat) : Option (Word × Instr) :=
  match opc with
  | 0x01 => some (usedD, .d4abs rd)
  | 0x02 => some (usedD, .d4true rd)
  | 0x03 => some (usedD, .d4int rd)
  | 0x04 => some (usedD, .d4flt rd)
  | 0x05 => some (usedD, .d4txt rd)
  | 0x06 => some (usedD, .d4lst rd)
  | 0x07 => some (usedU, .d4adr rd rs1)
  | 0x11 => some (usedD, .d6abs rd)
  | 0x12 => some (usedD, .d6true rd)
  | 0x13 => some (usedD, .d6int rd)
  | 0x14 => some (usedD, .d6flt rd)
  | 0x15 => some (usedD, .d6txt rd)
  | 0x16 => some (usedD, .d6lst rd)
  | 0x17 => some (usedU, .d6adr rd rs1)
  | 0x21 => some (usedM, .m4net rd nbits)
  | 0x22 => some (usedM, .m4wild rd nbits)
  | 0x23 => some (usedM, .m6net rd nbits)
  | 0x24 => some (usedM, .m6wild rd nbits)
  | 0x31 => some (usedR, .and rd rs1 rs2)
  | 0x32 => some (usedR, .or rd rs1 rs2)
  | 0x33 => some (usedU, .not rd rs1)
  | 0x34 => some (usedR, .add rd rs1 rs2)
  | 0x35 => some (usedR, .sub rd rs1 rs2)
  | _ => none

/-- An unassigned opcode of the decoder groups, whose input kind is not recognized (R108, R109). -/
def unknownInputKind (opc : Nat) : Bool :=
  (decide (0x08 ≤ opc) && decide (opc ≤ 0x0F)) || (decide (0x18 ≤ opc) && decide (opc ≤ 0x1F))

/-- Decoding a command word (R108): total, and the error is the one the word raises. -/
def decode (w : Word) : Except ErrKind Instr :=
  match opcodeRow (opcField w) (rdField w) (rs1Field w) (rs2Field w) (nbitsField w) with
  | some (used, i) => if w &&& ~~~used = 0#32 then .ok i else .error .badCommand
  | none => if unknownInputKind (opcField w) then .error .illegalArgument else .error .badCommand

/-- The word with the given fields (R110: `OPC | RD<<8 | RS1<<11 | RS2<<14 | NBITS<<17`). The fields do not overlap, so
the sum is the bitwise OR. -/
def packFields (opc : Nat) (rd rs1 rs2 : RegIx) (nbits : Nat) : Word :=
  BitVec.ofNat 32 (opc + rd.val * 2 ^ 8 + rs1.val * 2 ^ 11 + rs2.val * 2 ^ 14 + nbits * 2 ^ 17)

/-- The word of a command: its opcode (R106) and the fields its format uses, every other bit 0 (R101, R110). -/
def encode : Instr → Word
  | .d4abs rd => packFields 0x01 rd 0 0 0
  | .d4true rd => packFields 0x02 rd 0 0 0
  | .d4int rd => packFields 0x03 rd 0 0 0
  | .d4flt rd => packFields 0x04 rd 0 0 0
  | .d4txt rd => packFields 0x05 rd 0 0 0
  | .d4lst rd => packFields 0x06 rd 0 0 0
  | .d4adr rd rs1 => packFields 0x07 rd rs1 0 0
  | .d6abs rd => packFields 0x11 rd 0 0 0
  | .d6true rd => packFields 0x12 rd 0 0 0
  | .d6int rd => packFields 0x13 rd 0 0 0
  | .d6flt rd => packFields 0x14 rd 0 0 0
  | .d6txt rd => packFields 0x15 rd 0 0 0
  | .d6lst rd => packFields 0x16 rd 0 0 0
  | .d6adr rd rs1 => packFields 0x17 rd rs1 0 0
  | .m4net rd nbits => packFields 0x21 rd 0 0 nbits
  | .m4wild rd nbits => packFields 0x22 rd 0 0 nbits
  | .m6net rd nbits => packFields 0x23 rd 0 0 nbits
  | .m6wild rd nbits => packFields 0x24 rd 0 0 nbits
  | .and rd rs1 rs2 => packFields 0x31 rd rs1 rs2 0
  | .or rd rs1 rs2 => packFields 0x32 rd rs1 rs2 0
  | .not rd rs1 => packFields 0x33 rd rs1 0 0
  | .add rd rs1 rs2 => packFields 0x34 rd rs1 rs2 0
  | .sub rd rs1 rs2 => packFields 0x35 rd rs1 rs2 0

/-- The register a command's RD field names: every command has one (R33). -/
def destination : Instr → RegIx
  | .d4abs rd => rd
  | .d4true rd => rd
  | .d4int rd => rd
  | .d4flt rd => rd
  | .d4txt rd => rd
  | .d4lst rd => rd
  | .d4adr rd _ => rd
  | .d6abs rd => rd
  | .d6true rd => rd
  | .d6int rd => rd
  | .d6flt rd => rd
  | .d6txt rd => rd
  | .d6lst rd => rd
  | .d6adr rd _ => rd
  | .m4net rd _ => rd
  | .m4wild rd _ => rd
  | .m6net rd _ => rd
  | .m6wild rd _ => rd
  | .and rd _ _ => rd
  | .or rd _ _ => rd
  | .not rd _ => rd
  | .add rd _ _ => rd
  | .sub rd _ _ => rd

/-- The address registers a command reads as operands (R33, R343). -/
def sources : Instr → List RegIx
  | .d4abs _ => []
  | .d4true _ => []
  | .d4int _ => []
  | .d4flt _ => []
  | .d4txt _ => []
  | .d4lst _ => []
  | .d4adr _ rs1 => [rs1]
  | .d6abs _ => []
  | .d6true _ => []
  | .d6int _ => []
  | .d6flt _ => []
  | .d6txt _ => []
  | .d6lst _ => []
  | .d6adr _ rs1 => [rs1]
  | .m4net _ _ => []
  | .m4wild _ _ => []
  | .m6net _ _ => []
  | .m6wild _ _ => []
  | .and _ rs1 rs2 => [rs1, rs2]
  | .or _ rs1 rs2 => [rs1, rs2]
  | .not _ rs1 => [rs1]
  | .add _ rs1 rs2 => [rs1, rs2]
  | .sub _ rs1 rs2 => [rs1, rs2]

/-- The command the decoder reads from the `nbits` bits `w`: one 32-bit word, moved whole, bit i of the number as bit i of
the word (R76, R100). Every bit above `nbits` is 0. -/
def decodeTableWord (nbits w : Nat) : Option Instr :=
  match decode (BitVec.ofNat 32 (w % 2 ^ nbits)) with
  | .ok i => some i
  | .error _ => none

end Sys2Proof
end

