-- ==== Sys2Proof/Machine/Limbs.lean ====
section
/-!
DEFINITION. Group sequences as numbers and the limb-wise operations (R11, R302-R306): exact arithmetic on naturals,
narrowed to the limb width at the end.
-/

namespace Sys2Proof.Machine

/-- The value of a list of limbs, the first one most significant. -/
def limbsVal {w : Nat} (g : List (BitVec w)) : Nat := g.foldl (fun v x => v * 2 ^ w + x.toNat) 0

/-- `Val(g)`, the numeric value of a group sequence: big-endian by group (R11). -/
def val {w n : Nat} (g : Limbs w n) : Nat := limbsVal g.toList

/-- `Limbs(x)`, the groups of the (n*w)-bit value `x`: group k is `x[w*(n-1-k)+w-1 : w*(n-1-k)]` (R11). -/
def limbsOf (w n x : Nat) : Limbs w n :=
  Vector.ofFn fun k => BitVec.ofNat w (x / 2 ^ (w * (n - 1 - k.val)))

/-- The group sequence with the limbs of a list, in order. -/
def limbsOfList {w : Nat} (n : Nat) (g : List (BitVec w)) : Limbs w n :=
  Vector.ofFn fun k => g.getD k.val 0

/-- Limb-wise AND (R302). -/
def andLimbs (w n : Nat) (a b : Limbs w n) : Limbs w n := Vector.ofFn fun k => a[k] &&& b[k]

/-- Limb-wise OR (R303). -/
def orLimbs (w n : Nat) (a b : Limbs w n) : Limbs w n := Vector.ofFn fun k => a[k] ||| b[k]

/-- Limb-wise complement within the limb width (R304). -/
def notLimbs (w n : Nat) (a : Limbs w n) : Limbs w n := Vector.ofFn fun k => ~~~a[k]

/-- The limb loop of R305 over two lists of limbs, least significant limb last: the sum limbs and the carry out of the
first limb, from the carry `c` into the last one. -/
def addLists {w : Nat} : List (BitVec w) → List (BitVec w) → Nat → List (BitVec w) × Nat
  | a :: as, b :: bs, c =>
    let below := addLists as bs c
    let s := a.toNat + b.toNat + below.2
    (BitVec.ofNat w s :: below.1, s / 2 ^ w)
  | _, _, c => ([], c)

/-- Addition with the carry propagated across limbs and the carry out of limb 0 discarded (R305). -/
def addLimbs (w n : Nat) (a b : Limbs w n) : Limbs w n :=
  limbsOfList n (addLists a.toList b.toList 0).1

/-- Subtraction as `a + (~b) + 1`, the carry out of limb 0 discarded (R306). -/
def subLimbs (w n : Nat) (a b : Limbs w n) : Limbs w n :=
  limbsOfList n (addLists a.toList (notLimbs w n b).toList 1).1

/-- `Embed(v)`: a 32-bit value in the prefix ::ffff:0:0/96 (R206). -/
def embed (v : Nat) : V6Limbs :=
  #v[0, 0, 0, 0, 0, 0xFFFF, BitVec.ofNat 16 (v / 2 ^ 16), BitVec.ofNat 16 v]

/-- The group of two octets, the first one the high byte (R206, R209, R214). -/
def pairOctets (hi lo : Byte) : BitVec 16 := hi ++ lo

end Sys2Proof.Machine
end

