-- ==== Sys2Proof/Config.lean ====
section
/-!
DEFINITION. The parameters of R9, and the values the spec leaves UNSPECIFIED: constants without a body, of which nothing
can be proved.
-/

namespace Sys2Proof.Config

/-- TEXT_MAX, the bytes of the text buffer and the greatest text length (R9). -/
def textMax : Nat := 256

/-- LIST_MAX, the entries of the element list (R9). -/
def listMax : Nat := 16

/-- WINDOW, the size of the host register window in bytes (R9, R70). -/
def windowBytes : Nat := 1024

/-- The window offset of TEXT[0] (R71). -/
def textBase : Nat := 0x100

/-- The byte TEXT[k] holds after the reset number `n` (R45, R50: UNSPECIFIED, each an arbitrary byte). A free value:
log entry 1. -/
opaque textAtReset (n k : Nat) : Byte

/-- The word LIST_ELEM[k] holds after the reset number `n` (R47, R50: UNSPECIFIED, each an arbitrary 32-bit value). A free
value: log entry 2. -/
opaque listElemAtReset (n k : Nat) : Word

end Sys2Proof.Config
end

