-- ==== Sys2Proof/Machine/State.lean ====
section
/-!
DEFINITION. The state of the unit (10_state.md), the inputs its host and its platform deliver, the ways a step can stop,
and the state after reset (R50).
-/

namespace Sys2Proof.Machine

/-- The content of one address register: its tag with the groups that tag holds (R31). Tag code 3 does not exist, and a
tagged register always holds a complete group sequence (R32). -/
inductive AReg where
  /-- EMPTY: the register holds no address. -/
  | empty
  /-- V4: four 8-bit limbs. -/
  | v4 (g : V4Limbs)
  /-- V6: eight 16-bit limbs. -/
  | v6 (g : V6Limbs)
  deriving DecidableEq, Repr

/-- What reaches the unit from outside, one at a time and in arrival order (R81, R84): a host access to the register
window, by its byte offset in the window, or the platform's reset input (R380). -/
inductive Input where
  /-- A host read of `bits` bits at window offset `off` (R70, R73). -/
  | read (off : BitVec 10) (bits : Nat)
  /-- A host write of `bits` bits at window offset `off`. `v` is the word a 32-bit write carries. A write of another
  width is refused whatever it carries (R73). -/
  | write (off : BitVec 10) (bits : Nat) (v : Word)
  /-- The reset input, asserted and released (R380). -/
  | reset
  deriving DecidableEq, Repr

/-- The bytes written to TEXT since the last reset, each at its window offset (R45, R71), the offsets strictly rising. A
byte nothing has written has no entry, and its value is the free value of log entry 1. -/
abbrev Memory := List Host.Cell

/-- The whole state. The first eleven fields are the unit's (R50); the last three are the model's own. -/
structure State where
  /-- A0..A7 (R31). -/
  regs : Vector AReg 8
  /-- CMD: the most recent word written (R39). -/
  cmd : Word
  /-- STATUS.ERRKIND: the kind of error of the most recent command, `none` when it succeeded (R40, R342). -/
  errKind : Option ErrKind
  /-- STATUS.STICKY (R40). -/
  sticky : Bool
  /-- ERRCMD: the word of the most recent command that failed (R41). -/
  errCmd : Word
  /-- IN_LEN bits [8:0]: the length of the text input (R44). -/
  inLen : BitVec 9
  /-- IN_VAL_LO: bits [31:0] of the scalar input (R46). -/
  inValLo : Word
  /-- IN_VAL_HI: bits [63:32] of the scalar input (R46). -/
  inValHi : Word
  /-- LIST_LEN bits [4:0]: the number of list elements (R47). -/
  listLen : BitVec 5
  /-- LIST_NONNUM bits [15:0]: bit k is 1 when element k is not numeric (R47). -/
  listNonNum : BitVec 16
  /-- LIST_ELEM[0..15] (R47). -/
  listElem : Vector Word 16
  /-- TEXT[0..255], as the bytes written since the last reset (R45). -/
  text : Memory
  /-- The model's own: how many resets the platform has performed. It numbers the unspecified values after a reset. -/
  resets : Nat
  /-- The model's own: the inputs that have not been performed yet, the next one first (R81). -/
  inputs : List Input
  /-- The model's own: the words returned to the host's reads so far, the newest first (R386). -/
  reads : List Word
  deriving DecidableEq, Repr

/-- Why a step stops. Every cause is a bus error of a host access, which the spec has a model treat as a fault of the
host's access (R72, R350): the unit's state does not change, and no command raises one. Safe: a run of accepted accesses
never meets one. -/
inductive Fault where
  /-- Raised by an access whose width is not 32 bits (R73). Safe. -/
  | accessWidth (bits : Nat)
  /-- Raised by a 32-bit access at an offset that is not a multiple of 4 (R73). Safe. -/
  | misaligned (off : BitVec 10)
  /-- Raised by an aligned 32-bit access to a reserved offset (R71, R72). Safe. -/
  | reservedOffset (off : BitVec 10)
  deriving DecidableEq, Repr

/-- Why an instruction has no meaning. Safe: nothing can be proved of what it does. -/
inductive Refusal where
  /-- Raised by an arm of `exec` that is not modelled yet. No arm raises it. Safe. -/
  | notModelled (mnemonic : String)
  deriving DecidableEq, Repr

/-- The unit when the reset number `n` is released (R50, R380), with no input delivered and nothing read. The bytes of TEXT
and the words of LIST_ELEM are UNSPECIFIED (log entries 1 and 2). -/
def State.afterReset (n : Nat) : State where
  regs := Vector.replicate 8 .empty
  cmd := 0
  errKind := none
  sticky := false
  errCmd := 0
  inLen := 0
  inValLo := 0
  inValHi := 0
  listLen := 0
  listNonNum := 0
  listElem := Vector.ofFn fun k => Config.listElemAtReset n k
  text := []
  resets := n
  inputs := []
  reads := []

/-- The machine right after its first reset (R50). -/
def State.reset : State := State.afterReset 0

end Sys2Proof.Machine
end

