-- ==== Sys2Proof/Machine/Ops.lean ====
section
/-!
DEFINITION. The operations every command and every host access shares: reading and writing one byte of TEXT, reading an
address register, and the two ways a command ends, with a result (R346) or with an error (R344).
-/

namespace Sys2Proof.Machine

/-- The byte written at window offset `a` since the last reset, if any. -/
def Memory.read : Memory → Nat → Option Byte
  | [], _ => none
  | (k, b) :: m, a => if a = k then some b else Memory.read m a

/-- The memory with the byte `b` at window offset `a`, every other byte as it was. -/
def Memory.write : Memory → Nat → Byte → Memory
  | [], a, b => [(a, b)]
  | (k, c) :: m, a, b =>
    if a < k then (a, b) :: (k, c) :: m
    else if a = k then (a, b) :: m
    else (k, c) :: Memory.write m a b

/-- Every entry lies in TEXT at an offset no lower than `lo`, and the offsets strictly rise. -/
def Memory.wfFrom : Nat → Memory → Bool
  | _, [] => true
  | lo, (k, _) :: m =>
    decide (lo ≤ k) && decide (k < Config.textBase + Config.textMax) && Memory.wfFrom (k + 1) m

/-- The canonical form: the offsets strictly rise and lie in TEXT (R71). An offset without an entry holds no written byte,
so no entry repeats what an absent one says. -/
def Memory.wf (m : Memory) : Bool := Memory.wfFrom Config.textBase m

/-- The byte TEXT[k] (R45): the one written last, or else the unspecified byte the last reset left there. -/
def State.textByte (s : State) (k : Nat) : Byte :=
  match s.text.read (Config.textBase + k) with
  | some b => b
  | none => Config.textAtReset s.resets k

/-- TEXT[k] written with `b`. -/
def State.setTextByte (s : State) (k : Nat) (b : Byte) : State :=
  { s with text := s.text.write (Config.textBase + k) b }

/-- The content of the address register `r` (R12: `A[i]`). No register is hardwired (R34). -/
def State.areg (s : State) (r : RegIx) : AReg := s.regs[r]

/-- The address register `r` written with `v` (R12: `A[i] <- (tag, g)`). -/
def State.setAreg (s : State) (r : RegIx) (v : AReg) : State := { s with regs := s.regs.set r v }

/-- The end of a command that succeeds with the value `v` (R346): RD is written and ERRKIND becomes 0. STICKY and ERRCMD
keep their values. -/
def commit (rd : RegIx) (v : AReg) (s : State) : State :=
  { s.setAreg rd v with errKind := none }

/-- The end of a command that raises the error kind `k` (R344): ERRKIND and STICKY are set and ERRCMD takes the command's
word, which CMD holds (R39). No address register and no staging register changes. There is no handler and no return
(R347). -/
def abort (k : ErrKind) (s : State) : State :=
  { s with errKind := some k, sticky := true, errCmd := s.cmd }

/-- The end of a command: with its result or with its error (R80: it commits or it aborts). -/
def complete (rd : RegIx) (r : Except ErrKind AReg) (s : State) : State :=
  match r with
  | .ok v => commit rd v s
  | .error k => abort k s

end Sys2Proof.Machine
end

