-- ==== Sys2Proof/Machine/Operands.lean ====
section
/-!
DEFINITION. Every operand form of the commands: the address registers (R301, R343), the text input (R141, R201), the scalar
input as an integer or a binary64 number (R46, R144, R145) and the list elements (R149).
-/

namespace Sys2Proof.Machine

/-- The operand fetch of a command with one source (R301 `Fetch1`, R151, R215): EMPTY raises EmptyOperand. -/
def fetch1 (s : State) (rs1 : RegIx) : Except ErrKind AReg :=
  match s.areg rs1 with
  | .empty => .error .emptyOperand
  | v => .ok v

/-- Two operands of one version. -/
inductive SameVersion where
  /-- Two V4 operands. -/
  | v4 (a b : V4Limbs)
  /-- Two V6 operands. -/
  | v6 (a b : V6Limbs)
  deriving DecidableEq, Repr

/-- The operand fetch of a command with two sources (R301 `Fetch2`): EmptyOperand for RS1, then for RS2, then
VersionMismatch. -/
def fetch2 (s : State) (rs1 rs2 : RegIx) : Except ErrKind SameVersion := do
  let a ← fetch1 s rs1
  let b ← fetch1 s rs2
  match a, b with
  | .v4 x, .v4 y => .ok (.v4 x y)
  | .v6 x, .v6 y => .ok (.v6 x y)
  | _, _ => .error .versionMismatch

/-- The text input `TEXT[0 .. IN_LEN-1]` (R45). -/
def textInput (s : State) : List Byte := (List.range s.inLen.toNat).map s.textByte

/-- The text input after the length check (R141, R201): IN_LEN above TEXT_MAX raises IllegalArgument before any byte is
read. -/
def checkedText (s : State) : Except ErrKind (List Byte) :=
  if s.inLen.toNat > Config.textMax then .error .illegalArgument else .ok (textInput s)

/-- IN_VAL = {IN_VAL_HI, IN_VAL_LO} (R46). -/
def inVal (s : State) : BitVec 64 := s.inValHi ++ s.inValLo

/-- A value accepted as a 32-bit address value: outside [0, 2^32 - 1] it raises IllegalValue (R144, R145). -/
def addressValue (v : Int) : Except ErrKind Nat :=
  if v < 0 ∨ v > 0xFFFFFFFF then .error .illegalValue else .ok v.toNat

/-- The integer input of d4.int and d6.int: IN_VAL as a signed 64-bit integer (R144, R204). -/
def integerInput (s : State) : Except ErrKind Nat := addressValue (inVal s).toInt

/-- The truncation toward zero of the binary64 number with bit pattern `x` (IEEE 754: sign in bit 63, biased exponent in bits
[62:52], fraction in bits [51:0]). `none` for a NaN or an infinity (R145). -/
def truncBinary64 (x : BitVec 64) : Option Int :=
  let e := x.toNat / 2 ^ 52 % 2 ^ 11
  let f := x.toNat % 2 ^ 52
  if e = 2047 then none
  else
    let m := if e = 0 then f else 2 ^ 52 + f
    let p := if e = 0 then 1 else e
    let magnitude : Nat := if p ≥ 1075 then m * 2 ^ (p - 1075) else m / 2 ^ (1075 - p)
    some (if x.getLsbD 63 then -Int.ofNat magnitude else Int.ofNat magnitude)

/-- The float input of d4.flt and d6.flt: IN_VAL as a binary64 number, truncated toward zero (R145, R205). -/
def floatInput (s : State) : Except ErrKind Nat :=
  match truncBinary64 (inVal s) with
  | none => .error .illegalValue
  | some t => addressValue t

/-- LIST_ELEM[k] (R47). No accepted list has an element at index 16 or above. -/
def State.listElemAt (s : State) (k : Nat) : Word := s.listElem.toList.getD k 0

/-- `ElemValue(k, hi)`: list element k as a number in [0, hi] (R149). -/
def elemValue (s : State) (k hi : Nat) : Except ErrKind Nat :=
  if s.listNonNum.getLsbD k then .error .illegalValue
  else
    let v := (s.listElemAt k).toInt
    if v < 0 ∨ v > hi then .error .illegalValue else .ok v.toNat

/-- `n` list elements from index `k` on, each in [0, hi], read in index order (R150, R214). -/
def elemValues (s : State) (hi : Nat) : (k n : Nat) → Except ErrKind (List Nat)
  | _, 0 => .ok []
  | k, n + 1 => do
    let v ← elemValue s k hi
    let vs ← elemValues s hi (k + 1) n
    return v :: vs

end Sys2Proof.Machine
end

