-- ==== Sys2Proof/Machine/Alu.lean ====
section
/-!
DEFINITION. The limb ALU (43_alu.md): each command is a limb operation on operands of one version (R300, R301).
-/

namespace Sys2Proof.Machine

/-- A limb operation of two operands, at both versions (R301: N = 4, W = 8 for V4; N = 8, W = 16 for V6). -/
def binaryAlu (op : (w n : Nat) → Limbs w n → Limbs w n → Limbs w n) (s : State) (rs1 rs2 : RegIx) :
    Except ErrKind AReg := do
  match ← fetch2 s rs1 rs2 with
  | .v4 a b => return .v4 (op 8 4 a b)
  | .v6 a b => return .v6 (op 16 8 a b)

/-- A limb operation of one operand, at both versions (R301). -/
def unaryAlu (op : (w n : Nat) → Limbs w n → Limbs w n) (s : State) (rs1 : RegIx) : Except ErrKind AReg := do
  match ← fetch1 s rs1 with
  | .empty => .error .emptyOperand
  | .v4 a => return .v4 (op 8 4 a)
  | .v6 a => return .v6 (op 16 8 a)

/-- `and` (R302). -/
def execAnd (rd rs1 rs2 : RegIx) (s : State) : Host.Outcome State Fault Refusal :=
  .next (complete rd (binaryAlu andLimbs s rs1 rs2) s)

/-- `or` (R303). -/
def execOr (rd rs1 rs2 : RegIx) (s : State) : Host.Outcome State Fault Refusal :=
  .next (complete rd (binaryAlu orLimbs s rs1 rs2) s)

/-- `not` (R304). -/
def execNot (rd rs1 : RegIx) (s : State) : Host.Outcome State Fault Refusal :=
  .next (complete rd (unaryAlu notLimbs s rs1) s)

/-- `add` (R305). -/
def execAdd (rd rs1 rs2 : RegIx) (s : State) : Host.Outcome State Fault Refusal :=
  .next (complete rd (binaryAlu addLimbs s rs1 rs2) s)

/-- `sub` (R306). -/
def execSub (rd rs1 rs2 : RegIx) (s : State) : Host.Outcome State Fault Refusal :=
  .next (complete rd (binaryAlu subLimbs s rs1 rs2) s)

end Sys2Proof.Machine
end

