-- ==== Sys2Proof/Machine/Mask.lean ====
section
/-!
DEFINITION. The CIDR mask generator (42_mask.md): its functions and its four commands.
-/

namespace Sys2Proof.Machine

/-- `NetMask(W, N)`: the top N of W bits set (R271). -/
def netMask (w n : Nat) : Nat := (2 ^ n - 1) * 2 ^ (w - n)

/-- `WildMask(W, N)`: the bottom W - N bits set (R272). -/
def wildMask (w n : Nat) : Nat := 2 ^ (w - n) - 1

/-- The range check of a mask command (R276-R279): a count above the width raises IllegalRange. -/
def maskBits (width nbits : Nat) : Except ErrKind Nat :=
  if nbits > width then .error .illegalRange else .ok nbits

/-- `m4.net` (R276). -/
def execM4Net (rd : RegIx) (nbits : Nat) (s : State) : Host.Outcome State Fault Refusal :=
  .next (complete rd (do
    let n ← maskBits 32 nbits
    return .v4 (limbsOf 8 4 (netMask 32 n))) s)

/-- `m4.wild` (R277). -/
def execM4Wild (rd : RegIx) (nbits : Nat) (s : State) : Host.Outcome State Fault Refusal :=
  .next (complete rd (do
    let n ← maskBits 32 nbits
    return .v4 (limbsOf 8 4 (wildMask 32 n))) s)

/-- `m6.net` (R278). -/
def execM6Net (rd : RegIx) (nbits : Nat) (s : State) : Host.Outcome State Fault Refusal :=
  .next (complete rd (do
    let n ← maskBits 128 nbits
    return .v6 (limbsOf 16 8 (netMask 128 n))) s)

/-- `m6.wild` (R279). -/
def execM6Wild (rd : RegIx) (nbits : Nat) (s : State) : Host.Outcome State Fault Refusal :=
  .next (complete rd (do
    let n ← maskBits 128 nbits
    return .v6 (limbsOf 16 8 (wildMask 128 n))) s)

end Sys2Proof.Machine
end

