-- ==== Sys2Proof/Machine/Text.lean ====
section
/-!
DEFINITION. The text scanners: tokens (R14, R146, R207), the mask count (R275), the dotted-decimal scan (R147) and the
two-phase colon scan (R208-R211). Each raises the first error in scan order (R348). Their working state is their arguments,
which exist only inside one command (R48). Where R209 and R210 differ on an empty octet, log entry 15 says which one
`backwardScan` follows.
-/

namespace Sys2Proof.Machine

/-- `IsDec(c)`: an ASCII decimal digit (R13). -/
def isDec (c : Byte) : Bool := decide (0x30 ≤ c.toNat) && decide (c.toNat ≤ 0x39)

/-- `IsHex(c)`: an ASCII hex digit of either case (R13). -/
def isHex (c : Byte) : Bool :=
  isDec c || (decide (0x61 ≤ c.toNat) && decide (c.toNat ≤ 0x66)) || (decide (0x41 ≤ c.toNat) && decide (c.toNat ≤ 0x46))

/-- The value of a hex digit. -/
def hexDigit (c : Byte) : Nat :=
  if isDec c then c.toNat - 0x30 else if 0x61 ≤ c.toNat then c.toNat - 0x57 else c.toNat - 0x37

/-- `DecVal(t)`: a string of decimal digits as an unbounded number (R14). -/
def decVal (t : List Byte) : Nat := t.foldl (fun v c => v * 10 + (c.toNat - 0x30)) 0

/-- `HexVal(t)`: a string of hex digits as an unbounded number (R14). -/
def hexVal (t : List Byte) : Nat := t.foldl (fun v c => v * 16 + hexDigit c) 0

/-- The byte '.' (R13). -/
def dot : Byte := 0x2E

/-- The byte ':' (R13). -/
def colon : Byte := 0x3A

/-- The byte '/' (R13). -/
def slash : Byte := 0x2F

/-- The byte '\' (R13). -/
def backslash : Byte := 0x5C

/-- The byte '-' (R13). -/
def minus : Byte := 0x2D

/-- The special names `localhost`, `lo`, `loopback` and `eth0` as ASCII bytes (R13). -/
def specialNames : List (List Byte) :=
  [[0x6C, 0x6F, 0x63, 0x61, 0x6C, 0x68, 0x6F, 0x73, 0x74], [0x6C, 0x6F],
    [0x6C, 0x6F, 0x6F, 0x70, 0x62, 0x61, 0x63, 0x6B], [0x65, 0x74, 0x68, 0x30]]

/-- `OctetValue(t)`: one decimal token as an octet (R146). -/
def octetValue (t : List Byte) : Except ErrKind Byte :=
  if !t.all isDec then .error .malformed
  else if t = [] then .error .illegalValue
  else if decVal t > 255 then .error .illegalValue
  else .ok (BitVec.ofNat 8 (decVal t))

/-- `HexGroup(t)`: one hex token as a group (R207). -/
def hexGroup (t : List Byte) : Except ErrKind (BitVec 16) :=
  if hexVal t > 0xFFFF then .error .illegalValue else .ok (BitVec.ofNat 16 (hexVal t))

/-- `MaskCount(r, W)`: the remainder of a mask text as a bit count (R275). -/
def maskCount (r : List Byte) (width : Nat) : Except ErrKind Nat :=
  let negative := r.head? = some minus
  let d := if negative then r.tail else r
  if d = [] ∨ !d.all isDec then .error .illegalValue
  else
    let n : Int := if negative then -(decVal d : Int) else (decVal d : Int)
    if n < 0 ∨ n > width then .error .illegalRange else .ok n.toNat

/-- `DottedV4(s)` from a point of the scan on (R147): `limbs` are the closed limbs, `tok` the running token, and the last
argument the bytes not scanned yet. -/
def dottedScan : (limbs tok : List Byte) → List Byte → Except ErrKind (List Byte)
  | limbs, tok, [] => do
    if limbs.length = 4 then .error .malformed
    else
      let v ← octetValue tok
      if limbs.length + 1 ≠ 4 then .error .malformed else .ok (limbs ++ [v])
  | limbs, tok, c :: rest =>
    if isDec c then dottedScan limbs (tok ++ [c]) rest
    else if c = dot then
      if limbs.length = 4 then .error .malformed
      else do
        let v ← octetValue tok
        dottedScan (limbs ++ [v]) [] rest
    else .error .malformed

/-- `DottedV4(s)`: the four limbs of a dotted-decimal text (R147). -/
def dottedV4 (s : List Byte) : Except ErrKind V4Limbs := do
  let limbs ← dottedScan [] [] s
  return limbsOfList 4 limbs

/-- The two groups of an embedded quad, first octet in the high byte of the first group (R209). -/
def quadGroups (q : V4Limbs) : List (BitVec 16) := [pairOctets q[0] q[1], pairOctets q[2] q[3]]

/-- `CloseBack(t)` of the backward phase (R210), with `f` front groups, the back groups `back` and the quad octets `quad`:
the new back groups. -/
def closeBack (f : Nat) (back : List (BitVec 16)) (quad : List Byte) (inquad : Bool) (t : List Byte) :
    Except ErrKind (List (BitVec 16)) :=
  if inquad then do
    let v ← octetValue t
    let q := v :: quad
    if q.length ≠ 4 then .error .malformed
    else if f + back.length + 2 > 7 then .error .malformed
    else .ok (quadGroups (limbsOfList 4 q))
  else if f + back.length + 1 > 7 then .error .malformed
  else do
    let v ← hexGroup t
    return v :: back

/-- The loop of `BackwardV6` (R210) over the bytes after '::' in right-to-left order, with `f` front groups. `back`, `quad`,
`inquad` and `tok` are the scanner's working state. At the end of the bytes the last token is closed.

An empty token that a ':' or the '::' closes raises Malformed also when it is the leftmost octet of a quad (`::ffff:.2.3.4`,
`::.2.3.4`). DESIGN CHOICE (log entry 15), unsafe: R210's pseudocode raises Malformed there before it looks at the quad, R209 and
D19 give IllegalValue for an empty octet, and no conflict entry decides between them. -/
def backwardScan (f : Nat) :
    (back : List (BitVec 16)) → (quad : List Byte) → (inquad : Bool) → (tok : List Byte) → List Byte →
      Except ErrKind (List (BitVec 16))
  | back, quad, inquad, tok, [] =>
    if tok = [] then .error .malformed
    else closeBack f back quad inquad tok
  | back, quad, inquad, tok, c :: rest =>
    if isHex c then backwardScan f back quad inquad (c :: tok) rest
    else if c = dot then
      if back.length > 0 then .error .malformed
      else if quad.length = 3 then .error .malformed
      else do
        let v ← octetValue tok
        backwardScan f back (v :: quad) true [] rest
    else if c = colon then
      if tok = [] then .error .malformed
      else do
        let back' ← closeBack f back quad inquad tok
        backwardScan f back' quad false [] rest
    else .error .malformed

/-- The groups of a text with '::' (R211): the front groups, a run of zeros, the back groups. -/
def joinGroups (front back : List (BitVec 16)) : V6Limbs :=
  limbsOfList 8 (front ++ List.replicate (8 - front.length - back.length) 0 ++ back)

/-- The end of the forward phase at '::' and the backward phase over the bytes `suffix` after it (R208, R210). -/
def compressV6 (front : List (BitVec 16)) (suffix : List Byte) : Except ErrKind V6Limbs :=
  if front.length = 8 then .error .malformed
  else if suffix = [] then .ok (joinGroups front [])
  else do
    let back ← backwardScan front.length [] [] false [] suffix.reverse
    return joinGroups front back

/-- `ColonV6(s)`, forward phase, from a point of the scan on (R208): `front` are the front groups, `tok` the running token,
`start` says that no byte has been scanned yet, and the last argument is the bytes not scanned yet. -/
def forwardScan : (front : List (BitVec 16)) → (tok : List Byte) → (start : Bool) → List Byte → Except ErrKind V6Limbs
  | front, tok, _, [] =>
    if tok = [] then .error .malformed
    else if front.length = 8 then .error .malformed
    else do
      let v ← hexGroup tok
      if front.length + 1 ≠ 8 then .error .malformed else .ok (limbsOfList 8 (front ++ [v]))
  | front, tok, start, c :: rest =>
    if isHex c then forwardScan front (tok ++ [c]) false rest
    else if c = colon then
      if tok ≠ [] then
        if front.length = 8 then .error .malformed
        else do
          let v ← hexGroup tok
          forwardScan (front ++ [v]) [] false rest
      else if start then
        if rest.head? = some colon then compressV6 front rest.tail else .error .malformed
      else compressV6 front rest
    else if c = dot then
      if front.length ≠ 6 then .error .malformed
      else do
        let q ← dottedV4 (tok ++ c :: rest)
        return limbsOfList 8 (front ++ quadGroups q)
    else .error .malformed

/-- `ColonV6(s)` (R208). -/
def colonV6 (s : List Byte) : Except ErrKind V6Limbs := forwardScan [] [] true s

end Sys2Proof.Machine
end

