-- ==== Sys2Proof/Machine/DecodeV4.lean ====
section
/-!
DEFINITION. The IPv4 address decoder (40_decode_v4.md). A command commits nothing until all four limbs are valid (R140).
-/

namespace Sys2Proof.Machine

/-- The special names' address, 127.0.0.1 (R143, R148). -/
def loopbackV4 : V4Limbs := #v[127, 0, 0, 1]

/-- The dispatch of d4.txt on the text `t` (R148). -/
def textV4 (t : List Byte) : Except ErrKind V4Limbs :=
  if t = [] then .ok #v[0, 0, 0, 0]
  else if t ∈ specialNames then .ok loopbackV4
  else if t.head? = some slash then do
    let n ← maskCount t.tail 32
    return limbsOf 8 4 (netMask 32 n)
  else if t.head? = some backslash then do
    let n ← maskCount t.tail 32
    return limbsOf 8 4 (wildMask 32 n)
  else dottedV4 t

/-- The list input of d4.lst (R150): the count is checked first. -/
def listV4 (s : State) : Except ErrKind V4Limbs :=
  if s.listLen.toNat ≠ 4 then .error .malformed
  else do
    let e ← elemValues s 255 0 4
    return limbsOfList 4 (e.map (BitVec.ofNat 8))

/-- A V6 address lies in ::ffff:0:0/96 (R151). -/
def isMapped (h : V6Limbs) : Bool :=
  h[0] == 0 && h[1] == 0 && h[2] == 0 && h[3] == 0 && h[4] == 0 && h[5] == 0xFFFF

/-- The last two groups of a V6 address as four octets (R151). -/
def lowOctets (h : V6Limbs) : V4Limbs :=
  #v[(h[6] >>> 8).setWidth 8, h[6].setWidth 8, (h[7] >>> 8).setWidth 8, h[7].setWidth 8]

/-- The V4 form of an address (R151): a V4 address is cloned and a V6 one is reduced. -/
def toV4 : AReg → Except ErrKind V4Limbs
  | .empty => .error .emptyOperand
  | .v4 h => .ok h
  | .v6 h => if isMapped h then .ok (lowOctets h) else .error .illegalRange

/-- `d4.abs` (R142). -/
def execD4Abs (rd : RegIx) (s : State) : Host.Outcome State Fault Refusal :=
  .next (complete rd (.ok (.v4 #v[0, 0, 0, 0])) s)

/-- `d4.true` (R143). -/
def execD4True (rd : RegIx) (s : State) : Host.Outcome State Fault Refusal :=
  .next (complete rd (.ok (.v4 loopbackV4)) s)

/-- `d4.int` (R144). -/
def execD4Int (rd : RegIx) (s : State) : Host.Outcome State Fault Refusal :=
  .next (complete rd (do
    let v ← integerInput s
    return .v4 (limbsOf 8 4 v)) s)

/-- `d4.flt` (R145). -/
def execD4Flt (rd : RegIx) (s : State) : Host.Outcome State Fault Refusal :=
  .next (complete rd (do
    let t ← floatInput s
    return .v4 (limbsOf 8 4 t)) s)

/-- `d4.txt` (R148). -/
def execD4Txt (rd : RegIx) (s : State) : Host.Outcome State Fault Refusal :=
  .next (complete rd (do
    let t ← checkedText s
    let g ← textV4 t
    return .v4 g) s)

/-- `d4.lst` (R150). -/
def execD4Lst (rd : RegIx) (s : State) : Host.Outcome State Fault Refusal :=
  .next (complete rd (do
    let g ← listV4 s
    return .v4 g) s)

/-- `d4.adr` (R151). -/
def execD4Adr (rd rs1 : RegIx) (s : State) : Host.Outcome State Fault Refusal :=
  .next (complete rd (do
    let h ← fetch1 s rs1
    let g ← toV4 h
    return .v4 g) s)

end Sys2Proof.Machine
end

