-- ==== Sys2Proof/Machine/DecodeV6.lean ====
section
/-!
DEFINITION. The IPv6 address decoder (41_decode_v6.md). A command commits nothing until all eight groups are valid (R200).
-/

namespace Sys2Proof.Machine

/-- The special names' address, ::1 (R203, R212). -/
def loopbackV6 : V6Limbs := #v[0, 0, 0, 0, 0, 0, 0, 1]

/-- The dispatch of d6.txt on the text `t` (R212). -/
def textV6 (t : List Byte) : Except ErrKind V6Limbs :=
  if t = [] then .ok #v[0, 0, 0, 0, 0, 0, 0, 0]
  else if t ∈ specialNames then .ok loopbackV6
  else if t.head? = some slash then do
    let n ← maskCount t.tail 128
    return limbsOf 16 8 (netMask 128 n)
  else if t.head? = some backslash then do
    let n ← maskCount t.tail 128
    return limbsOf 16 8 (wildMask 128 n)
  else colonV6 t

/-- The list input of d6.lst (R214): 8 groups, or 6 groups and the 4 bytes of a quad. The count is checked first. -/
def listV6 (s : State) : Except ErrKind V6Limbs :=
  if s.listLen.toNat = 8 then do
    let e ← elemValues s 0xFFFF 0 8
    return limbsOfList 8 (e.map (BitVec.ofNat 16))
  else if s.listLen.toNat = 10 then do
    let h ← elemValues s 0xFFFF 0 6
    let e ← elemValues s 0xFF 6 4
    return limbsOfList 8 (h.map (BitVec.ofNat 16) ++ quadGroups (limbsOfList 4 (e.map (BitVec.ofNat 8))))
  else .error .malformed

/-- The V6 form of an address (R215): a V6 address is cloned and a V4 one is embedded. -/
def toV6 : AReg → Except ErrKind V6Limbs
  | .empty => .error .emptyOperand
  | .v4 h => .ok (embed (val h))
  | .v6 h => .ok h

/-- `d6.abs` (R202). -/
def execD6Abs (rd : RegIx) (s : State) : Host.Outcome State Fault Refusal :=
  .next (complete rd (.ok (.v6 #v[0, 0, 0, 0, 0, 0, 0, 0])) s)

/-- `d6.true` (R203). -/
def execD6True (rd : RegIx) (s : State) : Host.Outcome State Fault Refusal :=
  .next (complete rd (.ok (.v6 loopbackV6)) s)

/-- `d6.int` (R204). -/
def execD6Int (rd : RegIx) (s : State) : Host.Outcome State Fault Refusal :=
  .next (complete rd (do
    let v ← integerInput s
    return .v6 (embed v)) s)

/-- `d6.flt` (R205). -/
def execD6Flt (rd : RegIx) (s : State) : Host.Outcome State Fault Refusal :=
  .next (complete rd (do
    let t ← floatInput s
    return .v6 (embed t)) s)

/-- `d6.txt` (R212). -/
def execD6Txt (rd : RegIx) (s : State) : Host.Outcome State Fault Refusal :=
  .next (complete rd (do
    let t ← checkedText s
    let g ← textV6 t
    return .v6 g) s)

/-- `d6.lst` (R214). -/
def execD6Lst (rd : RegIx) (s : State) : Host.Outcome State Fault Refusal :=
  .next (complete rd (do
    let g ← listV6 s
    return .v6 g) s)

/-- `d6.adr` (R215). -/
def execD6Adr (rd rs1 : RegIx) (s : State) : Host.Outcome State Fault Refusal :=
  .next (complete rd (do
    let h ← fetch1 s rs1
    let g ← toV6 h
    return .v6 g) s)

end Sys2Proof.Machine
end

