-- ==== Sys2Proof/Machine/Dispatch.lean ====
section
/-! DEFINITION. The meaning of each command (R106): one direct call for each constructor. -/

namespace Sys2Proof.Machine

/-- The effect of one decoded command on the state, CMD holding its word (R80). -/
def exec (i : Instr) (s : State) : Host.Outcome State Fault Refusal :=
  match i with
  | .d4abs rd => Sys2Proof.Machine.execD4Abs rd s
  | .d4true rd => Sys2Proof.Machine.execD4True rd s
  | .d4int rd => Sys2Proof.Machine.execD4Int rd s
  | .d4flt rd => Sys2Proof.Machine.execD4Flt rd s
  | .d4txt rd => Sys2Proof.Machine.execD4Txt rd s
  | .d4lst rd => Sys2Proof.Machine.execD4Lst rd s
  | .d4adr rd rs1 => Sys2Proof.Machine.execD4Adr rd rs1 s
  | .d6abs rd => Sys2Proof.Machine.execD6Abs rd s
  | .d6true rd => Sys2Proof.Machine.execD6True rd s
  | .d6int rd => Sys2Proof.Machine.execD6Int rd s
  | .d6flt rd => Sys2Proof.Machine.execD6Flt rd s
  | .d6txt rd => Sys2Proof.Machine.execD6Txt rd s
  | .d6lst rd => Sys2Proof.Machine.execD6Lst rd s
  | .d6adr rd rs1 => Sys2Proof.Machine.execD6Adr rd rs1 s
  | .m4net rd nbits => Sys2Proof.Machine.execM4Net rd nbits s
  | .m4wild rd nbits => Sys2Proof.Machine.execM4Wild rd nbits s
  | .m6net rd nbits => Sys2Proof.Machine.execM6Net rd nbits s
  | .m6wild rd nbits => Sys2Proof.Machine.execM6Wild rd nbits s
  | .and rd rs1 rs2 => Sys2Proof.Machine.execAnd rd rs1 rs2 s
  | .or rd rs1 rs2 => Sys2Proof.Machine.execOr rd rs1 rs2 s
  | .not rd rs1 => Sys2Proof.Machine.execNot rd rs1 s
  | .add rd rs1 rs2 => Sys2Proof.Machine.execAdd rd rs1 rs2 s
  | .sub rd rs1 rs2 => Sys2Proof.Machine.execSub rd rs1 rs2 s

end Sys2Proof.Machine
end

