-- ==== Sys2Proof/Machine/Flags.lean ====
section
/-!
DEFINITION. The status the unit records. It has no condition flags: the carry out of add and sub is recorded nowhere
(R38). What it has is STATUS (R40) and the tags (R42).
-/

namespace Sys2Proof.Machine

/-- The code of an error kind (R342). -/
def errCode : ErrKind → BitVec 4
  | .illegalArgument => 1
  | .illegalValue => 2
  | .illegalRange => 3
  | .malformed => 4
  | .badCommand => 8
  | .emptyOperand => 9
  | .versionMismatch => 10

/-- STATUS.ERRKIND (R40): 0 when the most recent command succeeded, else its error's code. -/
def errKindField : Option ErrKind → BitVec 4
  | none => 0
  | some k => errCode k

/-- STATUS as a host reads it (R40): ERRKIND in bits [3:0], STICKY in bit 8, every other bit 0. -/
def State.statusWord (s : State) : Word :=
  0#23 ++ BitVec.ofBool s.sticky ++ 0#4 ++ errKindField s.errKind

/-- STICKY after a host write of `v` to STATUS: bit 8 is write-1-to-clear (R40). -/
def stickyAfterWrite (old : Bool) (v : Word) : Bool := old && !v.getLsbD 8

/-- The code of a tag (R31). -/
def AReg.tagCode : AReg → BitVec 2
  | .empty => 0
  | .v4 _ => 1
  | .v6 _ => 2

/-- AREG_TAG as a host reads it (R42): the tag code of A[k] in bits [2k+1:2k], bits [31:16] 0. -/
def State.tagWord (s : State) : Word :=
  0#16 ++ (s.areg 7).tagCode ++ (s.areg 6).tagCode ++ (s.areg 5).tagCode ++ (s.areg 4).tagCode
    ++ (s.areg 3).tagCode ++ (s.areg 2).tagCode ++ (s.areg 1).tagCode ++ (s.areg 0).tagCode

end Sys2Proof.Machine
end

