-- ==== Sys2Proof/Machine/Window.lean ====
section
/-!
DEFINITION. The host register window (20_memory.md): its map, what a read returns, what a write does, and which accesses
get a bus error.
-/

namespace Sys2Proof.Machine

/-- A register of the window (R71). -/
inductive WindowReg where
  | cmd
  | status
  | errCmd
  | inLen
  | inValLo
  | inValHi
  | listLen
  | listNonNum
  | aregTag
  /-- LIST_ELEM[k]. -/
  | listElem (k : Fin 16)
  /-- The TEXT word with the bytes 4q .. 4q+3. -/
  | text (q : Fin 64)
  /-- AREG[k].W[j]. -/
  | areg (k : RegIx) (j : Fin 4)
  deriving DecidableEq, Repr

/-- The register at an aligned window offset (R71). An offset without one is reserved. -/
def windowReg (off : Nat) : Option WindowReg :=
  if off = 0x000 then some .cmd
  else if off = 0x004 then some .status
  else if off = 0x008 then some .errCmd
  else if off = 0x00C then some .inLen
  else if off = 0x010 then some .inValLo
  else if off = 0x014 then some .inValHi
  else if off = 0x018 then some .listLen
  else if off = 0x01C then some .listNonNum
  else if off = 0x020 then some .aregTag
  else if 0x040 ≤ off ∧ off < 0x080 then some (.listElem (Fin.ofNat 16 ((off - 0x040) / 4)))
  else if 0x100 ≤ off ∧ off < 0x200 then some (.text (Fin.ofNat 64 ((off - 0x100) / 4)))
  else if 0x200 ≤ off ∧ off < 0x280 then
    some (.areg (Fin.ofNat 8 ((off - 0x200) / 16)) (Fin.ofNat 4 ((off - 0x200) / 4)))
  else none

/-- The register an access reaches, or its bus error: only a 32-bit access at a multiple of 4 is accepted (R73), and a
reserved offset is not (R72). -/
def accessTarget (off : BitVec 10) (bits : Nat) : Except Fault WindowReg :=
  if bits ≠ 32 then .error (.accessWidth bits)
  else if off.toNat % 4 ≠ 0 then .error (.misaligned off)
  else match windowReg off.toNat with
    | some r => .ok r
    | none => .error (.reservedOffset off)

/-- AREG[k].W[j] for a register content (R43). -/
def AReg.readWord (v : AReg) (j : Fin 4) : Word :=
  match v with
  | .empty => 0
  | .v4 g => if j = 0 then g[0] ++ g[1] ++ g[2] ++ g[3] else 0
  | .v6 g => g[2 * j.val] ++ g[2 * j.val + 1]

/-- The TEXT word q: byte k of the text is bits [8*(k mod 4)+7 : 8*(k mod 4)] (R83). -/
def State.textWord (s : State) (q : Nat) : Word :=
  s.textByte (4 * q + 3) ++ s.textByte (4 * q + 2) ++ s.textByte (4 * q + 1) ++ s.textByte (4 * q)

/-- The TEXT word q written with `v` (R83). -/
def State.setTextWord (s : State) (q : Nat) (v : Word) : State :=
  (((s.setTextByte (4 * q) (v.extractLsb' 0 8)).setTextByte (4 * q + 1) (v.extractLsb' 8 8)).setTextByte (4 * q + 2)
    (v.extractLsb' 16 8)).setTextByte (4 * q + 3) (v.extractLsb' 24 8)

/-- What a host read of a register returns (R39-R47, R76). Reserved bits read 0 (R74). -/
def readReg (s : State) : WindowReg → Word
  | .cmd => s.cmd
  | .status => s.statusWord
  | .errCmd => s.errCmd
  | .inLen => s.inLen.setWidth 32
  | .inValLo => s.inValLo
  | .inValHi => s.inValHi
  | .listLen => s.listLen.setWidth 32
  | .listNonNum => s.listNonNum.setWidth 32
  | .aregTag => s.tagWord
  | .listElem k => s.listElem[k]
  | .text q => s.textWord q
  | .areg k j => (s.areg k).readWord j

/-- The command word `w`, CMD holding it, is decoded and executed (R80, R108). A word that does not decode aborts (R109,
R344). -/
def runCommand (w : Word) (s : State) : Host.Outcome State Fault Refusal :=
  match decode w with
  | .ok i => exec i s
  | .error k => .next (abort k s)

/-- What a host write of `v` to a register does (R39-R47): a write to CMD executes, a write to STATUS with bit 8 set clears
STICKY, a write to a read-only register is ignored, and every other write stores its defined bits (R74, R79). -/
def writeReg (r : WindowReg) (v : Word) (s : State) : Host.Outcome State Fault Refusal :=
  match r with
  | .cmd => runCommand v { s with cmd := v }
  | .status => .next { s with sticky := stickyAfterWrite s.sticky v }
  | .errCmd => .next s
  | .inLen => .next { s with inLen := v.setWidth 9 }
  | .inValLo => .next { s with inValLo := v }
  | .inValHi => .next { s with inValHi := v }
  | .listLen => .next { s with listLen := v.setWidth 5 }
  | .listNonNum => .next { s with listNonNum := v.setWidth 16 }
  | .aregTag => .next s
  | .listElem k => .next { s with listElem := s.listElem.set k v }
  | .text q => .next (s.setTextWord q v)
  | .areg _ _ => .next s

/-- The reset input (R380): the unit's state is that of R50, with fresh unspecified values. The inputs still to come and the
words already returned are the host's. -/
def platformReset (s : State) : State :=
  { State.afterReset (s.resets + 1) with inputs := s.inputs, reads := s.reads }

/-- One input performed (R81): a host access, or the reset input. A read changes nothing in the unit (R79) and returns its
word to the host. An access the window does not accept is a fault (R72, R350). -/
def perform (i : Input) (s : State) : Host.Outcome State Fault Refusal :=
  match i with
  | .read off bits =>
    match accessTarget off bits with
    | .ok r => .next { s with reads := readReg s r :: s.reads }
    | .error e => .fault e
  | .write off bits v =>
    match accessTarget off bits with
    | .ok r => writeReg r v s
    | .error e => .fault e
  | .reset => .next (platformReset s)

/-- The window offset of the host bus address `addr`, with the window at `base` (R9, R70: BASE is a parameter, 1024-byte
aligned). An address outside the window is no access to this unit. -/
def windowOffset (base addr : Nat) : Option (BitVec 10) :=
  if base ≤ addr ∧ addr < base + Config.windowBytes then some (BitVec.ofNat 10 (addr - base)) else none

end Sys2Proof.Machine
end

