-- ==== Sys2Proof/Machine/Step.lean ====
section
/-!
DEFINITION. One step: the next input is performed (R385: a host access, and the command it executes, is one step). The unit
has no program counter (R37): what it runs next is what the host writes to CMD.
-/

namespace Sys2Proof.Machine

/-- One step. With no input to perform the unit waits for its host (R381, R386). -/
def step (s : State) : Host.Outcome State Fault Refusal :=
  match s.inputs with
  | [] => .next s
  | i :: rest => perform i { s with inputs := rest }

/-- The state whose next input is the host's write to CMD of the `nbits` bits `w`, every higher bit 0 (R39). Log entry 3. -/
def State.withFetchWord (s : State) (nbits w : Nat) : State :=
  { s with inputs := .write 0x000 32 (BitVec.ofNat 32 (w % 2 ^ nbits)) :: s.inputs }

end Sys2Proof.Machine
end

