-- ==== Sys2Proof/Machine/Program.lean ====
section
/-!
DEFINITION. The pseudo-instructions of a host program (R111), each as the host accesses it expands to.
-/

namespace Sys2Proof.Machine

/-- `MemWrite(off, 4, v)` (R12). -/
def memWrite (off : Nat) (v : Word) : Input := .write (BitVec.ofNat 10 off) 32 v

/-- `MemRead(off, 4)` (R12). -/
def memRead (off : Nat) : Input := .read (BitVec.ofNat 10 off) 32

/-- The word `{s[4q+3], s[4q+2], s[4q+1], s[4q]}` of a byte string, a byte past its end as 0 (R83, R111). -/
def stringWord (s : List Byte) (q : Nat) : Word :=
  s.getD (4 * q + 3) 0 ++ s.getD (4 * q + 2) 0 ++ s.getD (4 * q + 1) 0 ++ s.getD (4 * q) 0

/-- `stxt s`: stage a text of at most 256 bytes (R111). -/
def stxt (s : List Byte) : List Input :=
  (List.range ((s.length + 3) / 4)).map (fun q => memWrite (0x100 + 4 * q) (stringWord s q)) ++
    [memWrite 0x00C (BitVec.ofNat 32 s.length)]

/-- `sval v`, and `sflt x` for the bit pattern `v` of x: stage a scalar (R111). -/
def sval (v : BitVec 64) : List Input :=
  [memWrite 0x010 (v.extractLsb' 0 32), memWrite 0x014 (v.extractLsb' 32 32)]

/-- The number whose bit k is 1 exactly where element k is not numeric (R111). -/
def nonNumericBits : List (Option Word) → Nat
  | [] => 0
  | e :: es => (if e = none then 1 else 0) + 2 * nonNumericBits es

/-- `slist [e0, ...]`: stage a list of at most 16 elements, `none` for a non-numeric one (R111). -/
def slist (es : List (Option Word)) : List Input :=
  (List.range es.length).map (fun k => memWrite (0x040 + 4 * k) ((es.getD k none).getD 0)) ++
    [memWrite 0x01C (BitVec.ofNat 32 (nonNumericBits es)), memWrite 0x018 (BitVec.ofNat 32 es.length)]

/-- `clrerr`: clear STICKY (R111). -/
def clrerr : List Input := [memWrite 0x004 0x00000100]

/-- `cmd w`, and a command line `mnemonic operands` for the command's word (R111). -/
def cmd (w : Word) : List Input := [memWrite 0x000 w]

/-- `rdreg ak`: read a register's tag and words (R111). -/
def rdreg (k : RegIx) : List Input :=
  memRead 0x020 :: (List.range 4).map fun j => memRead (0x200 + 16 * k.val + 4 * j)

/-- `rdstat`: read STATUS and ERRCMD (R111). -/
def rdstat : List Input := [memRead 0x004, memRead 0x008]

/-- `li4 ak, s`: load a V4 address from its text (R111). -/
def li4 (k : RegIx) (s : List Byte) : List Input := stxt s ++ cmd (encode (.d4txt k))

/-- `li6 ak, s`: load a V6 address from its text (R111). -/
def li6 (k : RegIx) (s : List Byte) : List Input := stxt s ++ cmd (encode (.d6txt k))

/-- `mov4 ak, aj` (R111). -/
def mov4 (k j : RegIx) : List Input := cmd (encode (.d4adr k j))

/-- `mov6 ak, aj` (R111). -/
def mov6 (k j : RegIx) : List Input := cmd (encode (.d6adr k j))

end Sys2Proof.Machine
end

