-- ==== Sys2Proof/Safety.lean ====
section
/-!
DEFINITION. What counts as a safe run, the invariant of the machine, and the terms the statements are made in: which texts
stand for which addresses, where the scan of any other text fails, the number a binary64 pattern stands for, and what two
states share that a command may read.
-/

namespace Sys2Proof.Machine

/-! ### Safe runs -/

/-- A reserved window offset (R71). -/
def reserved (off : Nat) : Prop := (0x024 ≤ off ∧ off ≤ 0x03F) ∨ (0x080 ≤ off ∧ off ≤ 0x0FF) ∨ 0x280 ≤ off

/-- An access the window accepts (R72, R73): 32 bits, aligned, at an offset that is not reserved. -/
def accepted (off : BitVec 10) (bits : Nat) : Prop := bits = 32 ∧ off.toNat % 4 = 0 ∧ ¬reserved off.toNat

/-- An input that is no bus error. -/
def safeInput : Input → Prop
  | .read off bits => accepted off bits
  | .write off bits _ => accepted off bits
  | .reset => True

/-- A state whose run meets no bus error: every input still to come is safe. -/
def safe (s : State) : Prop := ∀ i ∈ s.inputs, safeInput i

/-- The invariant every step keeps: TEXT is in the canonical form of log entry 11, the model's choice, and ERRCMD equals CMD
whenever ERRKIND is not 0 (R39, R40, R344). -/
def inv (s : State) : Prop := s.text.wf = true ∧ (s.errKind ≠ none → s.errCmd = s.cmd)

/-! ### What a command may read -/

/-- Two states share the staging that R45, R46 and R47 let the command `i` read: the text IN_LEN covers, IN_VAL, or LIST_LEN
with LIST_NONNUM and the numeric elements below LIST_LEN. Every other command reads none (R86). -/
def sameStaging (i : Instr) (s t : State) : Prop :=
  match i with
  | .d4txt _ | .d6txt _ => s.inLen = t.inLen ∧ ∀ k < s.inLen.toNat, s.textByte k = t.textByte k
  | .d4int _ | .d4flt _ | .d6int _ | .d6flt _ => s.inValLo = t.inValLo ∧ s.inValHi = t.inValHi
  | .d4lst _ | .d6lst _ => s.listLen = t.listLen ∧ s.listNonNum = t.listNonNum ∧
    ∀ k < s.listLen.toNat, s.listNonNum.getLsbD k = false → s.listElemAt k = t.listElemAt k
  | .d4abs _ | .d4true _ | .d4adr _ _ | .d6abs _ | .d6true _ | .d6adr _ _ | .m4net _ _ | .m4wild _ _ | .m6net _ _
  | .m6wild _ _ | .and _ _ _ | .or _ _ _ | .not _ _ | .add _ _ _ | .sub _ _ _ => True

/-- Two states share everything the command `i` may read: the registers it names as sources (R33) and its staging. -/
def sameInputs (i : Instr) (s t : State) : Prop := (∀ r ∈ sources i, s.areg r = t.areg r) ∧ sameStaging i s t

/-! ### Texts -/

/-- A token of decimal digits with the value of the octet `v` (R146). -/
def octetToken (t : List Byte) (v : Byte) : Prop := t ≠ [] ∧ (∀ c ∈ t, isDec c = true) ∧ decVal t = v.toNat

/-- A token of hex digits with the value of the group `v` (R207). -/
def groupToken (t : List Byte) (v : BitVec 16) : Prop := t ≠ [] ∧ (∀ c ∈ t, isHex c = true) ∧ hexVal t = v.toNat

/-- Tokens with ':' between them. -/
def colonText (ts : List (List Byte)) : List Byte := List.intercalate [colon] ts

/-- A dotted-decimal text of the four octets `q` (R147). -/
def quadText (t : List Byte) (q : V4Limbs) : Prop :=
  ∃ ts, List.Forall₂ octetToken ts q.toList ∧ t = List.intercalate [dot] ts

/-- A text of eight groups without '::' (R208). -/
def fullText (t : List Byte) (g : V6Limbs) : Prop :=
  ∃ ts, List.Forall₂ groupToken ts g.toList ∧ t = colonText ts

/-- A text of six groups and an embedded quad, without '::' (R208, R209). -/
def hybridText (t : List Byte) (g : V6Limbs) : Prop :=
  ∃ ts gs u q, List.Forall₂ groupToken ts gs ∧ gs.length = 6 ∧ quadText u q ∧ t = colonText ts ++ [colon] ++ u ∧
    g.toList = gs ++ [q[0] ++ q[1], q[2] ++ q[3]]

/-- A text with '::' between its front groups and its back groups, which are at most seven in all (R210, R211). -/
def compressedText (t : List Byte) (g : V6Limbs) : Prop :=
  ∃ ts gs us hs, List.Forall₂ groupToken ts gs ∧ List.Forall₂ groupToken us hs ∧ gs.length + hs.length ≤ 7 ∧
    t = colonText ts ++ [colon, colon] ++ colonText us ∧
    g.toList = gs ++ List.replicate (8 - gs.length - hs.length) (0 : BitVec 16) ++ hs

/-- A text with '::' whose back groups end in an embedded quad, which counts as two groups (R210, R211). -/
def compressedHybridText (t : List Byte) (g : V6Limbs) : Prop :=
  ∃ ts gs us hs u q, List.Forall₂ groupToken ts gs ∧ List.Forall₂ groupToken us hs ∧ quadText u q ∧
    gs.length + hs.length + 2 ≤ 7 ∧ t = colonText ts ++ [colon, colon] ++ colonText (us ++ [u]) ∧
    g.toList = gs ++ List.replicate (8 - gs.length - (hs.length + 2)) (0 : BitVec 16) ++ (hs ++ [q[0] ++ q[1], q[2] ++ q[3]])

/-- A text that stands for the V6 address `g` (R208-R211). -/
def addressText (t : List Byte) (g : V6Limbs) : Prop :=
  fullText t g ∨ hybridText t g ∨ compressedText t g ∨ compressedHybridText t g

/-! ### Where a scan fails -/

/-- Tokens, each closed by the separator `c`. -/
def closedBy (c : Byte) (ts : List (List Byte)) : List Byte := ts.flatMap fun t => t ++ [c]

/-- Tokens, each with the separator `c` before it. -/
def openedBy (c : Byte) (ts : List (List Byte)) : List Byte := ts.flatMap fun t => c :: t

/-- The dotted scan of a text raises `k` (R147, R348), left to right and then at the end of the input. `ts` are the tokens
closed so far, at most four of them, `tok` the digits after them, and `rest` the bytes that are not examined. -/
inductive DottedFails : List Byte → ErrKind → Prop
  /-- A byte that is no digit and no '.'. -/
  | badByte {ts : List (List Byte)} {ls tok rest : List Byte} {c : Byte} (closed : List.Forall₂ octetToken ts ls)
      (room : ls.length ≤ 4) (digits : ∀ d ∈ tok, isDec d = true) (noDigit : isDec c = false) (noDot : c ≠ dot) :
      DottedFails (closedBy dot ts ++ tok ++ c :: rest) .malformed
  /-- A '.' after the fourth closed limb. -/
  | fifthDot {ts : List (List Byte)} {ls tok rest : List Byte} (closed : List.Forall₂ octetToken ts ls)
      (four : ls.length = 4) (digits : ∀ d ∈ tok, isDec d = true) :
      DottedFails (closedBy dot ts ++ tok ++ dot :: rest) .malformed
  /-- A '.' that closes an empty octet or one above 255. -/
  | badOctet {ts : List (List Byte)} {ls tok rest : List Byte} (closed : List.Forall₂ octetToken ts ls)
      (room : ls.length < 4) (digits : ∀ d ∈ tok, isDec d = true) (bad : tok = [] ∨ 255 < decVal tok) :
      DottedFails (closedBy dot ts ++ tok ++ dot :: rest) .illegalValue
  /-- The end of the input after four closed limbs. -/
  | fifthLimb {ts : List (List Byte)} {ls tok : List Byte} (closed : List.Forall₂ octetToken ts ls)
      (four : ls.length = 4) (digits : ∀ d ∈ tok, isDec d = true) : DottedFails (closedBy dot ts ++ tok) .malformed
  /-- The end of the input after a last octet that is empty or above 255. -/
  | badLast {ts : List (List Byte)} {ls tok : List Byte} (closed : List.Forall₂ octetToken ts ls)
      (room : ls.length < 4) (digits : ∀ d ∈ tok, isDec d = true) (bad : tok = [] ∨ 255 < decVal tok) :
      DottedFails (closedBy dot ts ++ tok) .illegalValue
  /-- The end of the input with fewer than four limbs. -/
  | tooFew {ts : List (List Byte)} {ls tok : List Byte} {v : Byte} (closed : List.Forall₂ octetToken ts ls)
      (few : ls.length < 3) (last : octetToken tok v) : DottedFails (closedBy dot ts ++ tok) .malformed

/-- An octet token raises `k` (R146). -/
def octetFails (t : List Byte) (k : ErrKind) : Prop :=
  ((∃ c ∈ t, isDec c = false) ∧ k = .malformed) ∨
    ((∀ c ∈ t, isDec c = true) ∧ (t = [] ∨ 255 < decVal t) ∧ k = .illegalValue)

/-- What the backward phase has closed when it has read `tail`, the end of the text (R210): `b` groups, or `o` octets of a
quad that is not finished. -/
inductive BackClosed : (tail : List Byte) → (b o : Nat) → Prop
  /-- Group tokens, or nothing. -/
  | groups {us : List (List Byte)} {hs : List (BitVec 16)} (closed : List.Forall₂ groupToken us hs) :
      BackClosed (openedBy colon us) hs.length 0
  /-- Group tokens to the left of a quad. -/
  | quad {us : List (List Byte)} {hs : List (BitVec 16)} {u : List Byte} {q : V4Limbs}
      (closed : List.Forall₂ groupToken us hs) (isQuad : quadText u q) :
      BackClosed (openedBy colon (us ++ [u])) (hs.length + 2) 0
  /-- The last octets of a quad. -/
  | octets {ts : List (List Byte)} {vs : List Byte} (closed : List.Forall₂ octetToken ts vs) (some : 1 ≤ vs.length)
      (few : vs.length ≤ 3) : BackClosed (openedBy dot ts) 0 vs.length

/-- Closing the token `tok` in the backward phase raises `k` (R210): the token is empty, it is a bad octet of a quad, it closes a
quad of other than four octets, it is a bad group, or it leaves '::' no group to stand for. `f` counts the front groups.
An empty token raises Malformed also where it would be the leftmost octet of a quad: the model's choice, log entry 15. -/
def closeFails (f b o : Nat) (tok : List Byte) (k : ErrKind) : Prop :=
  (tok = [] ∧ k = .malformed) ∨ (tok ≠ [] ∧
    if o = 0 then (7 < f + b + 1 ∧ k = .malformed) ∨ (f + b + 1 ≤ 7 ∧ 0xFFFF < hexVal tok ∧ k = .illegalValue)
    else octetFails tok k ∨ ((∃ v, octetToken tok v) ∧ (o ≠ 3 ∨ 7 < f + b + 2) ∧ k = .malformed))

/-- The backward phase over the bytes after '::' raises `k` (R210, R348), right to left and then at the '::', with `f` front groups.
`tok` is the hex token read last and `pre` the bytes that are not examined. -/
inductive BackFails (f : Nat) : List Byte → ErrKind → Prop
  /-- A byte that is no hex digit and no separator. -/
  | badByte {tail pre tok : List Byte} {b o : Nat} {c : Byte} (closed : BackClosed tail b o) (room : f + b ≤ 7)
      (digits : ∀ d ∈ tok, isHex d = true) (noDigit : isHex c = false) (noDot : c ≠ dot) (noColon : c ≠ colon) :
      BackFails f (pre ++ c :: tok ++ tail) .malformed
  /-- A '.' to the left of a group, or a fourth '.' of a quad. -/
  | badDot {tail pre tok : List Byte} {b o : Nat} (closed : BackClosed tail b o) (room : f + b ≤ 7)
      (digits : ∀ d ∈ tok, isHex d = true) (bad : 0 < b ∨ o = 3) : BackFails f (pre ++ dot :: tok ++ tail) .malformed
  /-- A '.' that closes a bad octet. -/
  | badOctet {tail pre tok : List Byte} {o : Nat} {k : ErrKind} (closed : BackClosed tail 0 o) (room : f ≤ 7)
      (digits : ∀ d ∈ tok, isHex d = true) (few : o < 3) (bad : octetFails tok k) :
      BackFails f (pre ++ dot :: tok ++ tail) k
  /-- A ':' that closes a bad token. -/
  | badClose {tail pre tok : List Byte} {b o : Nat} {k : ErrKind} (closed : BackClosed tail b o) (room : f + b ≤ 7)
      (digits : ∀ d ∈ tok, isHex d = true) (bad : closeFails f b o tok k) : BackFails f (pre ++ colon :: tok ++ tail) k
  /-- A bad token right after '::'. -/
  | badFirst {tail tok : List Byte} {b o : Nat} {k : ErrKind} (closed : BackClosed tail b o) (room : f + b ≤ 7)
      (digits : ∀ d ∈ tok, isHex d = true) (bad : closeFails f b o tok k) : BackFails f (tok ++ tail) k

/-- The colon scan of a text raises `k` (R208, R210, R348): left to right up to the '::' or the end, then right to left down to the
'::'. `ts` are the front tokens closed so far, at most eight of them, `tok` the hex digits after them, and `rest` the bytes
that are not examined. -/
inductive ColonFails : List Byte → ErrKind → Prop
  /-- A byte that is no hex digit and no separator. -/
  | badByte {ts : List (List Byte)} {gs : List (BitVec 16)} {tok rest : List Byte} {c : Byte}
      (closed : List.Forall₂ groupToken ts gs) (room : gs.length ≤ 8) (digits : ∀ d ∈ tok, isHex d = true)
      (noDigit : isHex c = false) (noDot : c ≠ dot) (noColon : c ≠ colon) :
      ColonFails (closedBy colon ts ++ tok ++ c :: rest) .malformed
  /-- A ':' that closes a ninth group. -/
  | ninthGroup {ts : List (List Byte)} {gs : List (BitVec 16)} {tok rest : List Byte}
      (closed : List.Forall₂ groupToken ts gs) (eight : gs.length = 8) (digits : ∀ d ∈ tok, isHex d = true)
      (token : tok ≠ []) : ColonFails (closedBy colon ts ++ tok ++ colon :: rest) .malformed
  /-- A ':' that closes a group above 0xFFFF. -/
  | badGroup {ts : List (List Byte)} {gs : List (BitVec 16)} {tok rest : List Byte}
      (closed : List.Forall₂ groupToken ts gs) (room : gs.length < 8) (digits : ∀ d ∈ tok, isHex d = true)
      (bad : 0xFFFF < hexVal tok) : ColonFails (closedBy colon ts ++ tok ++ colon :: rest) .illegalValue
  /-- A lone ':' at the start. -/
  | loneColon {rest : List Byte} (lone : rest.head? ≠ some colon) : ColonFails (colon :: rest) .malformed
  /-- A '.' of a quad that would not stand in groups 6 and 7. -/
  | quadPlace {ts : List (List Byte)} {gs : List (BitVec 16)} {tok rest : List Byte}
      (closed : List.Forall₂ groupToken ts gs) (room : gs.length ≤ 8) (digits : ∀ d ∈ tok, isHex d = true)
      (place : gs.length ≠ 6) : ColonFails (closedBy colon ts ++ tok ++ dot :: rest) .malformed
  /-- A quad after six groups whose dotted scan fails. -/
  | badQuad {ts : List (List Byte)} {gs : List (BitVec 16)} {tok rest : List Byte} {k : ErrKind}
      (closed : List.Forall₂ groupToken ts gs) (six : gs.length = 6) (digits : ∀ d ∈ tok, isHex d = true)
      (bad : DottedFails (tok ++ dot :: rest) k) : ColonFails (closedBy colon ts ++ tok ++ dot :: rest) k
  /-- The end of the input after a ':', or an empty input. -/
  | lastColon {ts : List (List Byte)} {gs : List (BitVec 16)} (closed : List.Forall₂ groupToken ts gs)
      (room : gs.length ≤ 8) : ColonFails (closedBy colon ts) .malformed
  /-- The end of the input after a ninth group. -/
  | ninthLast {ts : List (List Byte)} {gs : List (BitVec 16)} {tok : List Byte} (closed : List.Forall₂ groupToken ts gs)
      (eight : gs.length = 8) (digits : ∀ d ∈ tok, isHex d = true) (token : tok ≠ []) :
      ColonFails (closedBy colon ts ++ tok) .malformed
  /-- The end of the input after a last group above 0xFFFF. -/
  | badLast {ts : List (List Byte)} {gs : List (BitVec 16)} {tok : List Byte} (closed : List.Forall₂ groupToken ts gs)
      (room : gs.length < 8) (digits : ∀ d ∈ tok, isHex d = true) (bad : 0xFFFF < hexVal tok) :
      ColonFails (closedBy colon ts ++ tok) .illegalValue
  /-- The end of the input with fewer than eight groups. -/
  | tooFew {ts : List (List Byte)} {gs : List (BitVec 16)} {tok : List Byte} {v : BitVec 16}
      (closed : List.Forall₂ groupToken ts gs) (few : gs.length < 7) (last : groupToken tok v) :
      ColonFails (closedBy colon ts ++ tok) .malformed
  /-- A '::' after eight groups. -/
  | fullCompression {ts : List (List Byte)} {gs : List (BitVec 16)} {rest : List Byte}
      (closed : List.Forall₂ groupToken ts gs) (eight : gs.length = 8) :
      ColonFails (colonText ts ++ [colon, colon] ++ rest) .malformed
  /-- A '::' whose backward phase fails. -/
  | badBack {ts : List (List Byte)} {gs : List (BitVec 16)} {suffix : List Byte} {k : ErrKind}
      (closed : List.Forall₂ groupToken ts gs) (room : gs.length < 8) (more : suffix ≠ [])
      (bad : BackFails gs.length suffix k) : ColonFails (colonText ts ++ [colon, colon] ++ suffix) k

/-! ### Counts and numbers -/

/-- A mask remainder with the value `n`: decimal digits, after one '-' when the value is negated (R275). -/
def countText (r : List Byte) (n : Int) : Prop :=
  ∃ d, d ≠ [] ∧ (∀ c ∈ d, isDec c = true) ∧ ((r = d ∧ n = decVal d) ∨ (r = minus :: d ∧ n = -(decVal d : Int)))

/-- The bytes of an ASCII text (R13). -/
def ascii (t : String) : List Byte := t.toList.map fun c => BitVec.ofNat 8 c.toNat

/-- A binary64 pattern of a finite number: its biased exponent is not all ones. -/
def finite64 (x : BitVec 64) : Prop := x.extractLsb' 52 11 ≠ 0x7FF#11

/-- The number a finite binary64 pattern stands for: sign, exponent and fraction as IEEE 754 lays them out, subnormal when
the exponent field is 0. -/
def value64 (x : BitVec 64) : ℚ :=
  let e := (x.extractLsb' 52 11).toNat
  let f : ℚ := ((x.extractLsb' 0 52).toNat : ℚ) / 2 ^ 52
  let magnitude : ℚ := if e = 0 then f * 2 ^ (-1022 : ℤ) else (1 + f) * 2 ^ ((e : ℤ) - 1023)
  if x.getLsbD 63 then -magnitude else magnitude

/-- A rational number rounded toward zero (R12: `trunc`). -/
def truncRat (q : ℚ) : ℤ := if 0 ≤ q then ⌊q⌋ else ⌈q⌉

/-! ### Shapes several statements share -/

/-- The word of opcode `opc` with the register fields given (R110). -/
def commandWord (opc : Nat) (rd rs1 rs2 : RegIx) : Word :=
  BitVec.ofNat 32 (opc + rd.val * 256 + rs1.val * 2048 + rs2.val * 16384)

/-- A command with two sources (R301): its word, its result at each version as `p4` and `p6` relate it to the operands, and
its three operand errors in the order of R345. -/
def binaryCommand (opc : Nat) (i : RegIx → RegIx → RegIx → Instr) (p4 : V4Limbs → V4Limbs → V4Limbs → Prop)
    (p6 : V6Limbs → V6Limbs → V6Limbs → Prop) : Prop :=
  ∀ rd rs1 rs2 : RegIx, decode (commandWord opc rd rs1 rs2) = .ok (i rd rs1 rs2) ∧ ∀ s : State,
    (∀ a b, s.areg rs1 = .v4 a → s.areg rs2 = .v4 b →
      ∃ g, p4 a b g ∧ exec (i rd rs1 rs2) s = .next (commit rd (.v4 g) s)) ∧
    (∀ a b, s.areg rs1 = .v6 a → s.areg rs2 = .v6 b →
      ∃ g, p6 a b g ∧ exec (i rd rs1 rs2) s = .next (commit rd (.v6 g) s)) ∧
    (s.areg rs1 = .empty ∨ s.areg rs2 = .empty → exec (i rd rs1 rs2) s = .next (abort .emptyOperand s)) ∧
    (∀ a b, s.areg rs1 = .v4 a → s.areg rs2 = .v6 b → exec (i rd rs1 rs2) s = .next (abort .versionMismatch s)) ∧
    (∀ a b, s.areg rs1 = .v6 a → s.areg rs2 = .v4 b → exec (i rd rs1 rs2) s = .next (abort .versionMismatch s))

/-- A mask command of a `width`-bit version (R276-R279): its word, the mask as `reg` says it for each count, and its range
error. -/
def maskCommand (opc width : Nat) (i : RegIx → Nat → Instr) (reg : Nat → AReg → Prop) : Prop :=
  ∀ rd : RegIx, (∀ n < 256, decode (BitVec.ofNat 32 (opc + rd.val * 256 + n * 131072)) = .ok (i rd n)) ∧
    ∀ (n : Nat) (s : State),
      (n ≤ width → ∃ v, reg n v ∧ exec (i rd n) s = .next (commit rd v s)) ∧
      (width < n → exec (i rd n) s = .next (abort .illegalRange s))

/-- A V4 address whose bit j is set exactly where `b j` says. -/
def v4Bits (b : Nat → Bool) (v : AReg) : Prop := ∃ g, v = .v4 g ∧ ∀ j < 32, (val g).testBit j = b j

/-- A V6 address whose bit j is set exactly where `b j` says. -/
def v6Bits (b : Nat → Bool) (v : AReg) : Prop := ∃ g, v = .v6 g ∧ ∀ j < 128, (val g).testBit j = b j

end Sys2Proof.Machine
end

