-- ==== Sys2Proof/Certificates/Slice0/Obligations.lean ====
section
/-!
DEFINITION. The statements for the provers. Each docstring says which rule of spec/ the statement formalises, or what it is
derived from.

`exec` runs a command on a state whose CMD holds its word (R39). On any other state the statements below say of ERRCMD that
a failure records what CMD holds there, `abort k s`: this clause is the model's (log entry 12, DEDUCED).
-/

open Sys2Proof Sys2Proof.Machine

/-! ### Encoding -/

/-- R108, R110: the word of a well-formed command decodes to that command. -/
def Obligations.DecodeOfEncode : Prop := ∀ i : Instr, i.wellFormed = true → decode (encode i) = .ok i

/-- R108: a word that decodes is the word of the command it decodes to, and that command is well-formed: no bit of a
command word is dropped. -/
def Obligations.EncodeOfDecode : Prop := ∀ (w : Word) (i : Instr), decode w = .ok i → encode i = w ∧ i.wellFormed = true

/-- R102-R106: each row of the opcode table, by its selecting mask and its match value. -/
def Obligations.MatchedWordsDecode : Prop := ∀ w : Word,
  (w &&& 0xFFFFF8FF = 0x00000001 → decode w = .ok (.d4abs (rdField w))) ∧
  (w &&& 0xFFFFF8FF = 0x00000002 → decode w = .ok (.d4true (rdField w))) ∧
  (w &&& 0xFFFFF8FF = 0x00000003 → decode w = .ok (.d4int (rdField w))) ∧
  (w &&& 0xFFFFF8FF = 0x00000004 → decode w = .ok (.d4flt (rdField w))) ∧
  (w &&& 0xFFFFF8FF = 0x00000005 → decode w = .ok (.d4txt (rdField w))) ∧
  (w &&& 0xFFFFF8FF = 0x00000006 → decode w = .ok (.d4lst (rdField w))) ∧
  (w &&& 0xFFFFC0FF = 0x00000007 → decode w = .ok (.d4adr (rdField w) (rs1Field w))) ∧
  (w &&& 0xFFFFF8FF = 0x00000011 → decode w = .ok (.d6abs (rdField w))) ∧
  (w &&& 0xFFFFF8FF = 0x00000012 → decode w = .ok (.d6true (rdField w))) ∧
  (w &&& 0xFFFFF8FF = 0x00000013 → decode w = .ok (.d6int (rdField w))) ∧
  (w &&& 0xFFFFF8FF = 0x00000014 → decode w = .ok (.d6flt (rdField w))) ∧
  (w &&& 0xFFFFF8FF = 0x00000015 → decode w = .ok (.d6txt (rdField w))) ∧
  (w &&& 0xFFFFF8FF = 0x00000016 → decode w = .ok (.d6lst (rdField w))) ∧
  (w &&& 0xFFFFC0FF = 0x00000017 → decode w = .ok (.d6adr (rdField w) (rs1Field w))) ∧
  (w &&& 0xFE01F8FF = 0x00000021 → decode w = .ok (.m4net (rdField w) (nbitsField w))) ∧
  (w &&& 0xFE01F8FF = 0x00000022 → decode w = .ok (.m4wild (rdField w) (nbitsField w))) ∧
  (w &&& 0xFE01F8FF = 0x00000023 → decode w = .ok (.m6net (rdField w) (nbitsField w))) ∧
  (w &&& 0xFE01F8FF = 0x00000024 → decode w = .ok (.m6wild (rdField w) (nbitsField w))) ∧
  (w &&& 0xFFFE00FF = 0x00000031 → decode w = .ok (.and (rdField w) (rs1Field w) (rs2Field w))) ∧
  (w &&& 0xFFFE00FF = 0x00000032 → decode w = .ok (.or (rdField w) (rs1Field w) (rs2Field w))) ∧
  (w &&& 0xFFFFC0FF = 0x00000033 → decode w = .ok (.not (rdField w) (rs1Field w))) ∧
  (w &&& 0xFFFE00FF = 0x00000034 → decode w = .ok (.add (rdField w) (rs1Field w) (rs2Field w))) ∧
  (w &&& 0xFFFE00FF = 0x00000035 → decode w = .ok (.sub (rdField w) (rs1Field w) (rs2Field w)))

/-- R109: the encodings outside the opcode map, class by class, and the effect of such a word, with CMD holding it: that
of its error, no register written. The opcodes assigned are those of R106. -/
def Obligations.IllegalEncodings : Prop := ∀ w : Word,
  let opc := w.extractLsb' 0 8
  ((0x08#8 ≤ opc ∧ opc ≤ 0x0F#8) ∨ (0x18#8 ≤ opc ∧ opc ≤ 0x1F#8) → decode w = .error .illegalArgument) ∧
  (opc = 0x00#8 ∨ opc = 0x10#8 ∨ opc = 0x20#8 ∨ (0x25#8 ≤ opc ∧ opc ≤ 0x30#8) ∨ 0x36#8 ≤ opc →
    decode w = .error .badCommand) ∧
  ((0x01#8 ≤ opc ∧ opc ≤ 0x06#8) ∨ (0x11#8 ≤ opc ∧ opc ≤ 0x16#8) → w &&& 0xFFFFF800 ≠ 0 →
    decode w = .error .badCommand) ∧
  (opc = 0x07#8 ∨ opc = 0x17#8 ∨ opc = 0x33#8 → w &&& 0xFFFFC000 ≠ 0 → decode w = .error .badCommand) ∧
  (opc = 0x31#8 ∨ opc = 0x32#8 ∨ opc = 0x34#8 ∨ opc = 0x35#8 → w &&& 0xFFFE0000 ≠ 0 → decode w = .error .badCommand) ∧
  (0x21#8 ≤ opc ∧ opc ≤ 0x24#8 → w &&& 0xFE01F800 ≠ 0 → decode w = .error .badCommand) ∧
  ∀ (k : ErrKind) (s : State), s.cmd = w → decode w = .error k →
    runCommand w s = .next { s with errKind := some k, sticky := true, errCmd := w }

/-- R110 (the examples) and the worked words of the family files: a few words decode to the commands they stand for. -/
def Obligations.WrittenWordsDecode : Prop :=
  decode 0x00000205 = .ok (.d4txt 2) ∧ decode 0x00000117 = .ok (.d6adr 1 0) ∧ decode 0x00004231 = .ok (.and 2 0 1) ∧
    decode 0x00300121 = .ok (.m4net 1 24) ∧ decode 0x00F00124 = .ok (.m6wild 1 120) ∧
    decode 0x00017735 = .ok (.sub 7 6 5) ∧ decode 0x00000133 = .ok (.not 1 0)

/-! ### A step -/

/-- R39, R80: a host write to CMD of a word that decodes to `i` runs `i`, with CMD holding the word and the write taken from
the inputs. -/
def Obligations.StepRunsDecodedCommand : Prop := ∀ (s : State) (w : Word) (rest : List Input) (i : Instr),
  s.inputs = .write 0x000 32 w :: rest → decode w = .ok i → step s = exec i { s with inputs := rest, cmd := w }

/-- R39, R344, R346: what a host write to CMD does, whatever the word. Either the command succeeds and writes the register
its RD field names and ERRKIND, or it fails and writes ERRKIND, STICKY and ERRCMD. Nothing else changes but CMD. -/
def Obligations.CommandWriteOutcome : Prop := ∀ (s : State) (w : Word) (rest : List Input),
  s.inputs = .write 0x000 32 w :: rest →
    (∃ v, step s = .next { s with inputs := rest, cmd := w, regs := s.regs.set (rdField w) v, errKind := none }) ∨
    ∃ k, step s = .next { s with inputs := rest, cmd := w, errKind := some k, sticky := true, errCmd := w }

/-- R108, R109, R344: a word that does not decode raises its error. -/
def Obligations.IllegalWordAborts : Prop := ∀ (s : State) (w : Word) (rest : List Input) (k : ErrKind),
  s.inputs = .write 0x000 32 w :: rest → decode w = .error k →
    step s = .next { s with inputs := rest, cmd := w, errKind := some k, sticky := true, errCmd := w }

/-- R33, R344, R346: every command that runs ends in one of two ways, with its frame spelled out: RD and ERRKIND, or
ERRKIND, STICKY and ERRCMD. No command raises BadCommand of its own. R344 gives ERRCMD the
command's word, which CMD holds (R39). That it takes what CMD holds on any other state too is the model's (log entry 12,
DEDUCED). -/
def Obligations.CommandCommitsOrAborts : Prop := ∀ (i : Instr) (s : State),
  (∃ v, exec i s = .next { s with regs := s.regs.set (destination i) v, errKind := none }) ∨
  ∃ k, k ≠ .badCommand ∧ exec i s = .next { s with errKind := some k, sticky := true, errCmd := s.cmd }

/-- R33, R86, R344, R346: what a command leaves alone, register by register and byte by byte: every address register but RD,
CMD, every byte of TEXT, every other staging register, and RD too when the command fails. -/
def Obligations.CommandFrame : Prop := ∀ (i : Instr) (s t : State), exec i s = .next t →
  (∀ r, r ≠ destination i → t.areg r = s.areg r) ∧ (t.errKind ≠ none → t.areg (destination i) = s.areg (destination i)) ∧
    (∀ k, t.textByte k = s.textByte k) ∧ t.cmd = s.cmd ∧ t.inLen = s.inLen ∧ inVal t = inVal s ∧ t.listLen = s.listLen ∧
    t.listNonNum = s.listNonNum ∧ t.listElem = s.listElem ∧ t.inputs = s.inputs ∧ t.reads = s.reads ∧
    (t.errKind = none → t.sticky = s.sticky ∧ t.errCmd = s.errCmd)

/-- R381, R386: with no input to perform, the unit waits. That a step exists then is the model's choice (log entry 3). -/
def Obligations.StepWaitsForInput : Prop := ∀ s : State, s.inputs = [] → step s = .next s

/-- R88: a step that is no command and no reset leaves every address register, CMD, ERRKIND and ERRCMD as they were. -/
def Obligations.HostAccessKeepsRegisters : Prop := ∀ (s t : State) (i : Input) (rest : List Input),
  s.inputs = i :: rest → i ≠ .reset → (∀ w, i ≠ .write 0x000 32 w) → step s = .next t →
    t.regs = s.regs ∧ t.cmd = s.cmd ∧ t.errKind = s.errKind ∧ t.errCmd = s.errCmd

/-! ### Reset -/

/-- R50: the values after reset. Nothing is said of TEXT and LIST_ELEM, which are UNSPECIFIED. -/
def Obligations.ResetValues : Prop :=
  (∀ r : RegIx, State.reset.areg r = .empty) ∧ (∀ k j, readReg State.reset (.areg k j) = 0) ∧ State.reset.cmd = 0 ∧
    State.reset.statusWord = 0 ∧ State.reset.errKind = none ∧ State.reset.sticky = false ∧ State.reset.errCmd = 0 ∧
    State.reset.inLen = 0 ∧ inVal State.reset = 0 ∧ State.reset.listLen = 0 ∧ State.reset.listNonNum = 0 ∧
    State.reset.tagWord = 0

/-- R380: the reset input, in any state, leaves the values of R50 and executes no command. The numbering of the unspecified
values by the count of resets is the model's choice (log entries 1, 2 and 4), and so is what it leaves of the host's inputs
and of the words already read (log entry 4). -/
def Obligations.ResetInputResets : Prop := ∀ (s : State) (rest : List Input), s.inputs = .reset :: rest →
  ∃ t, step s = .next t ∧ (∀ r : RegIx, t.areg r = .empty) ∧ t.cmd = 0 ∧ t.errKind = none ∧ t.sticky = false ∧
    t.errCmd = 0 ∧ t.inLen = 0 ∧ t.inValLo = 0 ∧ t.inValHi = 0 ∧ t.listLen = 0 ∧ t.listNonNum = 0 ∧ t.text = [] ∧
    t.inputs = rest ∧ t.reads = s.reads

/-! ### The register window -/

/-- R72, R73: an access of a width other than 32 bits, at an offset that is not a multiple of 4, or to a reserved offset is
a fault, and every other access is performed. -/
def Obligations.BusErrorsExactly : Prop := ∀ (s : State) (off : BitVec 10) (bits : Nat) (v : Word) (rest : List Input),
  (s.inputs = .read off bits :: rest ∨ s.inputs = .write off bits v :: rest) →
    (accepted off bits → ∃ t, step s = .next t) ∧ (¬accepted off bits → ∃ f, step s = .fault f)

/-- R71, R79: a 32-bit read at the offset R71 gives a register returns what the register reads and changes nothing in the
unit. It is taken from the inputs. A read at any accepted offset returns what some register reads. CMD (R39), ERRCMD (R41) and
the staging registers (R44, R46, R47) read what the state holds for them; CommandWriteOutcome says that a write to CMD makes
that the word written, whether or not the command succeeds, and that a failure makes it the word in ERRCMD. What STATUS,
AREG_TAG, AREG and TEXT read is said by the statements on them below. -/
def Obligations.ReadsHaveNoSideEffects : Prop := ∀ (s : State) (rest : List Input),
  (∀ (off : Nat) (r : WindowReg),
    (off = 0x000 ∧ r = .cmd) ∨ (off = 0x004 ∧ r = .status) ∨ (off = 0x008 ∧ r = .errCmd) ∨ (off = 0x00C ∧ r = .inLen) ∨
      (off = 0x010 ∧ r = .inValLo) ∨ (off = 0x014 ∧ r = .inValHi) ∨ (off = 0x018 ∧ r = .listLen) ∨
      (off = 0x01C ∧ r = .listNonNum) ∨ (off = 0x020 ∧ r = .aregTag) ∨
      (∃ k : Fin 16, off = 0x040 + 4 * k.val ∧ r = .listElem k) ∨ (∃ q : Fin 64, off = 0x100 + 4 * q.val ∧ r = .text q) ∨
      (∃ (k : RegIx) (j : Fin 4), off = 0x200 + 16 * k.val + 4 * j.val ∧ r = .areg k j) →
    s.inputs = .read (BitVec.ofNat 10 off) 32 :: rest →
      step s = .next { s with inputs := rest, reads := readReg s r :: s.reads }) ∧
  (∀ off : BitVec 10, s.inputs = .read off 32 :: rest → accepted off 32 →
    ∃ r, step s = .next { s with inputs := rest, reads := readReg s r :: s.reads }) ∧
  readReg s .cmd = s.cmd ∧ readReg s .errCmd = s.errCmd ∧ readReg s .inLen = s.inLen.setWidth 32 ∧
  readReg s .inValLo = s.inValLo ∧ readReg s .inValHi = s.inValHi ∧ readReg s .listLen = s.listLen.setWidth 32 ∧
  readReg s .listNonNum = s.listNonNum.setWidth 32 ∧ ∀ k : Fin 16, readReg s (.listElem k) = s.listElem[k]

/-- R44, R46, R47, R71: a 32-bit write at the offset of a staging register other than TEXT stores the bits the register has,
every other bit reads 0, and every other register of the window reads as before. -/
def Obligations.StagingWriteReadsBack : Prop := ∀ (s : State) (v : Word) (rest : List Input) (off : Nat) (r : WindowReg)
    (mask : Word),
  (off = 0x00C ∧ r = .inLen ∧ mask = 0x1FF) ∨ (off = 0x010 ∧ r = .inValLo ∧ mask = 0xFFFFFFFF) ∨
    (off = 0x014 ∧ r = .inValHi ∧ mask = 0xFFFFFFFF) ∨ (off = 0x018 ∧ r = .listLen ∧ mask = 0x1F) ∨
    (off = 0x01C ∧ r = .listNonNum ∧ mask = 0xFFFF) ∨
    (∃ k : Fin 16, off = 0x040 + 4 * k.val ∧ r = .listElem k ∧ mask = 0xFFFFFFFF) →
  s.inputs = .write (BitVec.ofNat 10 off) 32 v :: rest →
  ∃ t, step s = .next t ∧ readReg t r = v &&& mask ∧ (∀ r', r' ≠ r → readReg t r' = readReg s r') ∧
    t.regs = s.regs ∧ t.inputs = rest ∧ t.reads = s.reads ∧ t.resets = s.resets

/-- R74 (its first sentence): a host write to ERRCMD, AREG_TAG or an AREG word is accepted and ignored. -/
def Obligations.ReadOnlyWritesIgnored : Prop := ∀ (s : State) (off : BitVec 10) (v : Word) (rest : List Input),
  s.inputs = .write off 32 v :: rest → off.toNat % 4 = 0 →
    (off = 0x008 ∨ off = 0x020 ∨ (0x200 ≤ off.toNat ∧ off.toNat < 0x280)) → step s = .next { s with inputs := rest }

/-- R40, R342: STATUS reads the code of R342 in bits [3:0], 0 after a success and 1, 2, 3, 4, 8, 9 or 10 after an error,
STICKY in bit 8 and 0 elsewhere. A host write clears STICKY when its bit 8 is 1 and changes nothing else. -/
def Obligations.StatusRegister : Prop := ∀ s : State,
  let code := (readReg s .status).extractLsb' 0 4
  (s.errKind = none → code = 0) ∧
    (s.errKind = some .illegalArgument → code = 1) ∧
    (s.errKind = some .illegalValue → code = 2) ∧
    (s.errKind = some .illegalRange → code = 3) ∧
    (s.errKind = some .malformed → code = 4) ∧
    (s.errKind = some .badCommand → code = 8) ∧
    (s.errKind = some .emptyOperand → code = 9) ∧
    (s.errKind = some .versionMismatch → code = 10) ∧
    code ∈ [0#4, 1#4, 2#4, 3#4, 4#4, 8#4, 9#4, 10#4] ∧ (readReg s .status).getLsbD 8 = s.sticky ∧
    readReg s .status &&& 0xFFFFFEF0 = 0 ∧
    ∀ (v : Word) (rest : List Input), s.inputs = .write 0x004 32 v :: rest →
      step s = .next { s with inputs := rest, sticky := if v.getLsbD 8 then false else s.sticky }

/-- R31, R42: bits [2k+1:2k] of AREG_TAG read 0 when A[k] is EMPTY, 1 when it is V4 and 2 when it is V6, and bits [31:16]
read 0. -/
def Obligations.TagRegister : Prop := ∀ s : State,
  (∀ k : RegIx, (s.areg k = .empty → (readReg s .aregTag).extractLsb' (2 * k.val) 2 = 0) ∧
    (∀ g, s.areg k = .v4 g → (readReg s .aregTag).extractLsb' (2 * k.val) 2 = 1) ∧
    ∀ g, s.areg k = .v6 g → (readReg s .aregTag).extractLsb' (2 * k.val) 2 = 2) ∧
  (readReg s .aregTag).extractLsb' 16 16 = 0

/-- R43, R77: the words of an EMPTY register read 0, a V4 register reads Val(g) in W[0] and 0 elsewhere, and the four
words of a V6 register, W[0] most significant, are Val(g). -/
def Obligations.AddressRegistersReadTheirValue : Prop := ∀ (s : State) (k : RegIx),
  (s.areg k = .empty → ∀ j, readReg s (.areg k j) = 0) ∧
  (∀ g, s.areg k = .v4 g → (readReg s (.areg k 0)).toNat = val g ∧ ∀ j, j ≠ 0 → readReg s (.areg k j) = 0) ∧
  ∀ g, s.areg k = .v6 g →
    (readReg s (.areg k 0) ++ readReg s (.areg k 1) ++ readReg s (.areg k 2) ++ readReg s (.areg k 3)).toNat = val g

/-- R83: byte k of the text is bits [8*(k mod 4)+7 : 8*(k mod 4)] of the word at 0x100 + 4*(k div 4), in a read of that word
and after a write of it. A write of one word leaves every other byte of the text, and every field but TEXT, as it was. -/
def Obligations.TextIsLittleEndianInItsWords : Prop := ∀ s : State,
  (∀ (k : Nat) (rest : List Input), k < 256 → s.inputs = .read (BitVec.ofNat 10 (0x100 + 4 * (k / 4))) 32 :: rest →
    ∃ w, step s = .next { s with inputs := rest, reads := w :: s.reads } ∧ s.textByte k = w.extractLsb' (8 * (k % 4)) 8) ∧
  ∀ (v : Word) (q : Fin 64) (rest : List Input),
    s.inputs = .write (BitVec.ofNat 10 (0x100 + 4 * q.val)) 32 v :: rest →
      ∃ t, step s = .next t ∧ (∀ j < 4, t.textByte (4 * q.val + j) = v.extractLsb' (8 * j) 8) ∧
        (∀ k, k / 4 ≠ q.val → t.textByte k = s.textByte k) ∧ t = { s with inputs := rest, text := t.text }

/-- R70: byte offset `off` of the window is the bus address BASE + off, for every BASE, and an address outside the 1024
bytes is no access to the unit. The form is the model's choice (log entry 7). -/
def Obligations.WindowStandsAtBase : Prop := ∀ base : Nat,
  (∀ off : BitVec 10, windowOffset base (base + off.toNat) = some off) ∧
    ∀ addr, addr < base ∨ base + 1024 ≤ addr → windowOffset base addr = none

/-! ### Group sequences as numbers -/

/-- R11: Val(g) is the sum of g[k] * 2^(W*(N-1-k)), and Limbs is its inverse on the values below 2^(N*W), group k of it
the W bits from W*(N-1-k) up. -/
def Obligations.LimbsAndVal : Prop := ∀ w n : Nat,
  (∀ g : Limbs w n, val g = ∑ k : Fin n, g[k].toNat * 2 ^ (w * (n - 1 - k.val)) ∧ limbsOf w n (val g) = g) ∧
    ∀ x, x < 2 ^ (n * w) → val (limbsOf w n x) = x ∧
      ∀ k : Fin n, (limbsOf w n x)[k].toNat = x / 2 ^ (w * (n - 1 - k.val)) % 2 ^ w

/-! ### The decoders: scalar and address inputs -/

/-- R142, R143, R202, R203: the commands without an operand write their constant. -/
def Obligations.ConstantInputs : Prop := ∀ (rd : RegIx) (s : State),
  (decode (commandWord 0x01 rd 0 0) = .ok (.d4abs rd) ∧ exec (.d4abs rd) s = .next (commit rd (.v4 #v[0, 0, 0, 0]) s)) ∧
  (decode (commandWord 0x02 rd 0 0) = .ok (.d4true rd) ∧ exec (.d4true rd) s = .next (commit rd (.v4 #v[127, 0, 0, 1]) s)) ∧
  (decode (commandWord 0x11 rd 0 0) = .ok (.d6abs rd) ∧
    exec (.d6abs rd) s = .next (commit rd (.v6 #v[0, 0, 0, 0, 0, 0, 0, 0]) s)) ∧
  (decode (commandWord 0x12 rd 0 0) = .ok (.d6true rd) ∧
    exec (.d6true rd) s = .next (commit rd (.v6 #v[0, 0, 0, 0, 0, 0, 0, 1]) s))

/-- R46, R144: with IN_VAL = {IN_VAL_HI, IN_VAL_LO}, d4.int writes the four bytes of an integer in [0, 2^32 - 1], most
significant first, and raises IllegalValue for any other. -/
def Obligations.IntegerToV4 : Prop := ∀ (rd : RegIx) (s : State), decode (commandWord 0x03 rd 0 0) = .ok (.d4int rd) ∧
  let v : BitVec 64 := s.inValHi ++ s.inValLo
  (0 ≤ v.toInt ∧ v.toInt ≤ 0xFFFFFFFF →
    exec (.d4int rd) s = .next (commit rd (.v4 #v[v.extractLsb' 24 8, v.extractLsb' 16 8,
      v.extractLsb' 8 8, v.extractLsb' 0 8]) s)) ∧
  (v.toInt < 0 ∨ 0xFFFFFFFF < v.toInt → exec (.d4int rd) s = .next (abort .illegalValue s))

/-- R46, R204, R206: d6.int embeds an integer in [0, 2^32 - 1] in ::ffff:0:0/96, and raises IllegalValue for any other. -/
def Obligations.IntegerToV6 : Prop := ∀ (rd : RegIx) (s : State), decode (commandWord 0x13 rd 0 0) = .ok (.d6int rd) ∧
  let v : BitVec 64 := s.inValHi ++ s.inValLo
  (0 ≤ v.toInt ∧ v.toInt ≤ 0xFFFFFFFF →
    exec (.d6int rd) s = .next (commit rd (.v6 #v[0, 0, 0, 0, 0, 0xFFFF, v.extractLsb' 16 16,
      v.extractLsb' 0 16]) s)) ∧
  (v.toInt < 0 ∨ 0xFFFFFFFF < v.toInt → exec (.d6int rd) s = .next (abort .illegalValue s))

/-- R46, R145, with the binary64 layout of log entry 8: d4.flt truncates the number of a finite pattern toward zero. A
truncation in [0, 2^32 - 1] gives its four bytes. Any other, a NaN and an infinity raise IllegalValue. -/
def Obligations.FloatToV4 : Prop := ∀ (rd : RegIx) (s : State), decode (commandWord 0x04 rd 0 0) = .ok (.d4flt rd) ∧
  let v : BitVec 64 := s.inValHi ++ s.inValLo
  (∀ x : Word, finite64 v → truncRat (value64 v) = x.toNat →
    exec (.d4flt rd) s = .next (commit rd (.v4 #v[x.extractLsb' 24 8, x.extractLsb' 16 8, x.extractLsb' 8 8,
      x.extractLsb' 0 8]) s)) ∧
  (¬finite64 v ∨ truncRat (value64 v) < 0 ∨ 0xFFFFFFFF < truncRat (value64 v) →
    exec (.d4flt rd) s = .next (abort .illegalValue s))

/-- R46, R205, with the binary64 layout of log entry 8: d6.flt truncates as d4.flt does and embeds the result in
::ffff:0:0/96. -/
def Obligations.FloatToV6 : Prop := ∀ (rd : RegIx) (s : State), decode (commandWord 0x14 rd 0 0) = .ok (.d6flt rd) ∧
  let v : BitVec 64 := s.inValHi ++ s.inValLo
  (∀ x : Word, finite64 v → truncRat (value64 v) = x.toNat →
    exec (.d6flt rd) s = .next (commit rd (.v6 #v[0, 0, 0, 0, 0, 0xFFFF, x.extractLsb' 16 16, x.extractLsb' 0 16]) s)) ∧
  (¬finite64 v ∨ truncRat (value64 v) < 0 ∨ 0xFFFFFFFF < truncRat (value64 v) →
    exec (.d6flt rd) s = .next (abort .illegalValue s))

/-- R151: d4.adr clones a V4 address, reduces a V6 address of ::ffff:0:0/96 to the four bytes of its groups 6 and 7, raises
IllegalRange for any other V6 address, and EmptyOperand for an EMPTY register. -/
def Obligations.AddressToV4 : Prop := ∀ (rd rs1 : RegIx) (s : State),
  decode (commandWord 0x07 rd rs1 0) = .ok (.d4adr rd rs1) ∧
  (s.areg rs1 = .empty → exec (.d4adr rd rs1) s = .next (abort .emptyOperand s)) ∧
  (∀ h, s.areg rs1 = .v4 h → exec (.d4adr rd rs1) s = .next (commit rd (.v4 h) s)) ∧
  (∀ a b : Byte, ∀ c d : Byte, s.areg rs1 = .v6 #v[0, 0, 0, 0, 0, 0xFFFF, a ++ b, c ++ d] →
    exec (.d4adr rd rs1) s = .next (commit rd (.v4 #v[a, b, c, d]) s)) ∧
  ∀ h : V6Limbs, s.areg rs1 = .v6 h →
    ¬(h[0] = 0 ∧ h[1] = 0 ∧ h[2] = 0 ∧ h[3] = 0 ∧ h[4] = 0 ∧ h[5] = 0xFFFF) →
    exec (.d4adr rd rs1) s = .next (abort .illegalRange s)

/-- R215: d6.adr clones a V6 address, embeds a V4 one in ::ffff:0:0/96, and raises EmptyOperand for an EMPTY register. A
d4.adr after it returns the V4 address unchanged. -/
def Obligations.AddressToV6 : Prop := ∀ (rd rd' rs1 : RegIx) (s : State),
  decode (commandWord 0x17 rd rs1 0) = .ok (.d6adr rd rs1) ∧
  (s.areg rs1 = .empty → exec (.d6adr rd rs1) s = .next (abort .emptyOperand s)) ∧
  (∀ h, s.areg rs1 = .v6 h → exec (.d6adr rd rs1) s = .next (commit rd (.v6 h) s)) ∧
  ∀ a b c d : Byte, s.areg rs1 = .v4 #v[a, b, c, d] →
    ∃ t, t = commit rd (.v6 #v[0, 0, 0, 0, 0, 0xFFFF, a ++ b, c ++ d]) s ∧ exec (.d6adr rd rs1) s = .next t ∧
      exec (.d4adr rd' rd) t = .next (commit rd' (.v4 #v[a, b, c, d]) t)

/-! ### The decoders: lists -/

/-- R149: a list element is its value when its NONNUM bit is 0 and the value is in [0, hi], and an IllegalValue otherwise.
-/
def Obligations.ListElementValue : Prop := ∀ (s : State) (k : Fin 16) (hi : Nat),
  (s.listNonNum.getLsbD k = true → elemValue s k hi = .error .illegalValue) ∧
  (s.listNonNum.getLsbD k = false → 0 ≤ (s.listElem[k]).toInt → (s.listElem[k]).toInt ≤ hi →
    ∃ v, elemValue s k hi = .ok v ∧ (v : Int) = (s.listElem[k]).toInt) ∧
  (s.listNonNum.getLsbD k = false → (s.listElem[k]).toInt < 0 ∨ hi < (s.listElem[k]).toInt →
    elemValue s k hi = .error .illegalValue)

/-- R150: d4.lst needs exactly four elements, each numeric and in [0, 255]; the count is checked first. -/
def Obligations.ListToV4 : Prop := ∀ (rd : RegIx) (s : State), decode (commandWord 0x06 rd 0 0) = .ok (.d4lst rd) ∧
  (s.listLen ≠ 4 → exec (.d4lst rd) s = .next (abort .malformed s)) ∧
  (∀ g : V4Limbs, s.listLen = 4 →
    (∀ k : Fin 4, s.listNonNum.getLsbD k = false ∧ (s.listElemAt k).toInt = g[k].toNat) →
    exec (.d4lst rd) s = .next (commit rd (.v4 g) s)) ∧
  (∀ k : Fin 4, s.listLen = 4 →
    s.listNonNum.getLsbD k = true ∨ (s.listElemAt k).toInt < 0 ∨ 255 < (s.listElemAt k).toInt →
    exec (.d4lst rd) s = .next (abort .illegalValue s))

/-- R214: d6.lst takes eight groups, or six groups and the four bytes of a quad; the count is checked first. -/
def Obligations.ListToV6 : Prop := ∀ (rd : RegIx) (s : State), decode (commandWord 0x16 rd 0 0) = .ok (.d6lst rd) ∧
  (s.listLen ≠ 8 → s.listLen ≠ 10 → exec (.d6lst rd) s = .next (abort .malformed s)) ∧
  (∀ g : V6Limbs, s.listLen = 8 →
    (∀ k : Fin 8, s.listNonNum.getLsbD k = false ∧ (s.listElemAt k).toInt = g[k].toNat) →
    exec (.d6lst rd) s = .next (commit rd (.v6 g) s)) ∧
  (∀ (g : Limbs 16 6) (q : V4Limbs), s.listLen = 10 →
    (∀ k : Fin 6, s.listNonNum.getLsbD k = false ∧ (s.listElemAt k).toInt = g[k].toNat) →
    (∀ k : Fin 4, s.listNonNum.getLsbD (6 + k) = false ∧ (s.listElemAt (6 + k)).toInt = q[k].toNat) →
    exec (.d6lst rd) s =
      .next (commit rd (.v6 #v[g[0], g[1], g[2], g[3], g[4], g[5], q[0] ++ q[1], q[2] ++ q[3]]) s)) ∧
  (∀ k : Nat, (s.listLen = 8 ∧ k < 8) ∨ (s.listLen = 10 ∧ k < 6) →
    s.listNonNum.getLsbD k = true ∨ (s.listElemAt k).toInt < 0 ∨ 0xFFFF < (s.listElemAt k).toInt →
    exec (.d6lst rd) s = .next (abort .illegalValue s)) ∧
  ∀ k : Nat, s.listLen = 10 → 6 ≤ k → k < 10 →
    s.listNonNum.getLsbD k = true ∨ (s.listElemAt k).toInt < 0 ∨ 0xFF < (s.listElemAt k).toInt →
    exec (.d6lst rd) s = .next (abort .illegalValue s)

/-! ### The decoders: text -/

/-- R141, R201: a text length above 256 raises IllegalArgument in both text commands, and otherwise the text is the IN_LEN
bytes TEXT[0 .. IN_LEN-1]. -/
def Obligations.TextLengthCheck : Prop := ∀ (rd : RegIx) (s : State),
  (256 < s.inLen.toNat → exec (.d4txt rd) s = .next (abort .illegalArgument s) ∧
    exec (.d6txt rd) s = .next (abort .illegalArgument s)) ∧
  (s.inLen.toNat ≤ 256 → ∃ t, checkedText s = .ok t ∧ t.length = s.inLen.toNat ∧
    ∀ k < s.inLen.toNat, t[k]? = some (s.textByte k))

/-- R148, R212: the empty text decodes to all zero and a special name to the loopback address, in both versions. -/
def Obligations.EmptyAndNamedTexts : Prop := ∀ (rd : RegIx) (s : State), s.inLen.toNat ≤ 256 →
  (s.inLen = 0 → exec (.d4txt rd) s = .next (commit rd (.v4 #v[0, 0, 0, 0]) s) ∧
    exec (.d6txt rd) s = .next (commit rd (.v6 #v[0, 0, 0, 0, 0, 0, 0, 0]) s)) ∧
  (textInput s ∈ [ascii "localhost", ascii "lo", ascii "loopback", ascii "eth0"] →
    exec (.d4txt rd) s = .next (commit rd (.v4 #v[127, 0, 0, 1]) s) ∧
    exec (.d6txt rd) s = .next (commit rd (.v6 #v[0, 0, 0, 0, 0, 0, 0, 1]) s))

/-- R275, with R271 and R272 as the meaning of the two prefixes: a text `/` or `\` followed by a count in [0, W] gives the
mask, a count outside [0, W] raises IllegalRange, and a remainder that is no count raises IllegalValue, for both versions.
-/
def Obligations.MaskTexts : Prop := ∀ (rd : RegIx) (s : State) (r : List Byte), s.inLen.toNat ≤ 256 →
  (textInput s = slash :: r →
    (∀ n : Nat, countText r n → n ≤ 32 →
      ∃ v, v4Bits (fun j => decide (32 - n ≤ j)) v ∧ exec (.d4txt rd) s = .next (commit rd v s)) ∧
    (∀ n : Nat, countText r n → n ≤ 128 →
      ∃ v, v6Bits (fun j => decide (128 - n ≤ j)) v ∧ exec (.d6txt rd) s = .next (commit rd v s))) ∧
  (textInput s = backslash :: r →
    (∀ n : Nat, countText r n → n ≤ 32 →
      ∃ v, v4Bits (fun j => decide (j < 32 - n)) v ∧ exec (.d4txt rd) s = .next (commit rd v s)) ∧
    (∀ n : Nat, countText r n → n ≤ 128 →
      ∃ v, v6Bits (fun j => decide (j < 128 - n)) v ∧ exec (.d6txt rd) s = .next (commit rd v s))) ∧
  (textInput s = slash :: r ∨ textInput s = backslash :: r →
    (∀ n : Int, countText r n → n < 0 ∨ 32 < n → exec (.d4txt rd) s = .next (abort .illegalRange s)) ∧
    (∀ n : Int, countText r n → n < 0 ∨ 128 < n → exec (.d6txt rd) s = .next (abort .illegalRange s)) ∧
    ((¬∃ n, countText r n) → exec (.d4txt rd) s = .next (abort .illegalValue s) ∧
      exec (.d6txt rd) s = .next (abort .illegalValue s)))

/-- R146-R148: a dotted-decimal text of four octets gives its address, and a text that is neither that, empty, a special
name nor a mask text raises Malformed or IllegalValue. -/
def Obligations.DottedTextToV4 : Prop := ∀ (rd : RegIx) (s : State), s.inLen.toNat ≤ 256 →
  (∀ g, quadText (textInput s) g → exec (.d4txt rd) s = .next (commit rd (.v4 g) s)) ∧
  ((¬∃ g, quadText (textInput s) g) → textInput s ≠ [] →
    textInput s ∉ [ascii "localhost", ascii "lo", ascii "loopback", ascii "eth0"] →
    (textInput s).head? ≠ some slash → (textInput s).head? ≠ some backslash →
    exec (.d4txt rd) s = .next (abort .malformed s) ∨ exec (.d4txt rd) s = .next (abort .illegalValue s))

/-- R207-R212: a text of eight groups, of six groups and a quad, or of front and back groups (the last two of them a quad
or not) about one '::' that stands for at least one group gives its address. A text that is none of these, not empty, no
special name and no mask text raises Malformed or IllegalValue. -/
def Obligations.ColonTextToV6 : Prop := ∀ (rd : RegIx) (s : State), s.inLen.toNat ≤ 256 →
  (∀ g, addressText (textInput s) g → exec (.d6txt rd) s = .next (commit rd (.v6 g) s)) ∧
  ((¬∃ g, addressText (textInput s) g) → textInput s ≠ [] →
    textInput s ∉ [ascii "localhost", ascii "lo", ascii "loopback", ascii "eth0"] →
    (textInput s).head? ≠ some slash → (textInput s).head? ≠ some backslash →
    exec (.d6txt rd) s = .next (abort .malformed s) ∨ exec (.d6txt rd) s = .next (abort .illegalValue s))

/-- R46, R47, R83, R111: after the accesses of `stxt t`, `sval v` and `slist es` the text input is t, IN_VAL is v, and
LIST_LEN, LIST_NONNUM and LIST_ELEM hold the list, whatever the staging held before. The bytes that pad the last word of the text are 0,
and every byte of TEXT past that word and every list element past the list is as before. No other register has changed. -/
def Obligations.StagedInputsAreTheInputs : Prop := ∀ (s : State) (rest : List Input),
  (∀ t : List Byte, t.length ≤ 256 → s.inputs = stxt t ++ rest →
    ∃ u : State, core.run (stxt t).length s = .next u ∧ textInput u = t ∧
      (∀ k, t.length ≤ k → k < 4 * ((t.length + 3) / 4) → u.textByte k = 0) ∧
      (∀ k, 4 * ((t.length + 3) / 4) ≤ k → u.textByte k = s.textByte k) ∧
      u = { s with inputs := rest, inLen := BitVec.ofNat 9 t.length, text := u.text }) ∧
  (∀ v : BitVec 64, s.inputs = sval v ++ rest →
    ∃ u : State, core.run 2 s = .next u ∧ inVal u = v ∧ u.inValHi ++ u.inValLo = v ∧
      u = { s with inputs := rest, inValLo := u.inValLo, inValHi := u.inValHi }) ∧
  ∀ es : List (Option Word), es.length ≤ 16 → s.inputs = slist es ++ rest →
    ∃ u : State, core.run (es.length + 2) s = .next u ∧ u.listLen.toNat = es.length ∧
      (∀ k < 16, u.listNonNum.getLsbD k = decide (es[k]? = some none)) ∧
      (∀ (k : Fin 16) (e : Word), es[k.val]? = some (some e) → u.listElem[k] = e ∧ u.listElemAt k = e) ∧
      (∀ k : Fin 16, es[k.val]? = some none → u.listElem[k] = 0) ∧
      (∀ k : Fin 16, es.length ≤ k.val → u.listElem[k] = s.listElem[k]) ∧
      u = { s with inputs := rest, listLen := u.listLen, listNonNum := u.listNonNum, listElem := u.listElem }

/-- R349: the source's error cases. -/
def Obligations.SourceErrorCases : Prop := ∀ (rd : RegIx) (s : State), s.inLen.toNat ≤ 256 →
  (textInput s = ascii "1.2.3.256" → exec (.d4txt rd) s = .next (abort .illegalValue s)) ∧
  (textInput s = ascii "1.2.3" → exec (.d4txt rd) s = .next (abort .malformed s)) ∧
  (textInput s = ascii "2001::1::2" → exec (.d6txt rd) s = .next (abort .malformed s)) ∧
  (textInput s = ascii "/200" → exec (.d4txt rd) s = .next (abort .illegalRange s) ∧
    exec (.d6txt rd) s = .next (abort .illegalRange s))

/-- R147, R148, R208-R210, R212, R348: which error a text raises, for every text that reaches a scan. d4.txt raises `k`
exactly when the dotted scan meets `k` first, and d6.txt exactly when the colon scan does, forward and then backward: each
case of `DottedFails`, `BackFails` and `ColonFails` names the bytes read up to the error and leaves the bytes after it in
scan order open. That an empty leftmost octet of a quad in the backward phase raises Malformed (`closeFails`) is the model's
choice (log entry 15): R210's pseudocode says so, and R209 gives IllegalValue for an empty octet. The last clause is the
example of R348. -/
def Obligations.FirstErrorInScanOrder : Prop := ∀ (rd : RegIx) (s : State), s.inLen.toNat ≤ 256 →
  (textInput s ≠ [] → textInput s ∉ [ascii "localhost", ascii "lo", ascii "loopback", ascii "eth0"] →
    (textInput s).head? ≠ some slash → (textInput s).head? ≠ some backslash →
    ∀ k : ErrKind, (exec (.d4txt rd) s = .next (abort k s) ↔ DottedFails (textInput s) k) ∧
      (exec (.d6txt rd) s = .next (abort k s) ↔ ColonFails (textInput s) k)) ∧
  ∀ rest : List Byte, textInput s = ascii "12345:" ++ rest → exec (.d6txt rd) s = .next (abort .illegalValue s)

/-! ### The mask generator -/

/-- R276: m4.net writes the mask whose top NBITS bits are set, and raises IllegalRange above 32. -/
def Obligations.NetmaskV4 : Prop :=
  maskCommand 0x21 32 Instr.m4net fun n => v4Bits fun j => decide (32 - n ≤ j)

/-- R277: m4.wild writes the mask whose bottom 32 - NBITS bits are set, and raises IllegalRange above 32. -/
def Obligations.WildmaskV4 : Prop :=
  maskCommand 0x22 32 Instr.m4wild fun n => v4Bits fun j => decide (j < 32 - n)

/-- R278: m6.net writes the mask whose top NBITS bits are set, and raises IllegalRange above 128. -/
def Obligations.NetmaskV6 : Prop :=
  maskCommand 0x23 128 Instr.m6net fun n => v6Bits fun j => decide (128 - n ≤ j)

/-- R279: m6.wild writes the mask whose bottom 128 - NBITS bits are set, and raises IllegalRange above 128. -/
def Obligations.WildmaskV6 : Prop :=
  maskCommand 0x24 128 Instr.m6wild fun n => v6Bits fun j => decide (j < 128 - n)

/-- R273: the masks group by group, from how many of the group's bits lie in the top N. -/
def Obligations.MasksGroupByGroup : Prop := ∀ (w n nbits : Nat) (k : Fin n), nbits ≤ n * w →
  let c := min w (nbits - w * k.val)
  (limbsOf w n (netMask (n * w) nbits))[k].toNat = ((2 ^ w - 1) <<< (w - c)) &&& (2 ^ w - 1) ∧
    (limbsOf w n (wildMask (n * w) nbits))[k].toNat = (((2 ^ w - 1) <<< (w - c)) &&& (2 ^ w - 1)) ^^^ (2 ^ w - 1)

/-- R280: the two masks of a count share no bit and have every bit between them, by the commands that make and combine them,
for both versions. -/
def Obligations.MasksAreComplements : Prop := ∀ (a b c : RegIx) (s : State) (n : Nat), a ≠ b →
  (n ≤ 32 → ∃ t u x y, exec (.m4net a n) s = .next t ∧ exec (.m4wild b n) t = .next u ∧
    exec (.and c a b) u = .next x ∧ x.areg c = .v4 #v[0, 0, 0, 0] ∧
    exec (.or c a b) u = .next y ∧ y.areg c = .v4 #v[255, 255, 255, 255]) ∧
  (n ≤ 128 → ∃ t u x y, exec (.m6net a n) s = .next t ∧ exec (.m6wild b n) t = .next u ∧
    exec (.and c a b) u = .next x ∧ x.areg c = .v6 #v[0, 0, 0, 0, 0, 0, 0, 0] ∧
    exec (.or c a b) u = .next y ∧
    y.areg c = .v6 #v[0xFFFF, 0xFFFF, 0xFFFF, 0xFFFF, 0xFFFF, 0xFFFF, 0xFFFF, 0xFFFF])

/-! ### The limb ALU -/

/-- R302: `and` is limb-wise, with the operand errors of R301. -/
def Obligations.AndIsLimbwise : Prop :=
  binaryCommand 0x31 Instr.and (fun a b g => ∀ k : Fin 4, g[k] = a[k] &&& b[k])
    (fun a b g => ∀ k : Fin 8, g[k] = a[k] &&& b[k])

/-- R303: `or` is limb-wise, with the operand errors of R301. -/
def Obligations.OrIsLimbwise : Prop :=
  binaryCommand 0x32 Instr.or (fun a b g => ∀ k : Fin 4, g[k] = a[k] ||| b[k])
    (fun a b g => ∀ k : Fin 8, g[k] = a[k] ||| b[k])

/-- R304: `not` complements each limb within its width, and raises EmptyOperand for an EMPTY register. -/
def Obligations.NotIsLimbwise : Prop := ∀ (rd rs1 : RegIx) (s : State),
  decode (commandWord 0x33 rd rs1 0) = .ok (.not rd rs1) ∧
  (s.areg rs1 = .empty → exec (.not rd rs1) s = .next (abort .emptyOperand s)) ∧
  (∀ a : V4Limbs, s.areg rs1 = .v4 a →
    ∃ g : V4Limbs, (∀ k : Fin 4, g[k] = ~~~a[k]) ∧ exec (.not rd rs1) s = .next (commit rd (.v4 g) s)) ∧
  ∀ a : V6Limbs, s.areg rs1 = .v6 a →
    ∃ g : V6Limbs, (∀ k : Fin 8, g[k] = ~~~a[k]) ∧ exec (.not rd rs1) s = .next (commit rd (.v6 g) s)

/-- R305, R307: `add` adds the values modulo 2^32 or 2^128: the carry crosses every limb and the last one is discarded. -/
def Obligations.AddIsModular : Prop :=
  binaryCommand 0x34 Instr.add (fun a b g => val g = (val a + val b) % 2 ^ 32)
    (fun a b g => val g = (val a + val b) % 2 ^ 128)

/-- R306, R307: `sub` subtracts the values modulo 2^32 or 2^128. -/
def Obligations.SubIsModular : Prop :=
  binaryCommand 0x35 Instr.sub (fun a b g => (val g : Int) = ((val a : Int) - val b) % 2 ^ 32)
    (fun a b g => (val g : Int) = ((val a : Int) - val b) % 2 ^ 128)

/-- R308: `and` and `or` are commutative and associative on operands of one version, `not` undoes itself, and `sub` undoes
`add`, also across the wrap. A result that a later command reads stands in a register of its own. -/
def Obligations.AluLaws : Prop := ∀ (rd rd' rs1 rs2 rs3 : RegIx) (s : State), s.areg rs1 ≠ .empty →
  (∀ op : RegIx → RegIx → RegIx → Instr, op = Instr.and ∨ op = Instr.or →
    exec (op rd rs1 rs2) s = exec (op rd rs2 rs1) s ∧
    ((s.areg rs1).tagCode = (s.areg rs2).tagCode → (s.areg rs2).tagCode = (s.areg rs3).tagCode → rd ≠ rs3 → rd' ≠ rs1 →
      ∃ t u t' u', exec (op rd rs1 rs2) s = .next t ∧ exec (op rd rd rs3) t = .next u ∧
        exec (op rd' rs2 rs3) s = .next t' ∧ exec (op rd' rs1 rd') t' = .next u' ∧ u.areg rd = u'.areg rd' ∧
        u.errKind = none ∧ u'.errKind = none)) ∧
  (∃ t u, exec (.not rd rs1) s = .next t ∧ exec (.not rd' rd) t = .next u ∧ u.areg rd' = s.areg rs1) ∧
  ((s.areg rs1).tagCode = (s.areg rs2).tagCode → rd ≠ rs2 →
    ∃ t u, exec (.add rd rs1 rs2) s = .next t ∧ exec (.sub rd' rd rs2) t = .next u ∧ u.areg rd' = s.areg rs1)

/-! ### The whole machine -/

/-- The invariant `inv` holds after reset: TEXT has the canonical form of log entry 11, which is the model's choice, and
ERRCMD equals CMD if ERRKIND is not 0, which it is (R50). -/
def Obligations.ResetMeetsInvariant : Prop := inv State.reset

/-- Every step keeps the invariant `inv`. Its first clause, that TEXT stays in the canonical form of log entry 11, is the
model's choice. Its second clause is derived from R39, R40 and R344: while ERRKIND is not 0, ERRCMD equals CMD. -/
def Obligations.StepKeepsInvariant : Prop := ∀ s t : State, inv s → step s = .next t → inv t

/-- R72, R340: a run of accepted accesses and resets never stops, whatever its commands are and however they fail. Past
the last input, where R386 leaves open what follows, the steps are the waiting steps of log entry 3, the model's choice.
-/
def Obligations.SafeRunsNeverStop : Prop := ∀ (s : State) (n : Nat), safe s → ∃ t : State, core.run n s = .next t ∧ safe t

/-- R33, R45, R46, R47, R48, R86: a command's result and its errors depend only on the inputs it may read: in two states
that share the registers it names as sources and the staging of its own input form, it commits the same value or raises
the same error. -/
def Obligations.CommandsReadOnlyTheirInputs : Prop := ∀ (i : Instr) (s t : State), sameInputs i s t →
  (∃ v, exec i s = .next (commit (destination i) v s) ∧ exec i t = .next (commit (destination i) v t)) ∨
  ∃ k, exec i s = .next (abort k s) ∧ exec i t = .next (abort k t)

/-- R347: over any sequence of host accesses without a reset and without a write that clears STICKY, the inputs after it
left open, STICKY is set at the end exactly when it was set before or a command of the sequence failed, and ERRCMD is the
word of the last command that failed, or what it was when none did. `u n` is the state after the first n accesses. -/
def Obligations.StickyRecordsFailures : Prop := ∀ (u : Nat → State) (is rest : List Input),
  (u 0).inputs = is ++ rest → (∀ n < is.length, step (u n) = .next (u (n + 1))) → .reset ∉ is →
  (∀ v, .write 0x004 32 v ∈ is → v.getLsbD 8 = false) →
    let failed (n : Nat) (w : Word) : Prop := is[n]? = some (.write 0x000 32 w) ∧ (u (n + 1)).errKind ≠ none
    ((u is.length).sticky = true ↔ (u 0).sticky = true ∨ ∃ n w, failed n w) ∧
    (∀ n w, failed n w → (∀ m w', n < m → ¬failed m w') → (u is.length).errCmd = w) ∧
    ((∀ n w, ¬failed n w) → (u is.length).errCmd = (u 0).errCmd)

/-! ### Digits and numerals -/

/-- R13, R14: the digits, the separators and the special names are the bytes R13 gives, and DecVal and HexVal read a non-
empty string of digits as a numeral of any length, most significant digit first. -/
def Obligations.DigitsAndNumerals : Prop :=
  (∀ c : Byte, (isDec c = true ↔ 0x30#8 ≤ c ∧ c ≤ 0x39#8) ∧
    (isHex c = true ↔ (0x30#8 ≤ c ∧ c ≤ 0x39#8) ∨ (0x61#8 ≤ c ∧ c ≤ 0x66#8) ∨ (0x41#8 ≤ c ∧ c ≤ 0x46#8))) ∧
  dot = 0x2E ∧ colon = 0x3A ∧ slash = 0x2F ∧ backslash = 0x5C ∧ minus = 0x2D ∧
  specialNames = [ascii "localhost", ascii "lo", ascii "loopback", ascii "eth0"] ∧
  (∀ (t : List Byte) (d : Nat), d < 10 → decVal [BitVec.ofNat 8 (0x30 + d)] = d ∧
    decVal (t ++ [BitVec.ofNat 8 (0x30 + d)]) = decVal t * 10 + d) ∧
  (∀ (t : List Byte) (d : Nat), d < 10 → hexVal [BitVec.ofNat 8 (0x30 + d)] = d ∧
    hexVal (t ++ [BitVec.ofNat 8 (0x30 + d)]) = hexVal t * 16 + d) ∧
  ∀ (t : List Byte) (d : Nat), d < 6 →
    (hexVal [BitVec.ofNat 8 (0x61 + d)] = 10 + d ∧ hexVal (t ++ [BitVec.ofNat 8 (0x61 + d)]) = hexVal t * 16 + (10 + d)) ∧
    (hexVal [BitVec.ofNat 8 (0x41 + d)] = 10 + d ∧ hexVal (t ++ [BitVec.ofNat 8 (0x41 + d)]) = hexVal t * 16 + (10 + d))
end

