-- ==== Sys2Proof/Laws/State.lean ====
section
/-! SUPPORT. What each update of the state does to each field of the state. -/

namespace Sys2Proof.Machine

/-! ### `setAreg` -/

@[simp] theorem setAreg_regs (s : State) (r : RegIx) (v : AReg) : (s.setAreg r v).regs = s.regs.set r v := rfl
@[simp] theorem setAreg_cmd (s : State) (r : RegIx) (v : AReg) : (s.setAreg r v).cmd = s.cmd := rfl
@[simp] theorem setAreg_errKind (s : State) (r : RegIx) (v : AReg) : (s.setAreg r v).errKind = s.errKind := rfl
@[simp] theorem setAreg_sticky (s : State) (r : RegIx) (v : AReg) : (s.setAreg r v).sticky = s.sticky := rfl
@[simp] theorem setAreg_errCmd (s : State) (r : RegIx) (v : AReg) : (s.setAreg r v).errCmd = s.errCmd := rfl
@[simp] theorem setAreg_inLen (s : State) (r : RegIx) (v : AReg) : (s.setAreg r v).inLen = s.inLen := rfl
@[simp] theorem setAreg_inValLo (s : State) (r : RegIx) (v : AReg) : (s.setAreg r v).inValLo = s.inValLo := rfl
@[simp] theorem setAreg_inValHi (s : State) (r : RegIx) (v : AReg) : (s.setAreg r v).inValHi = s.inValHi := rfl
@[simp] theorem setAreg_listLen (s : State) (r : RegIx) (v : AReg) : (s.setAreg r v).listLen = s.listLen := rfl
@[simp] theorem setAreg_listNonNum (s : State) (r : RegIx) (v : AReg) : (s.setAreg r v).listNonNum = s.listNonNum := rfl
@[simp] theorem setAreg_listElem (s : State) (r : RegIx) (v : AReg) : (s.setAreg r v).listElem = s.listElem := rfl
@[simp] theorem setAreg_text (s : State) (r : RegIx) (v : AReg) : (s.setAreg r v).text = s.text := rfl
@[simp] theorem setAreg_resets (s : State) (r : RegIx) (v : AReg) : (s.setAreg r v).resets = s.resets := rfl
@[simp] theorem setAreg_inputs (s : State) (r : RegIx) (v : AReg) : (s.setAreg r v).inputs = s.inputs := rfl
@[simp] theorem setAreg_reads (s : State) (r : RegIx) (v : AReg) : (s.setAreg r v).reads = s.reads := rfl

/-! ### `setTextByte` -/

@[simp] theorem setTextByte_regs (s : State) (k : Nat) (b : Byte) : (s.setTextByte k b).regs = s.regs := rfl
@[simp] theorem setTextByte_cmd (s : State) (k : Nat) (b : Byte) : (s.setTextByte k b).cmd = s.cmd := rfl
@[simp] theorem setTextByte_errKind (s : State) (k : Nat) (b : Byte) : (s.setTextByte k b).errKind = s.errKind := rfl
@[simp] theorem setTextByte_sticky (s : State) (k : Nat) (b : Byte) : (s.setTextByte k b).sticky = s.sticky := rfl
@[simp] theorem setTextByte_errCmd (s : State) (k : Nat) (b : Byte) : (s.setTextByte k b).errCmd = s.errCmd := rfl
@[simp] theorem setTextByte_inLen (s : State) (k : Nat) (b : Byte) : (s.setTextByte k b).inLen = s.inLen := rfl
@[simp] theorem setTextByte_inValLo (s : State) (k : Nat) (b : Byte) : (s.setTextByte k b).inValLo = s.inValLo := rfl
@[simp] theorem setTextByte_inValHi (s : State) (k : Nat) (b : Byte) : (s.setTextByte k b).inValHi = s.inValHi := rfl
@[simp] theorem setTextByte_listLen (s : State) (k : Nat) (b : Byte) : (s.setTextByte k b).listLen = s.listLen := rfl
@[simp] theorem setTextByte_listNonNum (s : State) (k : Nat) (b : Byte) : (s.setTextByte k b).listNonNum = s.listNonNum := rfl
@[simp] theorem setTextByte_listElem (s : State) (k : Nat) (b : Byte) : (s.setTextByte k b).listElem = s.listElem := rfl
@[simp] theorem setTextByte_text (s : State) (k : Nat) (b : Byte) : (s.setTextByte k b).text = Memory.write s.text (Config.textBase + k) b := rfl
@[simp] theorem setTextByte_resets (s : State) (k : Nat) (b : Byte) : (s.setTextByte k b).resets = s.resets := rfl
@[simp] theorem setTextByte_inputs (s : State) (k : Nat) (b : Byte) : (s.setTextByte k b).inputs = s.inputs := rfl
@[simp] theorem setTextByte_reads (s : State) (k : Nat) (b : Byte) : (s.setTextByte k b).reads = s.reads := rfl

/-! ### `commit` -/

@[simp] theorem commit_regs (rd : RegIx) (v : AReg) (s : State) : (commit rd v s).regs = s.regs.set rd v := rfl
@[simp] theorem commit_cmd (rd : RegIx) (v : AReg) (s : State) : (commit rd v s).cmd = s.cmd := rfl
@[simp] theorem commit_errKind (rd : RegIx) (v : AReg) (s : State) : (commit rd v s).errKind = none := rfl
@[simp] theorem commit_sticky (rd : RegIx) (v : AReg) (s : State) : (commit rd v s).sticky = s.sticky := rfl
@[simp] theorem commit_errCmd (rd : RegIx) (v : AReg) (s : State) : (commit rd v s).errCmd = s.errCmd := rfl
@[simp] theorem commit_inLen (rd : RegIx) (v : AReg) (s : State) : (commit rd v s).inLen = s.inLen := rfl
@[simp] theorem commit_inValLo (rd : RegIx) (v : AReg) (s : State) : (commit rd v s).inValLo = s.inValLo := rfl
@[simp] theorem commit_inValHi (rd : RegIx) (v : AReg) (s : State) : (commit rd v s).inValHi = s.inValHi := rfl
@[simp] theorem commit_listLen (rd : RegIx) (v : AReg) (s : State) : (commit rd v s).listLen = s.listLen := rfl
@[simp] theorem commit_listNonNum (rd : RegIx) (v : AReg) (s : State) : (commit rd v s).listNonNum = s.listNonNum := rfl
@[simp] theorem commit_listElem (rd : RegIx) (v : AReg) (s : State) : (commit rd v s).listElem = s.listElem := rfl
@[simp] theorem commit_text (rd : RegIx) (v : AReg) (s : State) : (commit rd v s).text = s.text := rfl
@[simp] theorem commit_resets (rd : RegIx) (v : AReg) (s : State) : (commit rd v s).resets = s.resets := rfl
@[simp] theorem commit_inputs (rd : RegIx) (v : AReg) (s : State) : (commit rd v s).inputs = s.inputs := rfl
@[simp] theorem commit_reads (rd : RegIx) (v : AReg) (s : State) : (commit rd v s).reads = s.reads := rfl

/-! ### `abort` -/

@[simp] theorem abort_regs (k : ErrKind) (s : State) : (abort k s).regs = s.regs := rfl
@[simp] theorem abort_cmd (k : ErrKind) (s : State) : (abort k s).cmd = s.cmd := rfl
@[simp] theorem abort_errKind (k : ErrKind) (s : State) : (abort k s).errKind = some k := rfl
@[simp] theorem abort_sticky (k : ErrKind) (s : State) : (abort k s).sticky = true := rfl
@[simp] theorem abort_errCmd (k : ErrKind) (s : State) : (abort k s).errCmd = s.cmd := rfl
@[simp] theorem abort_inLen (k : ErrKind) (s : State) : (abort k s).inLen = s.inLen := rfl
@[simp] theorem abort_inValLo (k : ErrKind) (s : State) : (abort k s).inValLo = s.inValLo := rfl
@[simp] theorem abort_inValHi (k : ErrKind) (s : State) : (abort k s).inValHi = s.inValHi := rfl
@[simp] theorem abort_listLen (k : ErrKind) (s : State) : (abort k s).listLen = s.listLen := rfl
@[simp] theorem abort_listNonNum (k : ErrKind) (s : State) : (abort k s).listNonNum = s.listNonNum := rfl
@[simp] theorem abort_listElem (k : ErrKind) (s : State) : (abort k s).listElem = s.listElem := rfl
@[simp] theorem abort_text (k : ErrKind) (s : State) : (abort k s).text = s.text := rfl
@[simp] theorem abort_resets (k : ErrKind) (s : State) : (abort k s).resets = s.resets := rfl
@[simp] theorem abort_inputs (k : ErrKind) (s : State) : (abort k s).inputs = s.inputs := rfl
@[simp] theorem abort_reads (k : ErrKind) (s : State) : (abort k s).reads = s.reads := rfl

/-! ### `setTextWord` -/

@[simp] theorem setTextWord_regs (s : State) (q : Nat) (v : Word) : (s.setTextWord q v).regs = s.regs := rfl
@[simp] theorem setTextWord_cmd (s : State) (q : Nat) (v : Word) : (s.setTextWord q v).cmd = s.cmd := rfl
@[simp] theorem setTextWord_errKind (s : State) (q : Nat) (v : Word) : (s.setTextWord q v).errKind = s.errKind := rfl
@[simp] theorem setTextWord_sticky (s : State) (q : Nat) (v : Word) : (s.setTextWord q v).sticky = s.sticky := rfl
@[simp] theorem setTextWord_errCmd (s : State) (q : Nat) (v : Word) : (s.setTextWord q v).errCmd = s.errCmd := rfl
@[simp] theorem setTextWord_inLen (s : State) (q : Nat) (v : Word) : (s.setTextWord q v).inLen = s.inLen := rfl
@[simp] theorem setTextWord_inValLo (s : State) (q : Nat) (v : Word) : (s.setTextWord q v).inValLo = s.inValLo := rfl
@[simp] theorem setTextWord_inValHi (s : State) (q : Nat) (v : Word) : (s.setTextWord q v).inValHi = s.inValHi := rfl
@[simp] theorem setTextWord_listLen (s : State) (q : Nat) (v : Word) : (s.setTextWord q v).listLen = s.listLen := rfl
@[simp] theorem setTextWord_listNonNum (s : State) (q : Nat) (v : Word) : (s.setTextWord q v).listNonNum = s.listNonNum := rfl
@[simp] theorem setTextWord_listElem (s : State) (q : Nat) (v : Word) : (s.setTextWord q v).listElem = s.listElem := rfl
@[simp] theorem setTextWord_resets (s : State) (q : Nat) (v : Word) : (s.setTextWord q v).resets = s.resets := rfl
@[simp] theorem setTextWord_inputs (s : State) (q : Nat) (v : Word) : (s.setTextWord q v).inputs = s.inputs := rfl
@[simp] theorem setTextWord_reads (s : State) (q : Nat) (v : Word) : (s.setTextWord q v).reads = s.reads := rfl

/-! ### `platformReset` -/

@[simp] theorem platformReset_regs (s : State) : (platformReset s).regs = Vector.replicate 8 .empty := rfl
@[simp] theorem platformReset_cmd (s : State) : (platformReset s).cmd = 0 := rfl
@[simp] theorem platformReset_errKind (s : State) : (platformReset s).errKind = none := rfl
@[simp] theorem platformReset_sticky (s : State) : (platformReset s).sticky = false := rfl
@[simp] theorem platformReset_errCmd (s : State) : (platformReset s).errCmd = 0 := rfl
@[simp] theorem platformReset_inLen (s : State) : (platformReset s).inLen = 0 := rfl
@[simp] theorem platformReset_inValLo (s : State) : (platformReset s).inValLo = 0 := rfl
@[simp] theorem platformReset_inValHi (s : State) : (platformReset s).inValHi = 0 := rfl
@[simp] theorem platformReset_listLen (s : State) : (platformReset s).listLen = 0 := rfl
@[simp] theorem platformReset_listNonNum (s : State) : (platformReset s).listNonNum = 0 := rfl
@[simp] theorem platformReset_listElem (s : State) :
    (platformReset s).listElem = Vector.ofFn fun k => Config.listElemAtReset (s.resets + 1) k := rfl
@[simp] theorem platformReset_text (s : State) : (platformReset s).text = [] := rfl
@[simp] theorem platformReset_resets (s : State) : (platformReset s).resets = s.resets + 1 := rfl
@[simp] theorem platformReset_inputs (s : State) : (platformReset s).inputs = s.inputs := rfl
@[simp] theorem platformReset_reads (s : State) : (platformReset s).reads = s.reads := rfl

end Sys2Proof.Machine
end

