-- ==== Sys2Proof/Laws/Ops.lean ====
section
/-! SUPPORT. What the shared operations do: the memory, the address registers, and the two ends of a command. -/

namespace Sys2Proof.Machine

/-! ### Memory -/

theorem Memory.read_write_self (m : Memory) (a : Nat) (b : Byte) : (Memory.write m a b).read a = some b := by
  induction m with
  | nil => simp [Memory.write, Memory.read]
  | cons e m ih =>
    obtain ⟨k, c⟩ := e
    simp only [Memory.write]
    split
    · simp [Memory.read]
    · split
      · simp [Memory.read]
      · simp_all [Memory.read]

theorem Memory.read_write_ne (m : Memory) {a a' : Nat} (b : Byte) (h : a' ≠ a) :
    (Memory.write m a b).read a' = Memory.read m a' := by
  induction m with
  | nil => simp [Memory.write, Memory.read, h]
  | cons e m ih =>
    obtain ⟨k, c⟩ := e
    simp only [Memory.write]
    split
    · simp [Memory.read, h]
    · split
      · subst_vars; simp [Memory.read, h]
      · simp [Memory.read, ih]

theorem Memory.wfFrom_mono {m : Memory} {lo lo' : Nat} (h : lo' ≤ lo) (hm : Memory.wfFrom lo m = true) :
    Memory.wfFrom lo' m = true := by
  cases m with
  | nil => rfl
  | cons e m =>
    obtain ⟨k, c⟩ := e
    simp only [Memory.wfFrom, Bool.and_eq_true, decide_eq_true_eq] at hm ⊢
    exact ⟨⟨by omega, hm.1.2⟩, hm.2⟩

theorem Memory.wfFrom_write {m : Memory} {lo a : Nat} (b : Byte) (hm : Memory.wfFrom lo m = true) (hlo : lo ≤ a)
    (ha : a < Config.textBase + Config.textMax) : Memory.wfFrom lo (Memory.write m a b) = true := by
  induction m generalizing lo with
  | nil => simp [Memory.write, Memory.wfFrom, hlo, ha]
  | cons e m ih =>
    obtain ⟨k, c⟩ := e
    simp only [Memory.wfFrom, Bool.and_eq_true, decide_eq_true_eq] at hm
    simp only [Memory.write]
    split
    · simp only [Memory.wfFrom, Bool.and_eq_true, decide_eq_true_eq]
      exact ⟨⟨hlo, ha⟩, ⟨by omega, hm.1.2⟩, hm.2⟩
    · split
      · subst_vars
        simp only [Memory.wfFrom, Bool.and_eq_true, decide_eq_true_eq]
        exact ⟨⟨hlo, ha⟩, hm.2⟩
      · simp only [Memory.wfFrom, Bool.and_eq_true, decide_eq_true_eq]
        exact ⟨⟨hm.1.1, hm.1.2⟩, ih hm.2 (by omega)⟩

/-- A write inside TEXT keeps the canonical form. -/
theorem Memory.wf_write {m : Memory} {k : Nat} (b : Byte) (hm : m.wf = true) (hk : k < Config.textMax) :
    (Memory.write m (Config.textBase + k) b).wf = true :=
  Memory.wfFrom_write b hm (by omega) (by omega)

theorem Memory.wf_nil : Memory.wf [] = true := rfl

/-! ### TEXT -/

@[simp] theorem textByte_setTextByte_self (s : State) (k : Nat) (b : Byte) : (s.setTextByte k b).textByte k = b := by
  simp [State.textByte, Memory.read_write_self]

@[simp] theorem textByte_setTextByte_ne (s : State) {k k' : Nat} (b : Byte) (h : k' ≠ k) :
    (s.setTextByte k b).textByte k' = s.textByte k' := by
  have h' : Config.textBase + k' ≠ Config.textBase + k := by omega
  simp [State.textByte, Memory.read_write_ne _ _ h']

/-- The byte of a word at index `j`, as a write of the TEXT word stores it. -/
theorem textByte_setTextWord (s : State) (q : Nat) (v : Word) {j : Nat} (hj : j < 4) :
    (s.setTextWord q v).textByte (4 * q + j) = v.extractLsb' (8 * j) 8 := by
  have : j = 0 ∨ j = 1 ∨ j = 2 ∨ j = 3 := by omega
  rcases this with rfl | rfl | rfl | rfl <;> simp [State.setTextWord]

theorem textByte_setTextWord_ne (s : State) {q k : Nat} (v : Word) (h : k / 4 ≠ q) :
    (s.setTextWord q v).textByte k = s.textByte k := by
  have h0 : k ≠ 4 * q := by omega
  have h1 : k ≠ 4 * q + 1 := by omega
  have h2 : k ≠ 4 * q + 2 := by omega
  have h3 : k ≠ 4 * q + 3 := by omega
  simp [State.setTextWord, h0, h1, h2, h3]

/-- A write of a TEXT word keeps the canonical form. -/
theorem wf_setTextWord {s : State} {q : Nat} (v : Word) (hs : s.text.wf = true) (hq : q < 64) :
    (s.setTextWord q v).text.wf = true := by
  simp only [State.setTextWord, setTextByte_text]
  refine Memory.wf_write _ (Memory.wf_write _ (Memory.wf_write _ (Memory.wf_write _ hs ?_) ?_) ?_) ?_ <;>
    (simp only [Config.textMax]; omega)

/-! ### Address registers -/

@[simp] theorem areg_setAreg_self (s : State) (r : RegIx) (v : AReg) : (s.setAreg r v).areg r = v := by
  simp [State.areg]

@[simp] theorem areg_setAreg_ne (s : State) {r r' : RegIx} (v : AReg) (h : r' ≠ r) :
    (s.setAreg r v).areg r' = s.areg r' := by
  have h' : r.val ≠ r'.val := fun e => h (Fin.ext e.symm)
  simp [State.areg, h']

@[simp] theorem areg_commit_self (rd : RegIx) (v : AReg) (s : State) : (commit rd v s).areg rd = v := by
  simp [State.areg]

@[simp] theorem areg_commit_ne {rd r : RegIx} (v : AReg) (s : State) (h : r ≠ rd) :
    (commit rd v s).areg r = s.areg r := by
  have h' : rd.val ≠ r.val := fun e => h (Fin.ext e.symm)
  simp [State.areg, h']

@[simp] theorem areg_abort (k : ErrKind) (s : State) (r : RegIx) : (abort k s).areg r = s.areg r := rfl

/-! ### The end of a command -/

@[simp] theorem complete_ok (rd : RegIx) (v : AReg) (s : State) : complete rd (.ok v) s = commit rd v s := rfl

@[simp] theorem complete_error (rd : RegIx) (k : ErrKind) (s : State) : complete rd (.error k) s = abort k s := rfl

/-- Everything the end of a command can do: it commits the result, or it aborts with the error. -/
theorem complete_cases (rd : RegIx) (r : Except ErrKind AReg) (s : State) :
    (∃ v, r = .ok v ∧ complete rd r s = commit rd v s) ∨ ∃ k, r = .error k ∧ complete rd r s = abort k s := by
  cases r with
  | ok v => exact .inl ⟨v, rfl, rfl⟩
  | error k => exact .inr ⟨k, rfl, rfl⟩

/-! ### `Except`, as the commands use it -/

@[simp] theorem except_ok_bind {α β : Type} (a : α) (f : α → Except ErrKind β) : (Except.ok a >>= f) = f a := rfl

@[simp] theorem except_error_bind {α β : Type} (k : ErrKind) (f : α → Except ErrKind β) :
    ((Except.error k : Except ErrKind α) >>= f) = .error k := rfl

@[simp] theorem except_pure {α : Type} (a : α) : (pure a : Except ErrKind α) = .ok a := rfl

/-- What a bind answers with a value: both parts did. -/
theorem except_bind_ok {α β : Type} {x : Except ErrKind α} {f : α → Except ErrKind β} {b : β}
    (h : (x >>= f) = .ok b) : ∃ a, x = .ok a ∧ f a = .ok b := by
  cases x with
  | ok a => exact ⟨a, rfl, h⟩
  | error k => cases h

/-- What a bind answers with an error: one of its parts did. -/
theorem except_bind_error {α β : Type} {x : Except ErrKind α} {f : α → Except ErrKind β} {k : ErrKind}
    (h : (x >>= f) = .error k) : x = .error k ∨ ∃ a, x = .ok a ∧ f a = .error k := by
  cases x with
  | ok a => exact .inr ⟨a, rfl, h⟩
  | error k' => cases h; exact .inl rfl

end Sys2Proof.Machine
end

