-- ==== Sys2Proof/Laws/Decode.lean ====
section
/-! SUPPORT. The fields of a packed command word, and the unused-bit test as bounds on the word. -/

namespace Sys2Proof

theorem packFields_toNat {opc nbits : Nat} (rd rs1 rs2 : RegIx) (ho : opc < 256) (hn : nbits < 256) :
    (packFields opc rd rs1 rs2 nbits).toNat =
      opc + rd.val * 2 ^ 8 + rs1.val * 2 ^ 11 + rs2.val * 2 ^ 14 + nbits * 2 ^ 17 := by
  have := rd.isLt
  have := rs1.isLt
  have := rs2.isLt
  simp only [packFields, BitVec.toNat_ofNat]
  exact Nat.mod_eq_of_lt (by omega)

@[simp] theorem opcField_packFields {opc nbits : Nat} (rd rs1 rs2 : RegIx) (ho : opc < 256) (hn : nbits < 256) :
    opcField (packFields opc rd rs1 rs2 nbits) = opc := by
  simp only [opcField, field, packFields_toNat rd rs1 rs2 ho hn]
  omega

@[simp] theorem rdField_packFields {opc nbits : Nat} (rd rs1 rs2 : RegIx) (ho : opc < 256) (hn : nbits < 256) :
    rdField (packFields opc rd rs1 rs2 nbits) = rd := by
  have := rd.isLt
  apply Fin.ext
  simp only [rdField, field, packFields_toNat rd rs1 rs2 ho hn, Fin.val_ofNat]
  omega

@[simp] theorem rs1Field_packFields {opc nbits : Nat} (rd rs1 rs2 : RegIx) (ho : opc < 256) (hn : nbits < 256) :
    rs1Field (packFields opc rd rs1 rs2 nbits) = rs1 := by
  have := rd.isLt
  have := rs1.isLt
  apply Fin.ext
  simp only [rs1Field, field, packFields_toNat rd rs1 rs2 ho hn, Fin.val_ofNat]
  omega

@[simp] theorem rs2Field_packFields {opc nbits : Nat} (rd rs1 rs2 : RegIx) (ho : opc < 256) (hn : nbits < 256) :
    rs2Field (packFields opc rd rs1 rs2 nbits) = rs2 := by
  have := rd.isLt
  have := rs1.isLt
  have := rs2.isLt
  apply Fin.ext
  simp only [rs2Field, field, packFields_toNat rd rs1 rs2 ho hn, Fin.val_ofNat]
  omega

@[simp] theorem nbitsField_packFields {opc nbits : Nat} (rd rs1 rs2 : RegIx) (ho : opc < 256) (hn : nbits < 256) :
    nbitsField (packFields opc rd rs1 rs2 nbits) = nbits := by
  have := rd.isLt
  have := rs1.isLt
  have := rs2.isLt
  simp only [nbitsField, field, packFields_toNat rd rs1 rs2 ho hn]
  omega

/-- A word is its fields: the five fields and the seven reserved bits make up all 32. -/
theorem word_toNat_eq_fields (w : Word) :
    w.toNat = opcField w + field w 8 3 * 2 ^ 8 + field w 11 3 * 2 ^ 11 + field w 14 3 * 2 ^ 14 + field w 17 8 * 2 ^ 17 +
      field w 25 7 * 2 ^ 25 := by
  have := w.isLt
  simp only [opcField, field]
  omega

@[simp] theorem rdField_val (w : Word) : (rdField w).val = field w 8 3 := by
  simp only [rdField, field, Fin.val_ofNat]
  omega

@[simp] theorem rs1Field_val (w : Word) : (rs1Field w).val = field w 11 3 := by
  simp only [rs1Field, field, Fin.val_ofNat]
  omega

@[simp] theorem rs2Field_val (w : Word) : (rs2Field w).val = field w 14 3 := by
  simp only [rs2Field, field, Fin.val_ofNat]
  omega

theorem nbitsField_lt (w : Word) : nbitsField w < 256 := by
  simp only [nbitsField, field]
  omega

/-- The bits outside a mask are 0 exactly when the AND with its complement is. -/
theorem and_not_eq_zero (w m : Word) :
    w &&& ~~~m = 0#32 ↔ ∀ i < 32, m.getLsbD i = false → w.getLsbD i = false := by
  constructor
  · intro h i hi hm
    have hb := congrArg (fun v => v.getLsbD i) h
    rw [BitVec.getLsbD_and, BitVec.getLsbD_not, hm, BitVec.getLsbD_zero] at hb
    simpa [hi] using hb
  · intro h
    apply BitVec.eq_of_getLsbD_eq
    intro i hi
    rw [BitVec.getLsbD_and, BitVec.getLsbD_not, BitVec.getLsbD_zero]
    cases hm : m.getLsbD i with
    | true => simp
    | false => simp [h i hi hm]

/-- A word has no bit from `n` up exactly when it is below 2^n. -/
theorem lt_two_pow_iff_bits (w : Word) (n : Nat) :
    w.toNat < 2 ^ n ↔ ∀ i < 32, n ≤ i → w.getLsbD i = false := by
  constructor
  · intro h i _ hn
    rw [← BitVec.testBit_toNat]
    exact Nat.testBit_lt_two_pow (Nat.lt_of_lt_of_le h (Nat.pow_le_pow_right (by omega) hn))
  · intro h
    refine Nat.lt_pow_two_of_testBit _ fun i hi => ?_
    rw [BitVec.testBit_toNat]
    by_cases h32 : i < 32
    · exact h i h32 hi
    · exact BitVec.getLsbD_of_ge w i (by omega)

/-- A field is 0 exactly when its bits are. -/
theorem field_eq_zero_iff_bits (w : Word) (lo len : Nat) :
    field w lo len = 0 ↔ ∀ i, lo ≤ i → i < lo + len → w.getLsbD i = false := by
  constructor
  · intro h i h1 h2
    have hb := congrArg (fun v => v.testBit (i - lo)) h
    have hl : i - lo < len := by omega
    have e : i - lo + lo = i := by omega
    simpa [field, Nat.testBit_mod_two_pow, Nat.testBit_div_two_pow, hl, e, BitVec.testBit_toNat] using hb
  · intro h
    apply Nat.eq_of_testBit_eq
    intro i
    simp only [field, Nat.testBit_mod_two_pow, Nat.testBit_div_two_pow, Nat.zero_testBit, BitVec.testBit_toNat]
    by_cases hl : i < len
    · simp [h (i + lo) (by omega) (by omega)]
    · simp [hl]

theorem usedD_bits : ∀ i < 32, usedD.getLsbD i = false ↔ 11 ≤ i := by decide

theorem usedU_bits : ∀ i < 32, usedU.getLsbD i = false ↔ 14 ≤ i := by decide

theorem usedR_bits : ∀ i < 32, usedR.getLsbD i = false ↔ 17 ≤ i := by decide

theorem usedM_bits : ∀ i < 32, usedM.getLsbD i = false ↔ (11 ≤ i ∧ i < 17) ∨ 25 ≤ i := by decide

/-- Format D leaves bits [31:11] unused (R102). -/
theorem unusedD (w : Word) : w &&& ~~~usedD = 0#32 ↔ w.toNat < 2 ^ 11 := by
  rw [and_not_eq_zero, lt_two_pow_iff_bits]
  exact forall₂_congr fun i hi => by rw [usedD_bits i hi]

/-- Format U leaves bits [31:14] unused (R103). -/
theorem unusedU (w : Word) : w &&& ~~~usedU = 0#32 ↔ w.toNat < 2 ^ 14 := by
  rw [and_not_eq_zero, lt_two_pow_iff_bits]
  exact forall₂_congr fun i hi => by rw [usedU_bits i hi]

/-- Format R leaves bits [31:17] unused (R104). -/
theorem unusedR (w : Word) : w &&& ~~~usedR = 0#32 ↔ w.toNat < 2 ^ 17 := by
  rw [and_not_eq_zero, lt_two_pow_iff_bits]
  exact forall₂_congr fun i hi => by rw [usedR_bits i hi]

/-- Format M leaves bits [16:11] and [31:25] unused (R105). -/
theorem unusedM (w : Word) : w &&& ~~~usedM = 0#32 ↔ field w 11 6 = 0 ∧ field w 25 7 = 0 := by
  rw [and_not_eq_zero, field_eq_zero_iff_bits, field_eq_zero_iff_bits]
  constructor
  · intro h
    exact ⟨fun i h1 h2 => h i (by omega) ((usedM_bits i (by omega)).mpr (by omega)),
      fun i h1 h2 => h i (by omega) ((usedM_bits i (by omega)).mpr (by omega))⟩
  · rintro ⟨h11, h25⟩ i hi hm
    rcases (usedM_bits i hi).mp hm with h | h
    · exact h11 i h.1 (by omega)
    · exact h25 i h (by omega)

/-- A word whose opcode has a row and whose unused bits are 0 decodes to that row's command. -/
theorem decode_of_row {w used : Word} {i : Instr}
    (hrow : opcodeRow (opcField w) (rdField w) (rs1Field w) (rs2Field w) (nbitsField w) = some (used, i))
    (hu : w &&& ~~~used = 0#32) : decode w = .ok i := by
  unfold decode
  rw [hrow]
  exact if_pos hu

theorem decode_packFields {opc nbits : Nat} {rd rs1 rs2 : RegIx} {used : Word} {i : Instr} (ho : opc < 256)
    (hn : nbits < 256) (hrow : opcodeRow opc rd rs1 rs2 nbits = some (used, i))
    (hu : packFields opc rd rs1 rs2 nbits &&& ~~~used = 0#32) :
    decode (packFields opc rd rs1 rs2 nbits) = .ok i :=
  decode_of_row (by
    rw [opcField_packFields rd rs1 rs2 ho hn, rdField_packFields rd rs1 rs2 ho hn, rs1Field_packFields rd rs1 rs2 ho hn,
      rs2Field_packFields rd rs1 rs2 ho hn, nbitsField_packFields rd rs1 rs2 ho hn, hrow]) hu

/-- A packed word without source registers and NBITS leaves the unused bits of format D 0. -/
theorem packFields_unusedD {opc : Nat} (rd : RegIx) (ho : opc < 256) : packFields opc rd 0 0 0 &&& ~~~usedD = 0#32 := by
  have := rd.isLt
  rw [unusedD, packFields_toNat rd 0 0 ho (by omega)]
  simp only [Fin.val_zero]
  omega

/-- A packed word without RS2 and NBITS leaves the unused bits of format U 0. -/
theorem packFields_unusedU {opc : Nat} (rd rs1 : RegIx) (ho : opc < 256) :
    packFields opc rd rs1 0 0 &&& ~~~usedU = 0#32 := by
  have := rd.isLt
  have := rs1.isLt
  rw [unusedU, packFields_toNat rd rs1 0 ho (by omega)]
  simp only [Fin.val_zero]
  omega

/-- A packed word without NBITS leaves the unused bits of format R 0. -/
theorem packFields_unusedR {opc : Nat} (rd rs1 rs2 : RegIx) (ho : opc < 256) :
    packFields opc rd rs1 rs2 0 &&& ~~~usedR = 0#32 := by
  have := rd.isLt
  have := rs1.isLt
  have := rs2.isLt
  rw [unusedR, packFields_toNat rd rs1 rs2 ho (by omega)]
  omega

/-- A packed word without source registers leaves the unused bits of format M 0. -/
theorem packFields_unusedM {opc nbits : Nat} (rd : RegIx) (ho : opc < 256) (hn : nbits < 256) :
    packFields opc rd 0 0 nbits &&& ~~~usedM = 0#32 := by
  have := rd.isLt
  rw [unusedM]
  simp only [field, packFields_toNat rd 0 0 ho hn, Fin.val_zero]
  omega

theorem decode_formatD {opc : Nat} {rd : RegIx} {i : Instr} (ho : opc < 256)
    (h : opcodeRow opc rd 0 0 0 = some (usedD, i)) : decode (packFields opc rd 0 0 0) = .ok i :=
  decode_packFields ho (by decide) h (packFields_unusedD rd ho)

theorem decode_formatU {opc : Nat} {rd rs1 : RegIx} {i : Instr} (ho : opc < 256)
    (h : opcodeRow opc rd rs1 0 0 = some (usedU, i)) : decode (packFields opc rd rs1 0 0) = .ok i :=
  decode_packFields ho (by decide) h (packFields_unusedU rd rs1 ho)

theorem decode_formatR {opc : Nat} {rd rs1 rs2 : RegIx} {i : Instr} (ho : opc < 256)
    (h : opcodeRow opc rd rs1 rs2 0 = some (usedR, i)) : decode (packFields opc rd rs1 rs2 0) = .ok i :=
  decode_packFields ho (by decide) h (packFields_unusedR rd rs1 rs2 ho)

theorem decode_formatM {opc nbits : Nat} {rd : RegIx} {i : Instr} (ho : opc < 256) (hn : nbits < 256)
    (h : opcodeRow opc rd 0 0 nbits = some (usedM, i)) : decode (packFields opc rd 0 0 nbits) = .ok i :=
  decode_packFields ho hn h (packFields_unusedM rd ho hn)

/-- What a word that decodes is: an opcode with a row, its unused bits 0, and the row's command over the word's fields. -/
theorem decode_ok {w : Word} {i : Instr} (h : decode w = .ok i) :
    ∃ used, opcodeRow (opcField w) (rdField w) (rs1Field w) (rs2Field w) (nbitsField w) = some (used, i) ∧
      w &&& ~~~used = 0#32 := by
  unfold decode at h
  split at h
  · rename_i used j hrow
    split at h
    · cases h
      exact ⟨used, hrow, ‹_›⟩
    · cases h
  · split at h <;> cases h

end Sys2Proof
end

