-- ==== Sys2Proof/Laws/Limbs.lean ====
section
/-! SUPPORT. Group sequences as numbers: the value of a sequence, its inverse, and what the limb operations do to it. -/

namespace Sys2Proof.Machine

/-- Appending bits is a shift and an addition. -/
theorem toNat_append_eq {n m : Nat} (x : BitVec n) (y : BitVec m) : (x ++ y).toNat = x.toNat * 2 ^ m + y.toNat := by
  rw [BitVec.toNat_append, ← Nat.shiftLeft_add_eq_or_of_lt y.isLt, Nat.shiftLeft_eq]

/-! ### The value of a list of limbs -/

@[simp] theorem limbsVal_nil {w : Nat} : limbsVal ([] : List (BitVec w)) = 0 := rfl

theorem foldl_limbs {w : Nat} (g : List (BitVec w)) (v : Nat) :
    g.foldl (fun v x => v * 2 ^ w + x.toNat) v = v * 2 ^ (w * g.length) + limbsVal g := by
  induction g generalizing v with
  | nil => simp
  | cons x g ih =>
    simp only [limbsVal, List.foldl_cons, List.length_cons]
    rw [ih, ih (0 * 2 ^ w + x.toNat), Nat.mul_add, Nat.pow_add]
    ring

theorem limbsVal_cons {w : Nat} (x : BitVec w) (g : List (BitVec w)) :
    limbsVal (x :: g) = x.toNat * 2 ^ (w * g.length) + limbsVal g := by
  have := foldl_limbs g (0 * 2 ^ w + x.toNat)
  simpa [limbsVal] using this

theorem limbsVal_lt {w : Nat} (g : List (BitVec w)) : limbsVal g < 2 ^ (w * g.length) := by
  induction g with
  | nil => simp
  | cons x g ih =>
    rw [limbsVal_cons, List.length_cons, Nat.mul_add, Nat.mul_one, Nat.pow_add, Nat.mul_comm (2 ^ (w * g.length))]
    have hx := x.isLt
    calc x.toNat * 2 ^ (w * g.length) + limbsVal g
        < x.toNat * 2 ^ (w * g.length) + 2 ^ (w * g.length) := by omega
      _ = (x.toNat + 1) * 2 ^ (w * g.length) := by ring
      _ ≤ 2 ^ w * 2 ^ (w * g.length) := Nat.mul_le_mul_right _ hx

/-- Lists of limbs of one length are their values. -/
theorem limbsVal_inj {w : Nat} {g h : List (BitVec w)} (hl : g.length = h.length) (hv : limbsVal g = limbsVal h) :
    g = h := by
  induction g generalizing h with
  | nil => exact (List.length_eq_zero_iff.mp hl.symm).symm
  | cons x g ih =>
    cases h with
    | nil => simp at hl
    | cons y h =>
      have hl' : g.length = h.length := by simpa using hl
      rw [limbsVal_cons, limbsVal_cons, hl'] at hv
      have hg : limbsVal g < 2 ^ (w * h.length) := hl' ▸ limbsVal_lt g
      have hh := limbsVal_lt h
      have hp : 0 < 2 ^ (w * h.length) := by positivity
      have hxy : x.toNat = y.toNat := by
        have := congrArg (· / 2 ^ (w * h.length)) hv
        simpa [Nat.mul_comm _ (2 ^ (w * h.length)), Nat.mul_add_div hp, Nat.div_eq_of_lt hg, Nat.div_eq_of_lt hh]
          using this
      rw [hxy] at hv
      rw [BitVec.eq_of_toNat_eq hxy, ih hl' (by omega)]

/-! ### The value of a group sequence -/

theorem val_lt {w n : Nat} (g : Limbs w n) : val g < 2 ^ (w * n) := by
  simpa [val] using limbsVal_lt g.toList

theorem val_inj {w n : Nat} {g h : Limbs w n} (hv : val g = val h) : g = h :=
  Vector.toList_inj.mp (limbsVal_inj (by simp) hv)

theorem limbsVal_ofFn (w n x : Nat) :
    limbsVal (List.ofFn fun k : Fin n => BitVec.ofNat w (x / 2 ^ (w * (n - 1 - k.val)))) = x % 2 ^ (w * n) := by
  induction n with
  | zero => simp [Nat.mod_one]
  | succ n ih =>
    rw [List.ofFn_succ, limbsVal_cons]
    have e : (fun k : Fin n => BitVec.ofNat w (x / 2 ^ (w * (n + 1 - 1 - (k.succ).val)))) =
        fun k : Fin n => BitVec.ofNat w (x / 2 ^ (w * (n - 1 - k.val))) := by
      funext k
      have hk : n + 1 - 1 - (k.succ).val = n - 1 - k.val := by simp only [Fin.val_succ]; omega
      rw [hk]
    rw [e, ih]
    simp only [List.length_ofFn, Fin.val_zero, Nat.sub_zero, Nat.add_sub_cancel, BitVec.toNat_ofNat]
    rw [Nat.mul_add, Nat.mul_one, Nat.pow_add, Nat.mod_mul]
    ring

theorem toList_vectorOfFn {α : Type} {n : Nat} (f : Fin n → α) : (Vector.ofFn f).toList = List.ofFn f :=
  List.ext_getElem (by simp) fun i h1 h2 => by simp

@[simp] theorem val_limbsOf (w n x : Nat) : val (limbsOf w n x) = x % 2 ^ (w * n) := by
  rw [← limbsVal_ofFn, val, limbsOf, toList_vectorOfFn]

theorem limbsOf_val {w n : Nat} (g : Limbs w n) : limbsOf w n (val g) = g :=
  val_inj (by rw [val_limbsOf, Nat.mod_eq_of_lt (val_lt g)])

/-- A group sequence is the one a number below 2^(n*w) gives exactly when the number is its value. -/
theorem eq_limbsOf_of_val {w n x : Nat} {g : Limbs w n} (h : val g = x) : limbsOf w n x = g := h ▸ limbsOf_val g

theorem limbsOfList_toList {w n : Nat} {g : List (BitVec w)} (h : g.length = n) : (limbsOfList n g).toList = g := by
  subst h
  apply List.ext_getElem
  · simp
  · intro i h1 h2
    simp [limbsOfList]

@[simp] theorem limbsOfList_vector {w n : Nat} (g : Limbs w n) : limbsOfList n g.toList = g :=
  Vector.toList_inj.mp (limbsOfList_toList (by simp))

theorem val_limbsOfList {w n : Nat} {g : List (BitVec w)} (h : g.length = n) : val (limbsOfList n g) = limbsVal g := by
  rw [val, limbsOfList_toList h]

/-! ### The limb operations -/

@[simp] theorem andLimbs_getElem {w n : Nat} (a b : Limbs w n) (k : Nat) (h : k < n) :
    (andLimbs w n a b)[k] = a[k] &&& b[k] := by simp [andLimbs]

@[simp] theorem orLimbs_getElem {w n : Nat} (a b : Limbs w n) (k : Nat) (h : k < n) :
    (orLimbs w n a b)[k] = a[k] ||| b[k] := by simp [orLimbs]

@[simp] theorem notLimbs_getElem {w n : Nat} (a : Limbs w n) (k : Nat) (h : k < n) :
    (notLimbs w n a)[k] = ~~~a[k] := by simp [notLimbs]

theorem addLists_length {w : Nat} (a b : List (BitVec w)) (c : Nat) (h : a.length = b.length) :
    (addLists a b c).1.length = a.length := by
  induction a generalizing b with
  | nil => cases b <;> simp [addLists]
  | cons x a ih =>
    cases b with
    | nil => simp at h
    | cons y b => simp [addLists, ih b (by simpa using h)]

/-- What the limb loop computes: the sum of the values and the carry in, its low limbs as the result and the rest as the
carry out. -/
theorem addLists_val {w : Nat} (a b : List (BitVec w)) (c : Nat) (h : a.length = b.length) :
    limbsVal (addLists a b c).1 + (addLists a b c).2 * 2 ^ (w * a.length) = limbsVal a + limbsVal b + c := by
  induction a generalizing b with
  | nil =>
    cases b with
    | nil => simp [addLists]
    | cons y b => simp at h
  | cons x a ih =>
    cases b with
    | nil => simp at h
    | cons y b =>
      have hl : a.length = b.length := by simpa using h
      have hi := ih b hl
      have hlen := addLists_length a b c hl
      simp only [addLists, limbsVal_cons, hlen, BitVec.toNat_ofNat, List.length_cons, Nat.mul_add, Nat.mul_one,
        Nat.pow_add, ← hl]
      have hdm := Nat.div_add_mod (x.toNat + y.toNat + (addLists a b c).2) (2 ^ w)
      generalize (addLists a b c).2 = d at *
      generalize limbsVal (addLists a b c).1 = r at *
      generalize 2 ^ (w * a.length) = p at *
      calc (x.toNat + y.toNat + d) % 2 ^ w * p + r + (x.toNat + y.toNat + d) / 2 ^ w * (p * 2 ^ w)
          = (2 ^ w * ((x.toNat + y.toNat + d) / 2 ^ w) + (x.toNat + y.toNat + d) % 2 ^ w) * p + r := by ring
        _ = (x.toNat + y.toNat + d) * p + r := by rw [hdm]
        _ = (x.toNat + y.toNat) * p + (r + d * p) := by ring
        _ = (x.toNat + y.toNat) * p + (limbsVal a + limbsVal b + c) := by rw [hi]
        _ = x.toNat * p + limbsVal a + (y.toNat * p + limbsVal b) + c := by ring

theorem addLists_val_mod {w : Nat} (a b : List (BitVec w)) (c : Nat) (h : a.length = b.length) :
    limbsVal (addLists a b c).1 = (limbsVal a + limbsVal b + c) % 2 ^ (w * a.length) := by
  rw [← addLists_val a b c h, Nat.add_mul_mod_self_right, Nat.mod_eq_of_lt]
  simpa [addLists_length a b c h] using limbsVal_lt (addLists a b c).1

/-- The complement's value: all ones less the value. -/
theorem limbsVal_not {w : Nat} (g : List (BitVec w)) :
    limbsVal (g.map fun x => ~~~x) + limbsVal g + 1 = 2 ^ (w * g.length) := by
  induction g with
  | nil => simp
  | cons x g ih =>
    rw [List.map_cons, limbsVal_cons, limbsVal_cons, List.length_map, List.length_cons, Nat.mul_add, Nat.mul_one,
      Nat.pow_add, BitVec.toNat_not]
    have hx := x.isLt
    have : 2 ^ w - 1 - x.toNat + x.toNat + 1 = 2 ^ w := by omega
    calc (2 ^ w - 1 - x.toNat) * 2 ^ (w * g.length) + limbsVal (g.map fun x => ~~~x) +
          (x.toNat * 2 ^ (w * g.length) + limbsVal g) + 1
        = (2 ^ w - 1 - x.toNat + x.toNat) * 2 ^ (w * g.length) +
          (limbsVal (g.map fun x => ~~~x) + limbsVal g + 1) := by ring
      _ = (2 ^ w - 1 - x.toNat + x.toNat + 1) * 2 ^ (w * g.length) := by rw [ih]; ring
      _ = 2 ^ (w * g.length) * 2 ^ w := by rw [this]; ring

theorem notLimbs_toList {w n : Nat} (a : Limbs w n) : (notLimbs w n a).toList = a.toList.map fun x => ~~~x := by
  apply List.ext_getElem
  · simp
  · intro i h1 h2
    simp

theorem val_notLimbs {w n : Nat} (a : Limbs w n) : val (notLimbs w n a) + val a + 1 = 2 ^ (w * n) := by
  have := limbsVal_not a.toList
  rw [Vector.length_toList] at this
  rw [val, notLimbs_toList]
  exact this

theorem val_addLimbs {w n : Nat} (a b : Limbs w n) : val (addLimbs w n a b) = (val a + val b) % 2 ^ (w * n) := by
  have hl : a.toList.length = b.toList.length := by simp
  rw [addLimbs, val_limbsOfList (by rw [addLists_length _ _ _ hl]; simp), addLists_val_mod _ _ _ hl]
  simp [val]

theorem val_subLimbs {w n : Nat} (a b : Limbs w n) :
    val (subLimbs w n a b) = (val a + (2 ^ (w * n) - val b)) % 2 ^ (w * n) := by
  have hl : a.toList.length = (notLimbs w n b).toList.length := by simp
  rw [subLimbs, val_limbsOfList (by rw [addLists_length _ _ _ hl]; simp), addLists_val_mod _ _ _ hl]
  have hn := val_notLimbs b
  have hb := val_lt b
  rw [Vector.length_toList]
  change (val a + val (notLimbs w n b) + 1) % _ = _
  congr 1
  omega

/-- Subtraction as the difference of the values, modulo the address width (R307). -/
theorem val_subLimbs_int {w n : Nat} (a b : Limbs w n) :
    (val (subLimbs w n a b) : Int) = ((val a : Int) - val b) % 2 ^ (w * n) := by
  rw [val_subLimbs]
  have hb := val_lt b
  push_cast [Nat.cast_sub hb.le]
  rw [show (val a : Int) + (2 ^ (w * n) - val b) = (val a - val b) + 2 ^ (w * n) by ring, Int.add_emod_right]

/-- Subtraction undoes addition, also across the wrap (R308). -/
theorem subLimbs_addLimbs {w n : Nat} (a b : Limbs w n) : subLimbs w n (addLimbs w n a b) b = a := by
  apply val_inj
  rw [val_subLimbs, val_addLimbs]
  have ha := val_lt a
  have hb := val_lt b
  rw [Nat.mod_add_mod]
  have e : val a + val b + (2 ^ (w * n) - val b) = val a + 2 ^ (w * n) := by omega
  rw [e, Nat.add_mod_right, Nat.mod_eq_of_lt ha]

theorem andLimbs_comm {w n : Nat} (a b : Limbs w n) : andLimbs w n a b = andLimbs w n b a := by
  apply Vector.ext
  intro k hk
  simp [BitVec.and_comm]

theorem orLimbs_comm {w n : Nat} (a b : Limbs w n) : orLimbs w n a b = orLimbs w n b a := by
  apply Vector.ext
  intro k hk
  simp [BitVec.or_comm]

theorem andLimbs_assoc {w n : Nat} (a b c : Limbs w n) :
    andLimbs w n (andLimbs w n a b) c = andLimbs w n a (andLimbs w n b c) := by
  apply Vector.ext
  intro k hk
  simp [BitVec.and_assoc]

theorem orLimbs_assoc {w n : Nat} (a b c : Limbs w n) :
    orLimbs w n (orLimbs w n a b) c = orLimbs w n a (orLimbs w n b c) := by
  apply Vector.ext
  intro k hk
  simp [BitVec.or_assoc]

theorem notLimbs_notLimbs {w n : Nat} (a : Limbs w n) : notLimbs w n (notLimbs w n a) = a := by
  apply Vector.ext
  intro k hk
  simp

/-! ### V4 and V6 group sequences, limb by limb -/

theorem v4_ext {g h : V4Limbs} (h0 : g[0] = h[0]) (h1 : g[1] = h[1]) (h2 : g[2] = h[2]) (h3 : g[3] = h[3]) : g = h := by
  apply Vector.ext
  intro k hk
  interval_cases k <;> assumption

theorem v4_eq_literal (g : V4Limbs) : g = #v[g[0], g[1], g[2], g[3]] := v4_ext rfl rfl rfl rfl

theorem v6_eq_literal (g : V6Limbs) : g = #v[g[0], g[1], g[2], g[3], g[4], g[5], g[6], g[7]] := by
  apply Vector.ext
  intro k hk
  interval_cases k <;> rfl

theorem v4_toList (g : V4Limbs) : g.toList = [g[0], g[1], g[2], g[3]] := congrArg Vector.toList (v4_eq_literal g)

theorem v6_toList (g : V6Limbs) : g.toList = [g[0], g[1], g[2], g[3], g[4], g[5], g[6], g[7]] :=
  congrArg Vector.toList (v6_eq_literal g)

theorem val_v4 (g : V4Limbs) :
    val g = g[0].toNat * 2 ^ 24 + g[1].toNat * 2 ^ 16 + g[2].toNat * 2 ^ 8 + g[3].toNat := by
  rw [val, v4_toList]
  simp [limbsVal_cons]
  ring

theorem val_v6 (g : V6Limbs) :
    val g = g[0].toNat * 2 ^ 112 + g[1].toNat * 2 ^ 96 + g[2].toNat * 2 ^ 80 + g[3].toNat * 2 ^ 64 +
      g[4].toNat * 2 ^ 48 + g[5].toNat * 2 ^ 32 + g[6].toNat * 2 ^ 16 + g[7].toNat := by
  rw [val, v6_toList]
  simp [limbsVal_cons]
  ring

theorem limbsOf_v4 (x : Nat) :
    limbsOf 8 4 x = #v[BitVec.ofNat 8 (x / 2 ^ 24), BitVec.ofNat 8 (x / 2 ^ 16), BitVec.ofNat 8 (x / 2 ^ 8),
      BitVec.ofNat 8 x] := by
  apply v4_ext <;> simp [limbsOf]

/-- The bits of a word from `lo` up, as a number. -/
theorem extractLsb'_eq_ofNat {n : Nat} (x : BitVec n) (lo len : Nat) :
    x.extractLsb' lo len = BitVec.ofNat len (x.toNat / 2 ^ lo) := by
  apply BitVec.eq_of_toNat_eq
  simp [Nat.shiftRight_eq_div_pow]

theorem append_high (a b : Byte) : ((a ++ b) >>> 8).setWidth 8 = a := by
  apply BitVec.eq_of_toNat_eq
  have := a.isLt
  have := b.isLt
  simp only [BitVec.toNat_setWidth, BitVec.toNat_ushiftRight, toNat_append_eq, Nat.shiftRight_eq_div_pow]
  omega

theorem append_low (a b : Byte) : (a ++ b).setWidth 8 = b := by
  apply BitVec.eq_of_toNat_eq
  have := a.isLt
  have := b.isLt
  simp only [BitVec.toNat_setWidth, toNat_append_eq]
  omega

/-- The embedding of a V4 address, octet by octet (R206). -/
theorem embed_octets (a b c d : Byte) :
    embed (val (#v[a, b, c, d] : V4Limbs)) = #v[0, 0, 0, 0, 0, 0xFFFF, a ++ b, c ++ d] := by
  have := a.isLt
  have := b.isLt
  have := c.isLt
  have := d.isLt
  have hv : val (#v[a, b, c, d] : V4Limbs) = a.toNat * 2 ^ 24 + b.toNat * 2 ^ 16 + c.toNat * 2 ^ 8 + d.toNat :=
    val_v4 #v[a, b, c, d]
  have h1 : BitVec.ofNat 16 (val (#v[a, b, c, d] : V4Limbs) / 2 ^ 16) = a ++ b := by
    apply BitVec.eq_of_toNat_eq
    rw [BitVec.toNat_ofNat, toNat_append_eq, hv]
    omega
  have h2 : BitVec.ofNat 16 (val (#v[a, b, c, d] : V4Limbs)) = c ++ d := by
    apply BitVec.eq_of_toNat_eq
    rw [BitVec.toNat_ofNat, toNat_append_eq, hv]
    omega
  rw [embed, h1, h2]

end Sys2Proof.Machine
end

