-- ==== Sys2Proof/Laws/Mask.lean ====
section
/-! SUPPORT. The masks bit by bit. -/

namespace Sys2Proof.Machine

theorem netMask_testBit {w n j : Nat} (hn : n ≤ w) (hj : j < w) : (netMask w n).testBit j = decide (w - n ≤ j) := by
  rw [netMask, Nat.testBit_mul_two_pow, Nat.testBit_two_pow_sub_one]
  by_cases h : w - n ≤ j
  · have : j - (w - n) < n := by omega
    simp [h, this]
  · simp [h]

/-- A netmask has no bit from its width up. -/
theorem netMask_testBit_all {w n : Nat} (j : Nat) (hn : n ≤ w) :
    (netMask w n).testBit j = (decide (j < w) && decide (w - n ≤ j)) := by
  by_cases hj : j < w
  · rw [netMask_testBit hn hj]
    simp [hj]
  · have : ¬j - (w - n) < n := by omega
    rw [netMask, Nat.testBit_mul_two_pow, Nat.testBit_two_pow_sub_one]
    simp [hj, this]

theorem wildMask_testBit {w n j : Nat} : (wildMask w n).testBit j = decide (j < w - n) := by
  rw [wildMask, Nat.testBit_two_pow_sub_one]

/-- A group's bits are the value's, from the group's place on (R11). -/
theorem limbsOf_testBit {w n x : Nat} (k : Fin n) (j : Nat) :
    ((limbsOf w n x)[k].toNat).testBit j = (decide (j < w) && x.testBit (j + w * (n - 1 - k.val))) := by
  simp [limbsOf, Nat.testBit_mod_two_pow, Nat.testBit_div_two_pow]

theorem val_limbsOf_testBit {w n x j : Nat} (hj : j < w * n) : (val (limbsOf w n x)).testBit j = x.testBit j := by
  rw [val_limbsOf, Nat.testBit_mod_two_pow]
  simp [hj]

theorem v4Bits_limbsOf {x : Nat} {b : Nat → Bool} (h : ∀ j < 32, x.testBit j = b j) : v4Bits b (.v4 (limbsOf 8 4 x)) :=
  ⟨_, rfl, fun j hj => by rw [val_limbsOf_testBit hj, h j hj]⟩

theorem v6Bits_limbsOf {x : Nat} {b : Nat → Bool} (h : ∀ j < 128, x.testBit j = b j) :
    v6Bits b (.v6 (limbsOf 16 8 x)) :=
  ⟨_, rfl, fun j hj => by rw [val_limbsOf_testBit hj, h j hj]⟩

/-! ### The remainder of a mask text (R275) -/

theorem isDec_ne_minus {c : Byte} (h : isDec c = true) : c ≠ minus := by
  rintro rfl
  revert h
  decide

theorem eq_cons_of_head? {t : List Byte} {c : Byte} (h : t.head? = some c) : ∃ r, t = c :: r := by
  cases t with
  | nil => cases h
  | cons d r =>
    cases h
    exact ⟨r, rfl⟩

theorem maskCount_count {r : List Byte} {n : Int} (width : Nat) (h : countText r n) :
    maskCount r width = if n < 0 ∨ n > width then .error .illegalRange else .ok n.toNat := by
  obtain ⟨d, hd, hall, h⟩ := h
  have hall' : d.all isDec = true := by simpa using hall
  rcases h with ⟨rfl, rfl⟩ | ⟨rfl, rfl⟩
  · have hm : ¬r.head? = some minus := by
      intro hh
      obtain ⟨q, rfl⟩ := eq_cons_of_head? hh
      exact isDec_ne_minus (hall minus (by simp)) rfl
    simp [maskCount, hm, hd, hall']
  · simp [maskCount, hd, hall']

theorem maskCount_no_count {r : List Byte} (width : Nat) (h : ¬∃ n, countText r n) :
    maskCount r width = .error .illegalValue := by
  unfold maskCount
  dsimp only
  split
  all_goals
    rename_i hm
    split
    · rfl
    · rename_i hx
      exfalso
      rw [not_or, Bool.not_eq_true', Bool.not_eq_false] at hx
      apply h
      first
      | obtain ⟨q, rfl⟩ := eq_cons_of_head? hm
        exact ⟨_, q, hx.1, by simpa using hx.2, .inr ⟨rfl, rfl⟩⟩
      | exact ⟨_, r, hx.1, by simpa using hx.2, .inl ⟨rfl, rfl⟩⟩

/-! ### The range check of a mask command -/

@[simp] theorem maskBits_ok {width n : Nat} (h : n ≤ width) : maskBits width n = .ok n := by
  have : ¬n > width := by omega
  simp [maskBits, this]

@[simp] theorem maskBits_error {width n : Nat} (h : width < n) : maskBits width n = .error .illegalRange := by
  simp [maskBits, h]

end Sys2Proof.Machine
end

