-- ==== Sys2Proof/Laws/Operands.lean ====
section
/-! SUPPORT. What each operand form answers, and the errors it can raise. -/

namespace Sys2Proof.Machine

/-! ### Address registers (R301) -/

@[simp] theorem fetch1_empty {s : State} {r : RegIx} (h : s.areg r = .empty) : fetch1 s r = .error .emptyOperand := by
  simp [fetch1, h]

@[simp] theorem fetch1_v4 {s : State} {r : RegIx} {g : V4Limbs} (h : s.areg r = .v4 g) : fetch1 s r = .ok (.v4 g) := by
  simp [fetch1, h]

@[simp] theorem fetch1_v6 {s : State} {r : RegIx} {g : V6Limbs} (h : s.areg r = .v6 g) : fetch1 s r = .ok (.v6 g) := by
  simp [fetch1, h]

/-- Everything the fetch of one operand can answer. -/
theorem fetch1_cases (s : State) (r : RegIx) :
    (s.areg r = .empty ∧ fetch1 s r = .error .emptyOperand) ∨ (s.areg r ≠ .empty ∧ fetch1 s r = .ok (s.areg r)) := by
  cases h : s.areg r with
  | empty => exact .inl ⟨rfl, fetch1_empty h⟩
  | v4 g => exact .inr ⟨by simp, fetch1_v4 h⟩
  | v6 g => exact .inr ⟨by simp, fetch1_v6 h⟩

theorem fetch1_congr {s t : State} {r : RegIx} (h : s.areg r = t.areg r) : fetch1 s r = fetch1 t r := by
  simp [fetch1, h]

theorem fetch2_congr {s t : State} {r q : RegIx} (hr : s.areg r = t.areg r) (hq : s.areg q = t.areg q) :
    fetch2 s r q = fetch2 t r q := by
  simp [fetch2, fetch1_congr hr, fetch1_congr hq]

theorem fetch2_v4 {s : State} {r q : RegIx} {a b : V4Limbs} (hr : s.areg r = .v4 a) (hq : s.areg q = .v4 b) :
    fetch2 s r q = .ok (.v4 a b) := by
  simp [fetch2, fetch1_v4 hr, fetch1_v4 hq]

theorem fetch2_v6 {s : State} {r q : RegIx} {a b : V6Limbs} (hr : s.areg r = .v6 a) (hq : s.areg q = .v6 b) :
    fetch2 s r q = .ok (.v6 a b) := by
  simp [fetch2, fetch1_v6 hr, fetch1_v6 hq]

/-- An EMPTY operand comes before a mismatch of versions (R345). -/
theorem fetch2_empty {s : State} {r q : RegIx} (h : s.areg r = .empty ∨ s.areg q = .empty) :
    fetch2 s r q = .error .emptyOperand := by
  unfold fetch2
  rcases fetch1_cases s r with ⟨_, e⟩ | ⟨hr, e⟩
  · rw [e]; rfl
  · rw [e, fetch1_empty (h.resolve_left hr)]; rfl

theorem fetch2_mismatch46 {s : State} {r q : RegIx} {a : V4Limbs} {b : V6Limbs} (hr : s.areg r = .v4 a)
    (hq : s.areg q = .v6 b) : fetch2 s r q = .error .versionMismatch := by
  simp [fetch2, fetch1_v4 hr, fetch1_v6 hq]

theorem fetch2_mismatch64 {s : State} {r q : RegIx} {a : V6Limbs} {b : V4Limbs} (hr : s.areg r = .v6 a)
    (hq : s.areg q = .v4 b) : fetch2 s r q = .error .versionMismatch := by
  simp [fetch2, fetch1_v6 hr, fetch1_v4 hq]

/-- Everything the fetch of two operands can answer. -/
theorem fetch2_cases (s : State) (r q : RegIx) :
    ((s.areg r = .empty ∨ s.areg q = .empty) ∧ fetch2 s r q = .error .emptyOperand) ∨
      (∃ a b, s.areg r = .v4 a ∧ s.areg q = .v4 b ∧ fetch2 s r q = .ok (.v4 a b)) ∨
      (∃ a b, s.areg r = .v6 a ∧ s.areg q = .v6 b ∧ fetch2 s r q = .ok (.v6 a b)) ∨
      fetch2 s r q = .error .versionMismatch := by
  cases hr : s.areg r with
  | empty => exact .inl ⟨.inl rfl, fetch2_empty (.inl hr)⟩
  | v4 a =>
    cases hq : s.areg q with
    | empty => exact .inl ⟨.inr rfl, fetch2_empty (.inr hq)⟩
    | v4 b => exact .inr (.inl ⟨a, b, rfl, rfl, fetch2_v4 hr hq⟩)
    | v6 b => exact .inr (.inr (.inr (fetch2_mismatch46 hr hq)))
  | v6 a =>
    cases hq : s.areg q with
    | empty => exact .inl ⟨.inr rfl, fetch2_empty (.inr hq)⟩
    | v4 b => exact .inr (.inr (.inr (fetch2_mismatch64 hr hq)))
    | v6 b => exact .inr (.inr (.inl ⟨a, b, rfl, rfl, fetch2_v6 hr hq⟩))

/-! ### The text input (R141, R201) -/

theorem textInput_congr {s t : State} (hl : s.inLen = t.inLen)
    (hb : ∀ k < s.inLen.toNat, s.textByte k = t.textByte k) : textInput s = textInput t := by
  unfold textInput
  rw [← hl]
  exact List.map_congr_left fun k hk => hb k (List.mem_range.mp hk)

@[simp] theorem textInput_length (s : State) : (textInput s).length = s.inLen.toNat := by simp [textInput]

theorem textInput_getElem? {s : State} {k : Nat} (h : k < s.inLen.toNat) : (textInput s)[k]? = some (s.textByte k) := by
  simp [textInput, h]

theorem checkedText_ok {s : State} (h : s.inLen.toNat ≤ 256) : checkedText s = .ok (textInput s) := by
  have : ¬s.inLen.toNat > Config.textMax := by simp only [Config.textMax]; omega
  simp [checkedText, this]

theorem checkedText_error {s : State} (h : 256 < s.inLen.toNat) : checkedText s = .error .illegalArgument := by
  have : s.inLen.toNat > Config.textMax := h
  simp [checkedText, this]

/-! ### The scalar input (R144, R145) -/

theorem addressValue_ok {v : Int} (h0 : 0 ≤ v) (h1 : v ≤ 0xFFFFFFFF) : addressValue v = .ok v.toNat := by
  have : ¬(v < 0 ∨ v > 0xFFFFFFFF) := by omega
  simp only [addressValue, this, if_false]

theorem addressValue_error {v : Int} (h : v < 0 ∨ 0xFFFFFFFF < v) : addressValue v = .error .illegalValue := by
  have : v < 0 ∨ v > 0xFFFFFFFF := h
  simp only [addressValue, this, if_true]

/-- Everything the range check of a scalar input can answer. -/
theorem addressValue_cases (v : Int) :
    (0 ≤ v ∧ v ≤ 0xFFFFFFFF ∧ addressValue v = .ok v.toNat) ∨
      ((v < 0 ∨ 0xFFFFFFFF < v) ∧ addressValue v = .error .illegalValue) := by
  by_cases h : 0 ≤ v ∧ v ≤ 0xFFFFFFFF
  · exact .inl ⟨h.1, h.2, addressValue_ok h.1 h.2⟩
  · exact .inr ⟨by omega, addressValue_error (by omega)⟩

/-! ### One operation at both versions (R301) -/

theorem binaryAlu_v4 {op : (w n : Nat) → Limbs w n → Limbs w n → Limbs w n} {s : State} {r q : RegIx} {a b : V4Limbs}
    (hr : s.areg r = .v4 a) (hq : s.areg q = .v4 b) : binaryAlu op s r q = .ok (.v4 (op 8 4 a b)) := by
  simp [binaryAlu, fetch2_v4 hr hq]

theorem binaryAlu_v6 {op : (w n : Nat) → Limbs w n → Limbs w n → Limbs w n} {s : State} {r q : RegIx} {a b : V6Limbs}
    (hr : s.areg r = .v6 a) (hq : s.areg q = .v6 b) : binaryAlu op s r q = .ok (.v6 (op 16 8 a b)) := by
  simp [binaryAlu, fetch2_v6 hr hq]

theorem binaryAlu_empty {op : (w n : Nat) → Limbs w n → Limbs w n → Limbs w n} {s : State} {r q : RegIx}
    (h : s.areg r = .empty ∨ s.areg q = .empty) : binaryAlu op s r q = .error .emptyOperand := by
  simp [binaryAlu, fetch2_empty h]

theorem binaryAlu_mismatch46 {op : (w n : Nat) → Limbs w n → Limbs w n → Limbs w n} {s : State} {r q : RegIx}
    {a : V4Limbs} {b : V6Limbs} (hr : s.areg r = .v4 a) (hq : s.areg q = .v6 b) :
    binaryAlu op s r q = .error .versionMismatch := by
  simp [binaryAlu, fetch2_mismatch46 hr hq]

theorem binaryAlu_mismatch64 {op : (w n : Nat) → Limbs w n → Limbs w n → Limbs w n} {s : State} {r q : RegIx}
    {a : V6Limbs} {b : V4Limbs} (hr : s.areg r = .v6 a) (hq : s.areg q = .v4 b) :
    binaryAlu op s r q = .error .versionMismatch := by
  simp [binaryAlu, fetch2_mismatch64 hr hq]

theorem binaryAlu_comm {op : (w n : Nat) → Limbs w n → Limbs w n → Limbs w n}
    (hc : ∀ w n a b, op w n a b = op w n b a) (s : State) (r q : RegIx) : binaryAlu op s r q = binaryAlu op s q r := by
  unfold binaryAlu
  cases hr : s.areg r <;> cases hq : s.areg q <;> simp [fetch2, fetch1, hr, hq, hc]

theorem unaryAlu_empty {op : (w n : Nat) → Limbs w n → Limbs w n} {s : State} {r : RegIx} (h : s.areg r = .empty) :
    unaryAlu op s r = .error .emptyOperand := by
  simp [unaryAlu, fetch1_empty h]

theorem unaryAlu_v4 {op : (w n : Nat) → Limbs w n → Limbs w n} {s : State} {r : RegIx} {a : V4Limbs}
    (h : s.areg r = .v4 a) : unaryAlu op s r = .ok (.v4 (op 8 4 a)) := by
  simp [unaryAlu, fetch1_v4 h]

theorem unaryAlu_v6 {op : (w n : Nat) → Limbs w n → Limbs w n} {s : State} {r : RegIx} {a : V6Limbs}
    (h : s.areg r = .v6 a) : unaryAlu op s r = .ok (.v6 (op 16 8 a)) := by
  simp [unaryAlu, fetch1_v6 h]

/-! ### List elements (R149) -/

theorem elemValue_nonnumeric {s : State} {k : Nat} (hi : Nat) (h : s.listNonNum.getLsbD k = true) :
    elemValue s k hi = .error .illegalValue := by
  simp [elemValue, h]

theorem elemValue_ok {s : State} {k hi v : Nat} (h : s.listNonNum.getLsbD k = false)
    (hv : (s.listElemAt k).toInt = v) (hle : v ≤ hi) : elemValue s k hi = .ok v := by
  have : ¬((v : Int) < 0 ∨ (v : Int) > hi) := by omega
  simp only [elemValue, h, hv, this, if_false, Int.toNat_natCast, Bool.false_eq_true]

theorem elemValue_range {s : State} {k hi : Nat} (h : (s.listElemAt k).toInt < 0 ∨ hi < (s.listElemAt k).toInt) :
    elemValue s k hi = .error .illegalValue := by
  have : (s.listElemAt k).toInt < 0 ∨ (s.listElemAt k).toInt > hi := h
  unfold elemValue
  split
  · rfl
  · simp only [this, if_true]

theorem elemValue_error {s : State} {k hi : Nat} {e : ErrKind} (h : elemValue s k hi = .error e) :
    e = .illegalValue := by
  unfold elemValue at h
  split at h
  · cases h; rfl
  · dsimp only at h
    split at h
    · cases h; rfl
    · cases h

theorem elemValues_ok {s : State} {hi : Nat} (vs : List Nat) (k : Nat)
    (h : ∀ j (hj : j < vs.length), s.listNonNum.getLsbD (k + j) = false ∧
      (s.listElemAt (k + j)).toInt = vs[j] ∧ vs[j] ≤ hi) :
    elemValues s hi k vs.length = .ok vs := by
  induction vs generalizing k with
  | nil => rfl
  | cons v vs ih =>
    have h0 := h 0 (by simp)
    simp only [Nat.add_zero, List.getElem_cons_zero] at h0
    have hrest : elemValues s hi (k + 1) vs.length = .ok vs := ih (k + 1) fun j hj => by
      have := h (j + 1) (by simpa using hj)
      simpa [Nat.add_assoc, Nat.add_comm 1 j] using this
    simp [elemValues, elemValue_ok h0.1 h0.2.1 h0.2.2, hrest]

/-- Elements that are the limbs of a group sequence. -/
theorem elemValues_limbs {s : State} {hi k n w : Nat} (g : Limbs w n) (hw : 2 ^ w = hi + 1)
    (h : ∀ j : Fin n, s.listNonNum.getLsbD (k + j) = false ∧ (s.listElemAt (k + j)).toInt = g[j].toNat) :
    elemValues s hi k n = .ok (g.toList.map BitVec.toNat) := by
  have := elemValues_ok (s := s) (hi := hi) (g.toList.map BitVec.toNat) k (by
    intro j hj
    have hj' : j < n := by simpa using hj
    have h2 := h ⟨j, hj'⟩
    have hg := g[j].isLt
    refine ⟨h2.1, ?_, ?_⟩
    · rw [h2.2]
      simp
    · simp
      omega)
  simpa using this

theorem elemValues_error {s : State} {hi k n : Nat} {e : ErrKind} (h : elemValues s hi k n = .error e) :
    e = .illegalValue := by
  induction n generalizing k with
  | zero => cases h
  | succ n ih =>
    rcases except_bind_error h with h | ⟨v, _, h⟩
    · exact elemValue_error h
    · rcases except_bind_error h with h | ⟨vs, _, h⟩
      · exact ih h
      · cases h

/-- One bad element makes the whole list an IllegalValue. -/
theorem elemValues_bad {s : State} {hi k n j : Nat} (hj : j < n)
    (h : elemValue s (k + j) hi = .error .illegalValue) : elemValues s hi k n = .error .illegalValue := by
  induction n generalizing k j with
  | zero => omega
  | succ n ih =>
    cases hk : elemValue s k hi with
    | error e =>
      rw [elemValues, hk, elemValue_error hk]
      rfl
    | ok v =>
      cases j with
      | zero => rw [Nat.add_zero, hk] at h; cases h
      | succ j =>
        have hi := ih (k := k + 1) (j := j) (by omega) (by rw [← h]; congr 1; omega)
        rw [elemValues, hk, except_ok_bind, hi]
        rfl

theorem elemValue_congr {s t : State} {k : Nat} (hi : Nat) (hn : s.listNonNum = t.listNonNum)
    (he : s.listNonNum.getLsbD k = false → s.listElemAt k = t.listElemAt k) : elemValue s k hi = elemValue t k hi := by
  unfold elemValue
  rw [← hn]
  cases h : s.listNonNum.getLsbD k with
  | true => simp
  | false => simp [he h]

theorem elemValues_congr {s t : State} (hi k n : Nat) (hn : s.listNonNum = t.listNonNum)
    (he : ∀ j < k + n, s.listNonNum.getLsbD j = false → s.listElemAt j = t.listElemAt j) :
    elemValues s hi k n = elemValues t hi k n := by
  induction n generalizing k with
  | zero => rfl
  | succ n ih =>
    simp [elemValues, elemValue_congr hi hn (he k (by omega)), ih (k + 1) fun j hj => he j (by omega)]

end Sys2Proof.Machine
end

