-- ==== Sys2Proof/Laws/Text.lean ====
section
/-!
SUPPORT. What the text scanners accept: the dotted-decimal scan accepts exactly the texts of four octet tokens, and the colon
scan exactly the texts of the four forms of `addressText`. Each other text ends in Malformed or IllegalValue.
-/

namespace Sys2Proof.Machine

/-! ### Joined tokens -/

theorem intercalate_cons (c : Byte) (t : List Byte) (ts : List (List Byte)) :
    List.intercalate [c] (t :: ts) = t ++ ts.flatMap fun u => c :: u := by
  induction ts generalizing t with
  | nil => simp [List.intercalate]
  | cons u ts ih =>
    have e : List.intercalate [c] (t :: u :: ts) = t ++ [c] ++ List.intercalate [c] (u :: ts) := by
      simp [List.intercalate]
    rw [e, ih]
    simp

@[simp] theorem closedBy_nil : closedBy colon [] = [] := rfl

theorem closedBy_append (ts us : List (List Byte)) : closedBy colon (ts ++ us) = closedBy colon ts ++ closedBy colon us := by
  simp [closedBy]

theorem closedBy_single (t : List Byte) : closedBy colon [t] = t ++ [colon] := by simp [closedBy]

theorem colonText_concat (ts : List (List Byte)) (t : List Byte) : colonText (ts ++ [t]) = closedBy colon ts ++ t := by
  induction ts with
  | nil => simp [colonText, List.intercalate]
  | cons u ts ih =>
    rw [colonText, List.cons_append, intercalate_cons]
    cases ts with
    | nil => simp [closedBy]
    | cons w ts =>
      rw [colonText, List.cons_append, intercalate_cons] at ih
      simpa [closedBy] using ih

theorem colonText_closed {ts : List (List Byte)} (h : ts ≠ []) : colonText ts ++ [colon] = closedBy colon ts := by
  obtain ⟨us, t, rfl⟩ := List.eq_nil_or_concat ts |>.resolve_left h
  rw [List.concat_eq_append, colonText_concat, closedBy_append, closedBy_single, List.append_assoc]

/-! ### Tokens -/

theorem isHex_of_isDec {c : Byte} (h : isDec c = true) : isHex c = true := by simp [isHex, h]

@[simp] theorem isDec_dot : isDec dot = false := by decide

@[simp] theorem isHex_dot : isHex dot = false := by decide

@[simp] theorem isHex_colon : isHex colon = false := by decide

theorem colon_ne_dot : colon ≠ dot := by decide

theorem octetValue_ok_iff {t : List Byte} {v : Byte} : octetValue t = .ok v ↔ octetToken t v := by
  unfold octetValue octetToken
  have hv := v.isLt
  constructor
  · intro h
    split at h
    · cases h
    · split at h
      · cases h
      · split at h
        · cases h
        · cases h
          rename_i h1 h2 h3
          refine ⟨h2, by simpa using h1, ?_⟩
          rw [BitVec.toNat_ofNat]
          exact (Nat.mod_eq_of_lt (by omega)).symm
  · rintro ⟨h1, h2, h3⟩
    have ha : t.all isDec = true := by simpa using h2
    have hd : ¬decVal t > 255 := by omega
    simp only [ha, h1, hd, if_false, Bool.not_true, Bool.false_eq_true]
    rw [h3, BitVec.ofNat_toNat, BitVec.setWidth_eq]

theorem hexGroup_ok_iff {t : List Byte} {v : BitVec 16} : hexGroup t = .ok v ↔ hexVal t = v.toNat := by
  unfold hexGroup
  have hv := v.isLt
  constructor
  · intro h
    split at h
    · cases h
    · cases h
      rw [BitVec.toNat_ofNat]
      exact (Nat.mod_eq_of_lt (by omega)).symm
  · intro h
    have hd : ¬hexVal t > 0xFFFF := by omega
    simp only [hd, if_false]
    rw [h, BitVec.ofNat_toNat, BitVec.setWidth_eq]

/-- The errors a scan can end in. -/
def scanError (k : ErrKind) : Prop := k = .malformed ∨ k = .illegalValue

theorem octetValue_error {t : List Byte} {k : ErrKind} (h : octetValue t = .error k) : scanError k := by
  unfold octetValue at h
  split at h
  · cases h; exact .inl rfl
  · split at h
    · cases h; exact .inr rfl
    · split at h
      · cases h; exact .inr rfl
      · cases h

theorem hexGroup_error {t : List Byte} {k : ErrKind} (h : hexGroup t = .error k) : scanError k := by
  unfold hexGroup at h
  split at h
  · cases h; exact .inr rfl
  · cases h

/-! ### The dotted-decimal scan (R147) -/

theorem dottedScan_digits (limbs tok t rest : List Byte) (h : ∀ c ∈ t, isDec c = true) :
    dottedScan limbs tok (t ++ rest) = dottedScan limbs (tok ++ t) rest := by
  induction t generalizing tok with
  | nil => simp
  | cons c t ih =>
    have hc : isDec c = true := h c (by simp)
    rw [List.cons_append, dottedScan, if_pos hc, ih _ fun d hd => h d (by simp [hd])]
    simp

theorem dottedScan_complete {ts : List (List Byte)} {t : List Byte} {v : Byte} {vs limbs : List Byte}
    (ht : octetToken t v) (hts : List.Forall₂ octetToken ts vs) (hl : limbs.length + vs.length + 1 = 4) :
    dottedScan limbs [] (t ++ ts.flatMap fun u => dot :: u) = .ok (limbs ++ v :: vs) := by
  induction hts generalizing t v limbs with
  | nil =>
    have h4 : limbs.length ≠ 4 := by simp at hl; omega
    have h3 : limbs.length + 1 = 4 := by simpa using hl
    rw [dottedScan_digits _ _ _ _ ht.2.1]
    simp [dottedScan, h4, octetValue_ok_iff.mpr ht, h3]
  | @cons u w us ws hu hus ih =>
    have h4 : limbs.length ≠ 4 := by simp at hl; omega
    rw [dottedScan_digits _ _ _ _ ht.2.1]
    simp only [List.flatMap_cons, List.cons_append, dottedScan, isDec_dot, Bool.false_eq_true, if_false, if_true, h4,
      List.nil_append, octetValue_ok_iff.mpr ht, except_ok_bind]
    rw [ih hu (by simp at hl ⊢; omega)]
    simp

theorem dottedScan_sound {limbs tok rest l : List Byte} (htok : ∀ c ∈ tok, isDec c = true)
    (h : dottedScan limbs tok rest = .ok l) :
    ∃ t ts v vs, octetToken t v ∧ List.Forall₂ octetToken ts vs ∧ tok ++ rest = t ++ (ts.flatMap fun u => dot :: u) ∧
      l = limbs ++ v :: vs ∧ l.length = 4 := by
  induction rest generalizing limbs tok with
  | nil =>
    simp only [dottedScan] at h
    split at h
    · cases h
    · obtain ⟨v, hv, h⟩ := except_bind_ok h
      split at h
      · cases h
      · cases h
        exact ⟨tok, [], v, [], octetValue_ok_iff.mp hv, .nil, by simp, rfl, by simp; omega⟩
  | cons c rest ih =>
    rw [dottedScan] at h
    split at h
    · rename_i hc
      obtain ⟨t, ts, v, vs, h1, h2, h3, h4⟩ := ih (by simpa [or_imp, forall_and] using ⟨htok, hc⟩) h
      exact ⟨t, ts, v, vs, h1, h2, by simpa using h3, h4⟩
    · split at h
      · rename_i hc
        split at h
        · cases h
        · obtain ⟨v, hv, h⟩ := except_bind_ok h
          obtain ⟨t, ts, w, ws, h1, h2, h3, h4, h5⟩ := ih (by simp) h
          refine ⟨tok, t :: ts, v, w :: ws, octetValue_ok_iff.mp hv, .cons h1 h2, ?_, by simpa using h4, h5⟩
          rw [List.nil_append] at h3
          simp [hc, h3]
      · cases h

theorem dottedScan_error {limbs tok rest : List Byte} {k : ErrKind} (h : dottedScan limbs tok rest = .error k) :
    scanError k := by
  induction rest generalizing limbs tok with
  | nil =>
    simp only [dottedScan] at h
    split at h
    · cases h; exact .inl rfl
    · rcases except_bind_error h with h | ⟨v, _, h⟩
      · exact octetValue_error h
      · split at h
        · cases h; exact .inl rfl
        · cases h
  | cons c rest ih =>
    rw [dottedScan] at h
    split at h
    · exact ih h
    · split at h
      · split at h
        · cases h; exact .inl rfl
        · rcases except_bind_error h with h | ⟨v, _, h⟩
          · exact octetValue_error h
          · exact ih h
      · cases h; exact .inl rfl

/-- The dotted-decimal scan accepts exactly the texts of four octet tokens, with their values. -/
theorem dottedV4_ok_iff {t : List Byte} {g : V4Limbs} : dottedV4 t = .ok g ↔ quadText t g := by
  constructor
  · intro h
    obtain ⟨l, hl, h⟩ := except_bind_ok h
    cases h
    obtain ⟨u, us, v, vs, h1, h2, h3, h4, h5⟩ := dottedScan_sound (by simp) hl
    refine ⟨u :: us, ?_, ?_⟩
    · rw [limbsOfList_toList h5, h4]
      exact .cons h1 h2
    · rw [intercalate_cons, ← h3, List.nil_append]
  · rintro ⟨ts, hts, rfl⟩
    rw [v4_toList] at hts
    cases hts with
    | cons h1 h2 =>
      rw [intercalate_cons, dottedV4, dottedScan_complete h1 h2 (by simp)]
      simp only [except_ok_bind, List.nil_append, except_pure, ← v4_toList, limbsOfList_vector]

theorem dottedV4_error {t : List Byte} {k : ErrKind} (h : dottedV4 t = .error k) : scanError k := by
  rcases except_bind_error h with h | ⟨l, _, h⟩
  · exact dottedScan_error h
  · cases h

theorem quadText_toList {u : List Byte} {q : V4Limbs} (h : quadText u q) :
    ∃ t0 t1 t2 t3, octetToken t0 q[0] ∧ octetToken t1 q[1] ∧ octetToken t2 q[2] ∧ octetToken t3 q[3] ∧
      u = t0 ++ dot :: t1 ++ dot :: t2 ++ dot :: t3 := by
  obtain ⟨ts, hts, rfl⟩ := h
  rw [v4_toList] at hts
  cases hts with
  | cons h0 h => cases h with
    | cons h1 h => cases h with
      | cons h2 h => cases h with
        | cons h3 h => cases h with
          | nil => exact ⟨_, _, _, _, h0, h1, h2, h3, by rw [intercalate_cons]; simp⟩

/-! ### The backward phase (R210) -/

theorem backwardScan_hex (f : Nat) (back : List (BitVec 16)) (quad : List Byte) (iq : Bool) (tok t rest : List Byte)
    (h : ∀ c ∈ t, isHex c = true) :
    backwardScan f back quad iq tok (t.reverse ++ rest) = backwardScan f back quad iq (t ++ tok) rest := by
  induction t generalizing rest with
  | nil => simp
  | cons c t ih =>
    rw [List.reverse_cons, List.append_assoc, ih _ fun d hd => h d (by simp [hd])]
    simp [backwardScan, h c (by simp)]

/-- The last tokens of a text after '::' and the groups they stand for: group tokens, the last one a quad or not. -/
def backTokens (ts : List (List Byte)) (gs : List (BitVec 16)) : Prop :=
  List.Forall₂ groupToken ts gs ∨
    ∃ us hs u q, List.Forall₂ groupToken us hs ∧ quadText u q ∧ ts = us ++ [u] ∧ gs = hs ++ quadGroups q

theorem backTokens.cons {t : List Byte} {v : BitVec 16} {ts : List (List Byte)} {gs : List (BitVec 16)}
    (ht : groupToken t v) (h : backTokens ts gs) : backTokens (t :: ts) (v :: gs) := by
  rcases h with h | ⟨us, hs, u, q, h1, h2, rfl, rfl⟩
  · exact .inl (.cons ht h)
  · exact .inr ⟨t :: us, v :: hs, u, q, .cons ht h1, h2, rfl, rfl⟩

theorem closeBack_group {f : Nat} {back : List (BitVec 16)} {quad t : List Byte} {v : BitVec 16} (ht : groupToken t v)
    (hf : f + back.length + 1 ≤ 7) : closeBack f back quad false t = .ok (v :: back) := by
  have : ¬f + back.length + 1 > 7 := by omega
  simp [closeBack, this, hexGroup_ok_iff.mpr ht.2.2]

theorem closeBack_quad {f : Nat} {t : List Byte} {q : V4Limbs} (ht : octetToken t q[0]) (hf : f + 2 ≤ 7) :
    closeBack f [] [q[1], q[2], q[3]] true t = .ok (quadGroups q) := by
  have : ¬f + 2 > 7 := by omega
  simp [closeBack, octetValue_ok_iff.mpr ht, this, ← v4_toList]

/-- Reading group tokens right to left, the rightmost one already read. -/
theorem backwardScan_groups {f : Nat} {us : List (List Byte)} {hs back : List (BitVec 16)} {quad tok : List Byte}
    {v : BitVec 16} (ht : groupToken tok v) (h : List.Forall₂ groupToken us hs)
    (hf : f + hs.length + 1 + back.length ≤ 7) :
    backwardScan f back quad false tok (closedBy colon us).reverse = .ok (hs ++ v :: back) := by
  induction us using List.reverseRecOn generalizing hs back tok v with
  | nil =>
    cases h
    simp only [closedBy_nil, List.reverse_nil, backwardScan, ht.1, if_false, List.nil_append]
    exact closeBack_group ht (by simp at hf; omega)
  | append_singleton us t ih =>
    obtain ⟨hs', w, h1, h2, rfl⟩ : ∃ hs' w, List.Forall₂ groupToken us hs' ∧ groupToken t w ∧ hs = hs' ++ [w] := by
      have hr := List.rel_reverse h
      rw [List.reverse_append] at hr
      cases hr' : hs.reverse with
      | nil => rw [hr'] at hr; cases hr
      | cons w ws =>
        rw [hr'] at hr
        cases hr with
        | cons h3 h4 =>
          refine ⟨ws.reverse, w, ?_, h3, ?_⟩
          · simpa using List.rel_reverse h4
          · rw [← List.reverse_reverse hs, hr', List.reverse_cons]
    have hrev : (closedBy colon (us ++ [t])).reverse = colon :: (t.reverse ++ (closedBy colon us).reverse) := by
      simp [closedBy_append, closedBy_single]
    simp only [List.length_append, List.length_singleton] at hf
    rw [hrev, backwardScan]
    simp only [isHex_colon, Bool.false_eq_true, if_false, colon_ne_dot, if_true, ht.1]
    rw [closeBack_group ht (by omega), except_ok_bind, backwardScan_hex _ _ _ _ _ _ _ h2.2.1, List.append_nil,
      ih h2 h1 (by simp; omega)]
    simp

/-- Reading a quad right to left, down to its first octet. -/
theorem backwardScan_quad {f : Nat} {q : V4Limbs} {t0 t1 t2 t3 rest : List Byte} (h0 : octetToken t0 q[0])
    (h1 : octetToken t1 q[1]) (h2 : octetToken t2 q[2]) (h3 : octetToken t3 q[3]) :
    backwardScan f [] [] false [] ((t0 ++ dot :: t1 ++ dot :: t2 ++ dot :: t3).reverse ++ rest) =
      backwardScan f [] [q[1], q[2], q[3]] true t0 rest := by
  have hx : ∀ {t v}, octetToken t v → ∀ c ∈ t, isHex c = true := fun h c hc => isHex_of_isDec (h.2.1 c hc)
  have e : (t0 ++ dot :: t1 ++ dot :: t2 ++ dot :: t3).reverse ++ rest =
      t3.reverse ++ (dot :: (t2.reverse ++ (dot :: (t1.reverse ++ (dot :: (t0.reverse ++ rest)))))) := by simp
  rw [e, backwardScan_hex _ _ _ _ _ _ _ (hx h3)]
  simp only [backwardScan, isHex_dot, Bool.false_eq_true, if_false, if_true, List.length_nil, gt_iff_lt, Nat.lt_irrefl,
    List.append_nil, octetValue_ok_iff.mpr h3, except_ok_bind, OfNat.zero_ne_ofNat]
  rw [backwardScan_hex _ _ _ _ _ _ _ (hx h2)]
  simp only [backwardScan, isHex_dot, Bool.false_eq_true, if_false, if_true, List.length_nil, gt_iff_lt, Nat.lt_irrefl,
    List.append_nil, octetValue_ok_iff.mpr h2, except_ok_bind, List.length_cons, Nat.zero_add,
    OfNat.one_ne_ofNat]
  rw [backwardScan_hex _ _ _ _ _ _ _ (hx h1)]
  simp only [backwardScan, isHex_dot, Bool.false_eq_true, if_false, if_true, List.length_nil, gt_iff_lt, Nat.lt_irrefl,
    List.append_nil, octetValue_ok_iff.mpr h1, except_ok_bind, List.length_cons, Nat.reduceEqDiff, Nat.zero_add,
    Nat.reduceAdd]
  rw [backwardScan_hex _ _ _ _ _ _ _ (hx h0), List.append_nil]

/-- The backward phase accepts the texts of back tokens that leave '::' a group to stand for. -/
theorem backwardScan_complete {f : Nat} {ts : List (List Byte)} {gs : List (BitVec 16)} (hne : ts ≠ [])
    (h : backTokens ts gs) (hf : f + gs.length ≤ 7) :
    backwardScan f [] [] false [] (colonText ts).reverse = .ok gs := by
  have last : ∀ {us : List (List Byte)} {hs : List (BitVec 16)}, us ≠ [] → List.Forall₂ groupToken us hs →
      ∃ us' t hs' w, us = us' ++ [t] ∧ hs = hs' ++ [w] ∧ List.Forall₂ groupToken us' hs' ∧ groupToken t w := by
    intro us hs hu hh
    obtain ⟨us', t, rfl⟩ := List.eq_nil_or_concat us |>.resolve_left hu
    rw [List.concat_eq_append] at hh ⊢
    have hr := List.rel_reverse hh
    rw [List.reverse_append] at hr
    cases hr' : hs.reverse with
    | nil => rw [hr'] at hr; cases hr
    | cons w ws =>
      rw [hr'] at hr
      cases hr with
      | cons h3 h4 =>
        exact ⟨us', t, ws.reverse, w, rfl, by rw [← List.reverse_reverse hs, hr', List.reverse_cons],
          by simpa using List.rel_reverse h4, h3⟩
  rcases h with h | ⟨us, hs, u, q, h1, h2, rfl, rfl⟩
  · obtain ⟨us, t, hs, w, rfl, rfl, h1, h2⟩ := last hne h
    rw [colonText_concat, List.reverse_append, backwardScan_hex _ _ _ _ _ _ _ h2.2.1, List.append_nil,
      backwardScan_groups h2 h1 (by simp at hf ⊢; omega)]
  · obtain ⟨t0, t1, t2, t3, o0, o1, o2, o3, rfl⟩ := quadText_toList h2
    have hlen : f + hs.length + 2 ≤ 7 := by simp [quadGroups] at hf; omega
    rw [colonText_concat, List.reverse_append, backwardScan_quad o0 o1 o2 o3]
    by_cases hu : us = []
    · subst hu
      cases h1
      simp only [closedBy_nil, List.reverse_nil, backwardScan, o0.1, if_false, List.nil_append]
      exact closeBack_quad o0 (by simp at hlen; omega)
    · obtain ⟨us', t, hs', w, rfl, rfl, h3, h4⟩ := last hu h1
      have hrev : (closedBy colon (us' ++ [t])).reverse = colon :: (t.reverse ++ (closedBy colon us').reverse) := by
        simp [closedBy_append, closedBy_single]
      rw [hrev, backwardScan]
      simp only [isHex_colon, Bool.false_eq_true, if_false, colon_ne_dot, if_true, o0.1]
      rw [closeBack_quad o0 (by omega), except_ok_bind, backwardScan_hex _ _ _ _ _ _ _ h4.2.1, List.append_nil,
        backwardScan_groups h4 h3 (by simp [quadGroups] at hlen ⊢; omega)]
      simp

/-- The text of the tokens a backward scan has closed: back tokens, or the octets of a quad it has not finished. -/
def closedBack (iq : Bool) (bts : List (List Byte)) (os : List (List Byte)) : List Byte :=
  if iq then os.flatMap fun u => dot :: u else bts.flatMap fun u => colon :: u

/-- The working state of a backward scan stands for the tokens it has closed. -/
structure backState (back : List (BitVec 16)) (quad : List Byte) (iq : Bool) (bts os : List (List Byte)) : Prop where
  octets : iq = true → back = [] ∧ List.Forall₂ octetToken os quad
  groups : iq = false → backTokens bts back
  fresh : iq = false → back = [] → quad = [] ∧ bts = []

theorem closeBack_sound {f : Nat} {back b : List (BitVec 16)} {quad t : List Byte} {iq : Bool} {bts os : List (List Byte)}
    (hs : backState back quad iq bts os) (hne : t ≠ []) (ht : ∀ c ∈ t, isHex c = true)
    (h : closeBack f back quad iq t = .ok b) :
    ∃ bts', backTokens bts' b ∧ b ≠ [] ∧ bts' ≠ [] ∧ f + b.length ≤ 7 ∧
      t ++ closedBack iq bts os = colonText bts' := by
  cases iq with
  | true =>
    obtain ⟨hb, ho⟩ := hs.octets rfl
    subst hb
    simp only [closeBack, if_true] at h
    obtain ⟨v, hv, h⟩ := except_bind_ok h
    split at h
    · cases h
    · rename_i hlen
      split at h
      · cases h
      · rename_i hf
        cases h
        have hlen' : (v :: quad).length = 4 := by simpa using hlen
        refine ⟨[t ++ os.flatMap fun u => dot :: u], .inr ⟨[], [], _, limbsOfList 4 (v :: quad), .nil, ?_, rfl, rfl⟩,
          by simp [quadGroups], by simp, by simp [quadGroups]; simp at hf; omega, ?_⟩
        · refine ⟨t :: os, ?_, (intercalate_cons dot t os).symm⟩
          rw [limbsOfList_toList hlen']
          exact .cons (octetValue_ok_iff.mp hv) ho
        · simp [closedBack, colonText]
  | false =>
    simp only [closeBack, Bool.false_eq_true, if_false] at h
    split at h
    · cases h
    · rename_i hf
      obtain ⟨v, hv, h⟩ := except_bind_ok h
      cases h
      exact ⟨t :: bts, backTokens.cons ⟨hne, ht, hexGroup_ok_iff.mp hv⟩ (hs.groups rfl), by simp, by simp,
        by simp; omega, by simp [closedBack, colonText, intercalate_cons]⟩

/-- What the backward phase accepts: the text of back tokens, with their groups, that leaves '::' a group to stand for. -/
theorem backwardScan_sound {f : Nat} {back b : List (BitVec 16)} {quad tok rev : List Byte} {iq : Bool}
    {bts os : List (List Byte)} (hs : backState back quad iq bts os) (ht : ∀ c ∈ tok, isHex c = true)
    (h : backwardScan f back quad iq tok rev = .ok b) :
    ∃ bts', backTokens bts' b ∧ bts' ≠ [] ∧ f + b.length ≤ 7 ∧
      rev.reverse ++ tok ++ closedBack iq bts os = colonText bts' := by
  induction rev generalizing back quad tok iq bts os with
  | nil =>
    simp only [backwardScan] at h
    split at h
    · cases h
    · rename_i hne
      obtain ⟨bts', h1, _, h3, h4, h5⟩ := closeBack_sound hs hne ht h
      exact ⟨bts', h1, h3, h4, by simpa using h5⟩
  | cons c rev ih =>
    rw [backwardScan] at h
    split at h
    · rename_i hc
      obtain ⟨bts', h1, h2, h3, h4⟩ := ih hs (by simpa [or_imp, forall_and] using ⟨hc, ht⟩) h
      exact ⟨bts', h1, h2, h3, by simpa using h4⟩
    · split at h
      · rename_i hc
        split at h
        · cases h
        · rename_i hb
          have hback : back = [] := by simpa using hb
          split at h
          · cases h
          · obtain ⟨v, hv, h⟩ := except_bind_ok h
            have htok := octetValue_ok_iff.mp hv
            cases iq with
            | true =>
              obtain ⟨_, ho⟩ := hs.octets rfl
              obtain ⟨bts', h1, h2, h3, h4⟩ := ih (bts := bts) (os := tok :: os)
                ⟨fun _ => ⟨hback, .cons htok ho⟩, by simp, by simp⟩ (by simp) h
              exact ⟨bts', h1, h2, h3, by simpa [closedBack, hc] using h4⟩
            | false =>
              obtain ⟨hq, hbt⟩ := hs.fresh rfl hback
              subst hq hbt
              obtain ⟨bts', h1, h2, h3, h4⟩ := ih (bts := []) (os := [tok])
                ⟨fun _ => ⟨hback, .cons htok .nil⟩, by simp, by simp⟩ (by simp) h
              exact ⟨bts', h1, h2, h3, by simpa [closedBack, hc] using h4⟩
      · split at h
        · rename_i hc
          split at h
          · cases h
          · rename_i hne
            obtain ⟨back', hb, h⟩ := except_bind_ok h
            obtain ⟨bts', h1, h2, h3, h4, h5⟩ := closeBack_sound hs hne ht hb
            obtain ⟨bts'', g1, g2, g3, g4⟩ := ih (bts := bts') (os := os)
              ⟨by simp, fun _ => h1, fun _ he => absurd he h2⟩ (by simp) h
            refine ⟨bts'', g1, g2, g3, ?_⟩
            rw [← g4]
            cases bts' with
            | nil => exact absurd rfl h3
            | cons x xs =>
              rw [colonText, intercalate_cons] at h5
              simp [closedBack, hc, ← h5]
        · cases h

theorem closeBack_error {f : Nat} {back : List (BitVec 16)} {quad t : List Byte} {iq : Bool} {k : ErrKind}
    (h : closeBack f back quad iq t = .error k) : scanError k := by
  unfold closeBack at h
  split at h
  · rcases except_bind_error h with h | ⟨v, _, h⟩
    · exact octetValue_error h
    · dsimp only at h
      split at h
      · cases h; exact .inl rfl
      · split at h
        · cases h; exact .inl rfl
        · cases h
  · split at h
    · cases h; exact .inl rfl
    · rcases except_bind_error h with h | ⟨v, _, h⟩
      · exact hexGroup_error h
      · cases h

theorem backwardScan_error {f : Nat} {back : List (BitVec 16)} {quad tok rev : List Byte} {iq : Bool} {k : ErrKind}
    (h : backwardScan f back quad iq tok rev = .error k) : scanError k := by
  induction rev generalizing back quad tok iq with
  | nil =>
    simp only [backwardScan] at h
    split at h
    · cases h; exact .inl rfl
    · exact closeBack_error h
  | cons c rev ih =>
    rw [backwardScan] at h
    split at h
    · exact ih h
    · split at h
      · split at h
        · cases h; exact .inl rfl
        · split at h
          · cases h; exact .inl rfl
          · rcases except_bind_error h with h | ⟨v, _, h⟩
            · exact octetValue_error h
            · exact ih h
      · split at h
        · split at h
          · cases h; exact .inl rfl
          · rcases except_bind_error h with h | ⟨v, _, h⟩
            · exact closeBack_error h
            · exact ih h
        · cases h; exact .inl rfl

/-! ### The compression (R208, R211) -/

theorem joinGroups_toList {front back : List (BitVec 16)} (h : front.length + back.length ≤ 7) :
    (joinGroups front back).toList = front ++ List.replicate (8 - front.length - back.length) 0 ++ back :=
  limbsOfList_toList (by simp; omega)

theorem forall₂_length {ts : List (List Byte)} {gs : List (BitVec 16)} (h : List.Forall₂ groupToken ts gs) :
    ts.length = gs.length := List.Forall₂.length_eq h

theorem compressV6_sound {ts : List (List Byte)} {front : List (BitVec 16)} {suffix : List Byte} {g : V6Limbs}
    (hf : List.Forall₂ groupToken ts front) (hlen : front.length ≤ 8) (h : compressV6 front suffix = .ok g) :
    addressText (colonText ts ++ [colon, colon] ++ suffix) g := by
  unfold compressV6 at h
  split at h
  · cases h
  · split at h
    · rename_i h8 hsuf
      cases h
      subst hsuf
      refine .inr (.inr (.inl ⟨ts, front, [], [], hf, .nil, by simp; omega, by simp [colonText, List.intercalate], ?_⟩))
      exact joinGroups_toList (by simp; omega)
    · obtain ⟨back, hb, h⟩ := except_bind_ok h
      cases h
      obtain ⟨bts, h1, h2, h3, h4⟩ := backwardScan_sound (bts := []) (os := [])
        ⟨by simp, fun _ => .inl .nil, fun _ _ => ⟨rfl, rfl⟩⟩ (by simp) hb
      have hsuf : suffix = colonText bts := by simpa [closedBack] using h4
      have hj := joinGroups_toList h3
      rcases h1 with h1 | ⟨us, hs, u, q, g1, g2, rfl, rfl⟩
      · exact .inr (.inr (.inl ⟨ts, front, bts, back, hf, h1, h3, by rw [hsuf], hj⟩))
      · refine .inr (.inr (.inr ⟨ts, front, us, hs, u, q, hf, g1, g2, by simp [quadGroups] at h3; omega, by rw [hsuf], ?_⟩))
        rw [hj]
        simp [quadGroups, pairOctets]

theorem compressV6_complete {front back : List (BitVec 16)} {ts : List (List Byte)} (h : backTokens ts back)
    (hf : front.length + back.length ≤ 7) : compressV6 front (colonText ts) = .ok (joinGroups front back) := by
  have h8 : front.length ≠ 8 := by omega
  unfold compressV6
  rw [if_neg h8]
  by_cases hts : ts = []
  · subst hts
    have hb : back = [] := by
      rcases h with h | ⟨us, hs, u, q, _, _, h, _⟩
      · cases h; rfl
      · simp at h
    simp [hb, colonText, List.intercalate]
  · have hne : colonText ts ≠ [] := by
      cases ts with
      | nil => exact absurd rfl hts
      | cons t ts =>
        rw [colonText, intercalate_cons]
        rcases h with h | ⟨us, hs, u, q, h1, h2, h3, _⟩
        · cases h with
          | cons h1 _ => simp [h1.1]
        · cases us with
          | nil =>
            cases h3
            obtain ⟨t0, t1, t2, t3, o0, _, _, _, rfl⟩ := quadText_toList h2
            simp [o0.1]
          | cons x xs =>
            cases h1 with
            | cons h1 _ =>
              cases h3
              simp [h1.1]
    rw [if_neg hne, backwardScan_complete hts h hf]
    rfl

theorem compressV6_error {front : List (BitVec 16)} {suffix : List Byte} {k : ErrKind}
    (h : compressV6 front suffix = .error k) : scanError k := by
  unfold compressV6 at h
  split at h
  · cases h; exact .inl rfl
  · split at h
    · cases h
    · rcases except_bind_error h with h | ⟨v, _, h⟩
      · exact backwardScan_error h
      · cases h

/-! ### The forward phase (R208) -/

theorem forwardScan_hex (front : List (BitVec 16)) (tok t rest : List Byte) (start : Bool)
    (h : ∀ c ∈ t, isHex c = true) :
    forwardScan front tok start (t ++ rest) = forwardScan front (tok ++ t) (start && t.isEmpty) rest := by
  induction t generalizing tok start with
  | nil => simp
  | cons c t ih =>
    rw [List.cons_append, forwardScan, if_pos (h c (by simp)), ih _ _ fun d hd => h d (by simp [hd])]
    simp

theorem forwardScan_group {front : List (BitVec 16)} {t : List Byte} {v : BitVec 16} (rest : List Byte) (start : Bool)
    (ht : groupToken t v) (hf : front.length < 8) :
    forwardScan front [] start (t ++ colon :: rest) = forwardScan (front ++ [v]) [] false rest := by
  have h8 : front.length ≠ 8 := by omega
  rw [forwardScan_hex _ _ _ _ _ ht.2.1, List.nil_append, forwardScan]
  simp [ht.1, h8, hexGroup_ok_iff.mpr ht.2.2]

theorem forwardScan_groups {ts : List (List Byte)} {gs front : List (BitVec 16)} (rest : List Byte) (start : Bool)
    (h : List.Forall₂ groupToken ts gs) (hf : front.length + gs.length ≤ 8) :
    forwardScan front [] start (closedBy colon ts ++ rest) =
      forwardScan (front ++ gs) [] (start && ts.isEmpty) rest := by
  induction h generalizing front start with
  | nil => simp
  | @cons t v ts gs h1 h2 ih =>
    simp only [List.length_cons] at hf
    have e : closedBy colon (t :: ts) ++ rest = t ++ colon :: (closedBy colon ts ++ rest) := by simp [closedBy]
    rw [e, forwardScan_group _ _ h1 (by omega), ih _ (by simp; omega)]
    simp

/-- The colon scan accepts every text that stands for an address. -/
theorem colonV6_complete {t : List Byte} {g : V6Limbs} (h : addressText t g) : colonV6 t = .ok g := by
  have comp : ∀ {ts bts : List (List Byte)} {gs bs : List (BitVec 16)}, List.Forall₂ groupToken ts gs →
      backTokens bts bs → gs.length + bs.length ≤ 7 →
      colonV6 (colonText ts ++ [colon, colon] ++ colonText bts) = .ok (joinGroups gs bs) := by
    intro ts bts gs bs h1 h2 hlen
    unfold colonV6
    by_cases hts : ts = []
    · subst hts
      cases h1
      have e : colonText [] ++ [colon, colon] ++ colonText bts = colon :: colon :: colonText bts := by
        simp [colonText, List.intercalate]
      rw [e, forwardScan]
      simp [compressV6_complete h2 hlen]
    · have e : colonText ts ++ [colon, colon] ++ colonText bts = closedBy colon ts ++ colon :: colonText bts := by
        rw [← colonText_closed hts]
        simp
      rw [e, forwardScan_groups _ _ h1 (by simp; omega), forwardScan]
      simp [hts, compressV6_complete h2 hlen]
  rcases h with ⟨ts, hts, rfl⟩ | ⟨ts, gs, u, q, h1, h2, h3, rfl, h5⟩ | ⟨ts, gs, us, hs, h1, h2, h3, rfl, h5⟩ |
    ⟨ts, gs, us, hs, u, q, h1, h2, h3, h4, rfl, h6⟩
  · obtain ⟨ts', t, rfl⟩ := List.eq_nil_or_concat ts |>.resolve_left (by rintro rfl; rw [v6_toList] at hts; cases hts)
    rw [List.concat_eq_append] at hts ⊢
    have hr := List.rel_reverse hts
    rw [List.reverse_append] at hr
    cases hr' : g.toList.reverse with
    | nil => rw [hr'] at hr; cases hr
    | cons w ws =>
      rw [hr'] at hr
      cases hr with
      | cons h3 h4 =>
        have hg : g.toList = ws.reverse ++ [w] := by rw [← List.reverse_reverse g.toList, hr', List.reverse_cons]
        have hlen : ws.reverse.length = 7 := by
          have := congrArg List.length hg
          simp at this ⊢
          omega
        have h4' : List.Forall₂ groupToken ts' ws.reverse := by simpa using List.rel_reverse h4
        unfold colonV6
        rw [colonText_concat, forwardScan_groups _ _ h4' (by simp at hlen ⊢; omega), ← List.append_nil t,
          forwardScan_hex _ _ _ _ _ h3.2.1, forwardScan]
        simp only [List.nil_append, h3.1, if_false, hexGroup_ok_iff.mpr h3.2.2, except_ok_bind, hlen]
        simp [← hg]
  · have hts : ts ≠ [] := by
      rintro rfl
      cases h1
      simp at h2
    obtain ⟨t0, t1, t2, t3, o0, o1, o2, o3, hu⟩ := quadText_toList h3
    have hx : ∀ c ∈ t0, isHex c = true := fun c hc => isHex_of_isDec (o0.2.1 c hc)
    have hu' : u = t0 ++ dot :: (t1 ++ dot :: (t2 ++ dot :: t3)) := by simp [hu]
    have hq : dottedV4 (t0 ++ dot :: (t1 ++ dot :: (t2 ++ dot :: t3))) = .ok q := hu' ▸ dottedV4_ok_iff.mpr h3
    unfold colonV6
    rw [colonText_closed hts, forwardScan_groups _ _ h1 (by simp [h2]), hu', forwardScan_hex _ _ _ _ _ hx, forwardScan]
    simp only [List.nil_append, isHex_dot, Bool.false_eq_true, if_false, colon_ne_dot.symm, if_true, h2, hq,
      except_ok_bind, ne_eq, not_true_eq_false, except_pure]
    have hqg : [q[0] ++ q[1], q[2] ++ q[3]] = quadGroups q := rfl
    rw [← hqg, ← h5, limbsOfList_vector]
  · rw [comp h1 (.inl h2) h3]
    congr 1
    exact Vector.toList_inj.mp (by rw [joinGroups_toList h3, h5])
  · have hl : (hs ++ quadGroups q).length = hs.length + 2 := by simp [quadGroups]
    rw [comp h1 (.inr ⟨us, hs, u, q, h2, h3, rfl, rfl⟩) (by rw [hl]; omega)]
    congr 1
    apply Vector.toList_inj.mp
    rw [joinGroups_toList (by rw [hl]; omega), h6, hl]
    rfl

theorem forwardScan_sound {front : List (BitVec 16)} {tok rest : List Byte} {start : Bool} {g : V6Limbs}
    {ts : List (List Byte)} (hts : List.Forall₂ groupToken ts front) (hlen : front.length ≤ 8)
    (htok : ∀ c ∈ tok, isHex c = true) (hstart : start = true → ts = [] ∧ tok = [])
    (hgoing : start = false → ts ≠ [] ∨ tok ≠ []) (h : forwardScan front tok start rest = .ok g) :
    addressText (closedBy colon ts ++ tok ++ rest) g := by
  induction rest generalizing front tok start ts with
  | nil =>
    simp only [forwardScan] at h
    split at h
    · cases h
    · rename_i hne
      split at h
      · cases h
      · obtain ⟨v, hv, h⟩ := except_bind_ok h
        split at h
        · cases h
        · rename_i hl
          cases h
          have hl' : (front ++ [v]).length = 8 := by simpa using hl
          refine .inl ⟨ts ++ [tok], ?_, by rw [colonText_concat, List.append_nil]⟩
          rw [limbsOfList_toList hl']
          exact List.rel_append hts (.cons ⟨hne, htok, hexGroup_ok_iff.mp hv⟩ .nil)
  | cons c rest ih =>
    rw [forwardScan] at h
    split at h
    · rename_i hc
      have := ih hts hlen (by simpa [or_imp, forall_and] using ⟨htok, hc⟩) (by simp) (by simp) h
      simpa using this
    · split at h
      · rename_i hc
        subst hc
        split at h
        · rename_i hne
          split at h
          · cases h
          · obtain ⟨v, hv, h⟩ := except_bind_ok h
            have := ih (ts := ts ++ [tok])
              (List.rel_append hts (.cons ⟨hne, htok, hexGroup_ok_iff.mp hv⟩ .nil)) (by simp; omega) (by simp) (by simp)
              (by simp) h
            simpa [closedBy_append, closedBy_single] using this
        · rename_i hne
          have htk : tok = [] := by simpa using hne
          subst htk
          split at h
          · rename_i hs
            obtain ⟨rfl, -⟩ := hstart hs
            split at h
            · rename_i hhd
              have := compressV6_sound hts hlen h
              cases rest with
              | nil => simp at hhd
              | cons d rest =>
                have hd : d = colon := by simpa using hhd
                simpa [colonText, List.intercalate, hd] using this
            · cases h
          · rename_i hs
            have htne : ts ≠ [] := by
              have := hgoing (by simpa using hs)
              simpa using this
            have := compressV6_sound hts hlen h
            rw [← colonText_closed htne]
            simpa using this
      · split at h
        · rename_i hc
          subst hc
          split at h
          · cases h
          · rename_i h6
            have h6' : front.length = 6 := by simpa using h6
            obtain ⟨q, hq, h⟩ := except_bind_ok h
            cases h
            have htne : ts ≠ [] := by
              rintro rfl
              cases hts
              simp at h6'
            refine .inr (.inl ⟨ts, front, tok ++ dot :: rest, q, hts, h6', dottedV4_ok_iff.mp hq, ?_, ?_⟩)
            · rw [colonText_closed htne]
              simp
            · exact limbsOfList_toList (by simp [quadGroups, h6'])
        · cases h

theorem forwardScan_error {front : List (BitVec 16)} {tok rest : List Byte} {start : Bool} {k : ErrKind}
    (h : forwardScan front tok start rest = .error k) : scanError k := by
  induction rest generalizing front tok start with
  | nil =>
    simp only [forwardScan] at h
    split at h
    · cases h; exact .inl rfl
    · split at h
      · cases h; exact .inl rfl
      · rcases except_bind_error h with h | ⟨v, _, h⟩
        · exact hexGroup_error h
        · split at h
          · cases h; exact .inl rfl
          · cases h
  | cons c rest ih =>
    rw [forwardScan] at h
    split at h
    · exact ih h
    · split at h
      · split at h
        · split at h
          · cases h; exact .inl rfl
          · rcases except_bind_error h with h | ⟨v, _, h⟩
            · exact hexGroup_error h
            · exact ih h
        · split at h
          · split at h
            · exact compressV6_error h
            · cases h; exact .inl rfl
          · exact compressV6_error h
      · split at h
        · split at h
          · cases h; exact .inl rfl
          · rcases except_bind_error h with h | ⟨v, _, h⟩
            · exact dottedV4_error h
            · cases h
        · cases h; exact .inl rfl

/-- The colon scan accepts exactly the texts that stand for an address, with that address. -/
theorem colonV6_ok_iff {t : List Byte} {g : V6Limbs} : colonV6 t = .ok g ↔ addressText t g := by
  refine ⟨fun h => ?_, colonV6_complete⟩
  simpa using forwardScan_sound (ts := []) .nil (by simp) (by simp) (by simp) (by simp) h

theorem colonV6_error {t : List Byte} {k : ErrKind} (h : colonV6 t = .error k) : scanError k := forwardScan_error h

end Sys2Proof.Machine
end

