-- ==== Sys2Proof/Laws/Commands.lean ====
section
/-!
SUPPORT. What the parts of the commands answer: the word of a command, the dispatch of a text command, and that no part of a
command raises BadCommand.
-/

namespace Sys2Proof.Machine

theorem commandWord_eq (opc : Nat) (rd rs1 rs2 : RegIx) : commandWord opc rd rs1 rs2 = packFields opc rd rs1 rs2 0 := by
  simp [commandWord, packFields]

theorem maskWord_eq (opc : Nat) (rd : RegIx) (nbits : Nat) :
    BitVec.ofNat 32 (opc + rd.val * 256 + nbits * 131072) = packFields opc rd 0 0 nbits := by
  simp [packFields]

/-! ### The dispatch of the text commands (R148, R212) -/

theorem specialNames_eq : specialNames = [ascii "localhost", ascii "lo", ascii "loopback", ascii "eth0"] := by decide

theorem textV4_scan {t : List Byte} (h0 : t ≠ []) (hn : t ∉ specialNames) (h1 : t.head? ≠ some slash)
    (h2 : t.head? ≠ some backslash) : textV4 t = dottedV4 t := by
  simp [textV4, h0, hn, h1, h2]

theorem textV6_scan {t : List Byte} (h0 : t ≠ []) (hn : t ∉ specialNames) (h1 : t.head? ≠ some slash)
    (h2 : t.head? ≠ some backslash) : textV6 t = colonV6 t := by
  simp [textV6, h0, hn, h1, h2]

theorem dottedV4_specialName : ∀ t ∈ specialNames, dottedV4 t = .error .malformed := by decide

theorem colonV6_specialName : ∀ t ∈ specialNames, colonV6 t = .error .malformed := by decide

theorem dottedV4_slash (r : List Byte) : dottedV4 (slash :: r) = .error .malformed := by
  simp [dottedV4, dottedScan, show isDec slash = false by decide, show ¬slash = dot by decide]

theorem dottedV4_backslash (r : List Byte) : dottedV4 (backslash :: r) = .error .malformed := by
  simp [dottedV4, dottedScan, show isDec backslash = false by decide, show ¬backslash = dot by decide]

theorem colonV6_slash (r : List Byte) : colonV6 (slash :: r) = .error .malformed := by
  simp [colonV6, forwardScan, show isHex slash = false by decide, show ¬slash = dot by decide,
    show ¬slash = colon by decide]

theorem colonV6_backslash (r : List Byte) : colonV6 (backslash :: r) = .error .malformed := by
  simp [colonV6, forwardScan, show isHex backslash = false by decide, show ¬backslash = dot by decide,
    show ¬backslash = colon by decide]

theorem slash_not_specialName (r : List Byte) : slash :: r ∉ specialNames := by simp [specialNames, slash]

theorem backslash_not_specialName (r : List Byte) : backslash :: r ∉ specialNames := by simp [specialNames, backslash]

/-- A text that a scan accepts is no text that the dispatch takes first. -/
theorem textV4_of_dotted {t : List Byte} {g : V4Limbs} (h : dottedV4 t = .ok g) : textV4 t = .ok g := by
  rw [textV4_scan, h]
  · rintro rfl
    cases h
  · intro hm
    rw [dottedV4_specialName t hm] at h
    cases h
  · intro hd
    obtain ⟨r, rfl⟩ := eq_cons_of_head? hd
    rw [dottedV4_slash] at h
    cases h
  · intro hd
    obtain ⟨r, rfl⟩ := eq_cons_of_head? hd
    rw [dottedV4_backslash] at h
    cases h

theorem textV6_of_colon {t : List Byte} {g : V6Limbs} (h : colonV6 t = .ok g) : textV6 t = .ok g := by
  rw [textV6_scan, h]
  · rintro rfl
    cases h
  · intro hm
    rw [colonV6_specialName t hm] at h
    cases h
  · intro hd
    obtain ⟨r, rfl⟩ := eq_cons_of_head? hd
    rw [colonV6_slash] at h
    cases h
  · intro hd
    obtain ⟨r, rfl⟩ := eq_cons_of_head? hd
    rw [colonV6_backslash] at h
    cases h

theorem textV4_slash (r : List Byte) :
    textV4 (slash :: r) = (maskCount r 32 >>= fun n => pure (limbsOf 8 4 (netMask 32 n))) := by
  simp [textV4, slash_not_specialName]

theorem textV4_backslash (r : List Byte) :
    textV4 (backslash :: r) = (maskCount r 32 >>= fun n => pure (limbsOf 8 4 (wildMask 32 n))) := by
  simp [textV4, backslash_not_specialName, show ¬backslash = slash by decide]

theorem textV6_slash (r : List Byte) :
    textV6 (slash :: r) = (maskCount r 128 >>= fun n => pure (limbsOf 16 8 (netMask 128 n))) := by
  simp [textV6, slash_not_specialName]

theorem textV6_backslash (r : List Byte) :
    textV6 (backslash :: r) = (maskCount r 128 >>= fun n => pure (limbsOf 16 8 (wildMask 128 n))) := by
  simp [textV6, backslash_not_specialName, show ¬backslash = slash by decide]

/-! ### The address inputs (R151, R215) -/

theorem toV4_v4 (h : V4Limbs) : toV4 (.v4 h) = .ok h := rfl

theorem toV4_mapped (a b c d : Byte) :
    toV4 (.v6 #v[0, 0, 0, 0, 0, 0xFFFF, a ++ b, c ++ d]) = .ok #v[a, b, c, d] := by
  simp [toV4, isMapped, lowOctets, append_high, append_low]

theorem toV4_unmapped {h : V6Limbs}
    (hn : ¬(h[0] = 0 ∧ h[1] = 0 ∧ h[2] = 0 ∧ h[3] = 0 ∧ h[4] = 0 ∧ h[5] = 0xFFFF)) :
    toV4 (.v6 h) = .error .illegalRange := by
  have hm : isMapped h = false := by
    rw [← Bool.not_eq_true]
    intro hm
    exact hn (by simpa [isMapped, and_assoc] using hm)
  simp [toV4, hm]

theorem toV6_v6 (h : V6Limbs) : toV6 (.v6 h) = .ok h := rfl

theorem toV6_v4 (a b c d : Byte) :
    toV6 (.v4 #v[a, b, c, d]) = .ok #v[0, 0, 0, 0, 0, 0xFFFF, a ++ b, c ++ d] := by
  rw [toV6, embed_octets]

/-! ### BadCommand is raised by decoding alone -/

/-- A computation that does not end in BadCommand. -/
def notBad {α : Type} (x : Except ErrKind α) : Prop := x ≠ .error .badCommand

theorem notBad_bind {α β : Type} {x : Except ErrKind α} {f : α → Except ErrKind β} (hx : notBad x)
    (hf : ∀ a, notBad (f a)) : notBad (x >>= f) := by
  intro h
  rcases except_bind_error h with h | ⟨a, _, h⟩
  · exact hx h
  · exact hf a h

theorem notBad_pure {α : Type} (a : α) : notBad (pure a : Except ErrKind α) := by intro h; cases h

theorem notBad_scan {α : Type} {x : Except ErrKind α} (h : ∀ k, x = .error k → scanError k) : notBad x := by
  intro e
  rcases h _ e with h | h <;> cases h

theorem notBad_addressValue (v : Int) : notBad (addressValue v) := by
  unfold addressValue
  split <;> intro h <;> cases h

theorem notBad_floatInput (s : State) : notBad (floatInput s) := by
  unfold floatInput
  split
  · intro h; cases h
  · exact notBad_addressValue _

theorem notBad_checkedText (s : State) : notBad (checkedText s) := by
  unfold checkedText
  split <;> intro h <;> cases h

theorem notBad_maskCount (r : List Byte) (width : Nat) : notBad (maskCount r width) := by
  unfold maskCount
  dsimp only
  repeat' split
  all_goals intro h; cases h

theorem notBad_elemValues (s : State) (hi k n : Nat) : notBad (elemValues s hi k n) := by
  intro h
  cases elemValues_error h

theorem notBad_fetch1 (s : State) (r : RegIx) : notBad (fetch1 s r) := by
  rcases fetch1_cases s r with ⟨_, h⟩ | ⟨_, h⟩ <;> rw [h] <;> intro h <;> cases h

theorem notBad_fetch2 (s : State) (r q : RegIx) : notBad (fetch2 s r q) := by
  rcases fetch2_cases s r q with ⟨_, h⟩ | ⟨_, _, _, _, h⟩ | ⟨_, _, _, _, h⟩ | h <;> rw [h] <;> intro h <;> cases h

theorem notBad_maskBits (width n : Nat) : notBad (maskBits width n) := by
  unfold maskBits
  split <;> intro h <;> cases h

theorem notBad_textV4 (t : List Byte) : notBad (textV4 t) := by
  unfold textV4
  repeat' split
  · intro h; cases h
  · intro h; cases h
  · exact notBad_bind (notBad_maskCount _ _) fun _ => notBad_pure _
  · exact notBad_bind (notBad_maskCount _ _) fun _ => notBad_pure _
  · exact notBad_scan fun _ => dottedV4_error

theorem notBad_textV6 (t : List Byte) : notBad (textV6 t) := by
  unfold textV6
  repeat' split
  · intro h; cases h
  · intro h; cases h
  · exact notBad_bind (notBad_maskCount _ _) fun _ => notBad_pure _
  · exact notBad_bind (notBad_maskCount _ _) fun _ => notBad_pure _
  · exact notBad_scan fun _ => colonV6_error

theorem notBad_listV4 (s : State) : notBad (listV4 s) := by
  unfold listV4
  split
  · intro h; cases h
  · exact notBad_bind (notBad_elemValues _ _ _ _) fun _ => notBad_pure _

theorem notBad_listV6 (s : State) : notBad (listV6 s) := by
  unfold listV6
  repeat' split
  · exact notBad_bind (notBad_elemValues _ _ _ _) fun _ => notBad_pure _
  · exact notBad_bind (notBad_elemValues _ _ _ _) fun _ => notBad_bind (notBad_elemValues _ _ _ _) fun _ => notBad_pure _
  · intro h; cases h

theorem notBad_toV4 (v : AReg) : notBad (toV4 v) := by
  unfold toV4
  repeat' split
  all_goals intro h; cases h

theorem notBad_toV6 (v : AReg) : notBad (toV6 v) := by
  unfold toV6
  repeat' split
  all_goals intro h; cases h

theorem notBad_binaryAlu (op : (w n : Nat) → Limbs w n → Limbs w n → Limbs w n) (s : State) (r q : RegIx) :
    notBad (binaryAlu op s r q) := by
  refine notBad_bind (notBad_fetch2 _ _ _) fun a => ?_
  cases a <;> exact notBad_pure _

theorem notBad_unaryAlu (op : (w n : Nat) → Limbs w n → Limbs w n) (s : State) (r : RegIx) :
    notBad (unaryAlu op s r) := by
  refine notBad_bind (notBad_fetch1 _ _) fun a => ?_
  cases a
  · intro h; cases h
  · exact notBad_pure _
  · exact notBad_pure _

end Sys2Proof.Machine
end

