-- ==== Sys2Proof/Laws/Float.lean ====
section
/-! SUPPORT. The truncation of a binary64 pattern is the truncation of the number it stands for (R145). -/

namespace Sys2Proof.Machine

theorem truncRat_natCast_div (m d : Nat) : truncRat ((m : ℚ) / d) = ((m / d : Nat) : ℤ) := by
  have h : (0 : ℚ) ≤ (m : ℚ) / d := by positivity
  rw [truncRat, if_pos h]
  have := Rat.floor_intCast_div_natCast (m : ℤ) d
  simpa using this

/-- Rounding toward zero keeps the sign apart. -/
theorem truncRat_neg {q : ℚ} (h : 0 ≤ q) : truncRat (-q) = -truncRat q := by
  rw [truncRat, truncRat, if_pos h]
  split
  · rename_i h'
    have : q = 0 := by linarith
    subst this
    simp
  · rw [Int.ceil_neg]

/-- An infinity or a NaN has the exponent field all ones. -/
theorem exponent_field (x : BitVec 64) : (x.extractLsb' 52 11).toNat = x.toNat / 2 ^ 52 % 2 ^ 11 := by
  simp [Nat.shiftRight_eq_div_pow]

theorem fraction_field (x : BitVec 64) : (x.extractLsb' 0 52).toNat = x.toNat % 2 ^ 52 := by simp

theorem finite64_iff (x : BitVec 64) : finite64 x ↔ x.toNat / 2 ^ 52 % 2 ^ 11 ≠ 2047 := by
  rw [finite64, ne_eq, ← BitVec.toNat_inj, exponent_field]
  rfl

/-- The magnitude of a binary64 number as a natural times a power of two, truncated. -/
theorem truncRat_scaled (m p : Nat) :
    truncRat ((m : ℚ) * 2 ^ ((p : ℤ) - 1075)) =
      ((if p ≥ 1075 then m * 2 ^ (p - 1075) else m / 2 ^ (1075 - p) : Nat) : ℤ) := by
  split
  · rename_i h
    have e : ((p : ℤ) - 1075) = ((p - 1075 : Nat) : ℤ) := by omega
    rw [e, zpow_natCast]
    have := truncRat_natCast_div (m * 2 ^ (p - 1075)) 1
    rwa [Nat.cast_one, div_one, Nat.div_one, Nat.cast_mul, Nat.cast_pow, Nat.cast_ofNat] at this
  · rename_i h
    have e : ((p : ℤ) - 1075) = -((1075 - p : Nat) : ℤ) := by omega
    rw [e, zpow_neg, zpow_natCast, ← div_eq_mul_inv, ← truncRat_natCast_div]
    norm_num

theorem truncBinary64_none {x : BitVec 64} (h : ¬finite64 x) : truncBinary64 x = none := by
  rw [finite64_iff, not_not] at h
  simp only [truncBinary64, h, if_true]

theorem truncBinary64_some {x : BitVec 64} (h : finite64 x) : truncBinary64 x = some (truncRat (value64 x)) := by
  have h' := (finite64_iff x).mp h
  have hm : ∀ q m : ℚ, 0 ≤ q → q = m → (if x.getLsbD 63 then -truncRat m else truncRat m) =
      truncRat (if x.getLsbD 63 then -q else q) := by
    intro q m hq e
    subst e
    split
    · exact (truncRat_neg hq).symm
    · rfl
  simp only [truncBinary64, h', if_false]
  rw [value64]
  simp only [exponent_field, fraction_field]
  generalize x.toNat / 2 ^ 52 % 2 ^ 11 = e
  generalize x.toNat % 2 ^ 52 = f
  congr 1
  by_cases he : e = 0
  · subst he
    have hs : (2 : ℚ) ^ (((1 : Nat) : ℤ) - 1075) = 2 ^ (-1022 : ℤ) / 2 ^ 52 := by
      have : ((1 : Nat) : ℤ) - 1075 = -1022 - 52 := by norm_num
      rw [this, zpow_sub₀ (by norm_num)]
      rfl
    rw [← hm _ ((f : ℚ) * 2 ^ (((1 : Nat) : ℤ) - 1075)) (by rw [if_pos rfl]; positivity) ?_]
    · rw [truncRat_scaled]
      rfl
    · rw [if_pos rfl, hs, div_mul_eq_mul_div, mul_div_assoc]
  · rw [← hm _ (((2 ^ 52 + f : Nat) : ℚ) * 2 ^ ((e : ℤ) - 1075)) (by rw [if_neg he]; positivity) ?_]
    · rw [truncRat_scaled]
      simp only [he, if_false]
      rfl
    · rw [if_neg he]
      have : (e : ℤ) - 1023 = (e : ℤ) - 1075 + 52 := by ring
      rw [this, zpow_add₀ (by norm_num)]
      push_cast
      norm_num
      ring

/-- Everything the float input can answer. -/
theorem floatInput_finite {s : State} (h : finite64 (inVal s)) :
    floatInput s = addressValue (truncRat (value64 (inVal s))) := by
  simp only [floatInput, truncBinary64_some h]

theorem floatInput_nonfinite {s : State} (h : ¬finite64 (inVal s)) : floatInput s = .error .illegalValue := by
  simp only [floatInput, truncBinary64_none h]

end Sys2Proof.Machine
end

