-- ==== Sys2Proof/Laws/PerInstr.lean ====
section
/-!
SUPPORT. Facts about every command, one lemma for each constructor. `Sys2Proof.Laws.RdInWord`: the RD field of a command's
word is the register the command names as its destination (R101, R110).
-/

namespace Sys2Proof.Laws

/-- The RD field of a well-formed command's word is its destination. -/
def RdInWord.Statement (i : Instr) : Prop := i.wellFormed = true → rdField (encode i) = destination i

theorem RdInWord.d4abs (rd : RegIx) : RdInWord.Statement (.d4abs rd) := fun _ =>
  rdField_packFields rd 0 0 (by decide) (by decide)

theorem RdInWord.d4true (rd : RegIx) : RdInWord.Statement (.d4true rd) := fun _ =>
  rdField_packFields rd 0 0 (by decide) (by decide)

theorem RdInWord.d4int (rd : RegIx) : RdInWord.Statement (.d4int rd) := fun _ =>
  rdField_packFields rd 0 0 (by decide) (by decide)

theorem RdInWord.d4flt (rd : RegIx) : RdInWord.Statement (.d4flt rd) := fun _ =>
  rdField_packFields rd 0 0 (by decide) (by decide)

theorem RdInWord.d4txt (rd : RegIx) : RdInWord.Statement (.d4txt rd) := fun _ =>
  rdField_packFields rd 0 0 (by decide) (by decide)

theorem RdInWord.d4lst (rd : RegIx) : RdInWord.Statement (.d4lst rd) := fun _ =>
  rdField_packFields rd 0 0 (by decide) (by decide)

theorem RdInWord.d4adr (rd rs1 : RegIx) : RdInWord.Statement (.d4adr rd rs1) := fun _ =>
  rdField_packFields rd rs1 0 (by decide) (by decide)

theorem RdInWord.d6abs (rd : RegIx) : RdInWord.Statement (.d6abs rd) := fun _ =>
  rdField_packFields rd 0 0 (by decide) (by decide)

theorem RdInWord.d6true (rd : RegIx) : RdInWord.Statement (.d6true rd) := fun _ =>
  rdField_packFields rd 0 0 (by decide) (by decide)

theorem RdInWord.d6int (rd : RegIx) : RdInWord.Statement (.d6int rd) := fun _ =>
  rdField_packFields rd 0 0 (by decide) (by decide)

theorem RdInWord.d6flt (rd : RegIx) : RdInWord.Statement (.d6flt rd) := fun _ =>
  rdField_packFields rd 0 0 (by decide) (by decide)

theorem RdInWord.d6txt (rd : RegIx) : RdInWord.Statement (.d6txt rd) := fun _ =>
  rdField_packFields rd 0 0 (by decide) (by decide)

theorem RdInWord.d6lst (rd : RegIx) : RdInWord.Statement (.d6lst rd) := fun _ =>
  rdField_packFields rd 0 0 (by decide) (by decide)

theorem RdInWord.d6adr (rd rs1 : RegIx) : RdInWord.Statement (.d6adr rd rs1) := fun _ =>
  rdField_packFields rd rs1 0 (by decide) (by decide)

theorem RdInWord.m4net (rd : RegIx) (nbits : Nat) : RdInWord.Statement (.m4net rd nbits) := fun h =>
  rdField_packFields rd 0 0 (by decide) (by simpa [Instr.wellFormed] using h)

theorem RdInWord.m4wild (rd : RegIx) (nbits : Nat) : RdInWord.Statement (.m4wild rd nbits) := fun h =>
  rdField_packFields rd 0 0 (by decide) (by simpa [Instr.wellFormed] using h)

theorem RdInWord.m6net (rd : RegIx) (nbits : Nat) : RdInWord.Statement (.m6net rd nbits) := fun h =>
  rdField_packFields rd 0 0 (by decide) (by simpa [Instr.wellFormed] using h)

theorem RdInWord.m6wild (rd : RegIx) (nbits : Nat) : RdInWord.Statement (.m6wild rd nbits) := fun h =>
  rdField_packFields rd 0 0 (by decide) (by simpa [Instr.wellFormed] using h)

theorem RdInWord.and (rd rs1 rs2 : RegIx) : RdInWord.Statement (.and rd rs1 rs2) := fun _ =>
  rdField_packFields rd rs1 rs2 (by decide) (by decide)

theorem RdInWord.or (rd rs1 rs2 : RegIx) : RdInWord.Statement (.or rd rs1 rs2) := fun _ =>
  rdField_packFields rd rs1 rs2 (by decide) (by decide)

theorem RdInWord.not (rd rs1 : RegIx) : RdInWord.Statement (.not rd rs1) := fun _ =>
  rdField_packFields rd rs1 0 (by decide) (by decide)

theorem RdInWord.add (rd rs1 rs2 : RegIx) : RdInWord.Statement (.add rd rs1 rs2) := fun _ =>
  rdField_packFields rd rs1 rs2 (by decide) (by decide)

theorem RdInWord.sub (rd rs1 rs2 : RegIx) : RdInWord.Statement (.sub rd rs1 rs2) := fun _ =>
  rdField_packFields rd rs1 rs2 (by decide) (by decide)

end Sys2Proof.Laws
end

