-- ==== Sys2Proof/Laws/Scan.lean ====
section
/-!
SUPPORT. Where the text scanners fail: the dotted scan raises an error exactly where `DottedFails` says, and the colon scan
exactly where `ColonFails` says.
-/

namespace Sys2Proof.Machine

/-! ### Tokens -/

theorem error_eq_iff {α : Type} {a b : ErrKind} : (Except.error a : Except ErrKind α) = .error b ↔ b = a := by
  constructor <;> (intro h; cases h; rfl)

theorem isDec_false_of_isHex {c : Byte} (h : isHex c = false) : isDec c = false := by
  cases hd : isDec c with
  | false => rfl
  | true => rw [isHex_of_isDec hd] at h; cases h

theorem octetValue_error_iff {t : List Byte} {k : ErrKind} : octetValue t = .error k ↔ octetFails t k := by
  unfold octetValue octetFails
  by_cases ha : t.all isDec = true
  · have hd : ∀ c ∈ t, isDec c = true := by simpa using ha
    have hn : ¬∃ c ∈ t, isDec c = false := by
      rintro ⟨c, hc, h⟩
      rw [hd c hc] at h
      cases h
    simp only [ha, Bool.not_true, Bool.false_eq_true, if_false, hn, false_and, false_or]
    by_cases h0 : t = []
    · simp [h0, error_eq_iff, -Except.error.injEq]
    · by_cases h1 : decVal t > 255
      · simp only [h0, h1, if_false, if_true, error_eq_iff, or_true, true_and]
        exact ⟨fun h => ⟨hd, h⟩, fun h => h.2⟩
      · simp [h0, h1]
  · have hn : ∃ c ∈ t, isDec c = false := by simpa using ha
    have hd : ¬∀ c ∈ t, isDec c = true := by simpa using ha
    simp only [ha, Bool.not_false, if_true, error_eq_iff, hn, true_and, hd, false_and, or_false]

theorem octetValue_bad {t : List Byte} (hd : ∀ c ∈ t, isDec c = true) (h : t = [] ∨ 255 < decVal t) :
    octetValue t = .error .illegalValue := octetValue_error_iff.mpr (.inr ⟨hd, h, rfl⟩)

theorem octetValue_digits_error {t : List Byte} {k : ErrKind} (hd : ∀ c ∈ t, isDec c = true)
    (h : octetValue t = .error k) : (t = [] ∨ 255 < decVal t) ∧ k = .illegalValue := by
  rcases octetValue_error_iff.mp h with ⟨⟨c, hc, h⟩, _⟩ | ⟨_, h⟩
  · rw [hd c hc] at h
    cases h
  · exact h

theorem hexGroup_error_iff {t : List Byte} {k : ErrKind} :
    hexGroup t = .error k ↔ 0xFFFF < hexVal t ∧ k = .illegalValue := by
  unfold hexGroup
  split
  · rename_i h
    have hv : 0xFFFF < hexVal t := h
    simp only [error_eq_iff, hv, true_and]
  · rename_i h
    have hv : ¬0xFFFF < hexVal t := h
    simp only [hv, false_and, reduceCtorEq]

theorem ne_nil_of_hexVal {t : List Byte} {n : Nat} (h : n < hexVal t) : t ≠ [] := by
  rintro rfl
  exact absurd h (Nat.not_lt_zero n)

/-! ### The dotted scan (R147) -/

theorem dottedScan_closed {ts : List (List Byte)} {ls limbs : List Byte} (rest : List Byte)
    (h : List.Forall₂ octetToken ts ls) (hl : limbs.length + ls.length ≤ 4) :
    dottedScan limbs [] (closedBy dot ts ++ rest) = dottedScan (limbs ++ ls) [] rest := by
  induction h generalizing limbs with
  | nil => simp [closedBy]
  | @cons t v ts vs h1 h2 ih =>
    simp only [List.length_cons] at hl
    have h4 : limbs.length ≠ 4 := by omega
    have e : closedBy dot (t :: ts) ++ rest = t ++ dot :: (closedBy dot ts ++ rest) := by simp [closedBy]
    rw [e, dottedScan_digits _ _ _ _ h1.2.1, List.nil_append, dottedScan]
    simp only [isDec_dot, Bool.false_eq_true, if_false, if_true, h4, octetValue_ok_iff.mpr h1, except_ok_bind]
    rw [ih (by simp; omega)]
    simp

theorem dottedScan_token {ts : List (List Byte)} {ls tok : List Byte} (rest : List Byte)
    (h : List.Forall₂ octetToken ts ls) (hl : ls.length ≤ 4) (hd : ∀ d ∈ tok, isDec d = true) :
    dottedScan [] [] (closedBy dot ts ++ tok ++ rest) = dottedScan ls tok rest := by
  rw [List.append_assoc, dottedScan_closed _ h (by simpa using hl), dottedScan_digits _ _ _ _ hd]
  simp

theorem dottedFails_scan {t : List Byte} {k : ErrKind} (h : DottedFails t k) : dottedScan [] [] t = .error k := by
  cases h with
  | badByte closed room digits noDigit noDot =>
    rw [dottedScan_token _ closed room digits, dottedScan]
    simp [noDigit, noDot]
  | fifthDot closed four digits =>
    rw [dottedScan_token _ closed (by omega) digits, dottedScan]
    simp [four]
  | badOctet closed room digits bad =>
    have h4 := Nat.ne_of_lt room
    rw [dottedScan_token _ closed (by omega) digits, dottedScan]
    simp [h4, octetValue_bad digits bad]
  | fifthLimb closed four digits =>
    rw [← List.append_nil (_ ++ _), dottedScan_token _ closed (by omega) digits, dottedScan]
    simp [four]
  | badLast closed room digits bad =>
    have h4 := Nat.ne_of_lt room
    rw [← List.append_nil (_ ++ _), dottedScan_token _ closed (by omega) digits, dottedScan]
    simp [h4, octetValue_bad digits bad]
  | tooFew closed few last =>
    rw [← List.append_nil (_ ++ _), dottedScan_token _ closed (by omega) last.2.1, dottedScan]
    have h4 : ∀ n, n < 3 → n ≠ 4 ∧ n ≠ 3 := by omega
    simp [(h4 _ few).1, (h4 _ few).2, octetValue_ok_iff.mpr last]

theorem closedBy_concat (c : Byte) (ts : List (List Byte)) (t : List Byte) :
    closedBy c (ts ++ [t]) = closedBy c ts ++ (t ++ [c]) := by simp [closedBy]

theorem dottedScan_fails {ts : List (List Byte)} {limbs tok rest : List Byte} {k : ErrKind}
    (hts : List.Forall₂ octetToken ts limbs) (hl : limbs.length ≤ 4) (htok : ∀ c ∈ tok, isDec c = true)
    (h : dottedScan limbs tok rest = .error k) : DottedFails (closedBy dot ts ++ tok ++ rest) k := by
  induction rest generalizing ts limbs tok with
  | nil =>
    rw [List.append_nil]
    simp only [dottedScan] at h
    split at h
    · cases h
      exact .fifthLimb hts ‹_› htok
    · rename_i h4
      rcases except_bind_error h with h | ⟨v, hv, h⟩
      · obtain ⟨hb, rfl⟩ := octetValue_digits_error htok h
        exact .badLast hts (by omega) htok hb
      · split at h
        · cases h
          exact .tooFew hts (by omega) (octetValue_ok_iff.mp hv)
        · cases h
  | cons c rest ih =>
    rw [dottedScan] at h
    split at h
    · rename_i hc
      have := ih hts hl (by simpa [or_imp, forall_and] using ⟨htok, hc⟩) h
      simpa using this
    · rename_i hc
      split at h
      · rename_i hd
        subst hd
        split at h
        · cases h
          exact .fifthDot hts ‹_› htok
        · rename_i h4
          rcases except_bind_error h with h | ⟨v, hv, h⟩
          · obtain ⟨hb, rfl⟩ := octetValue_digits_error htok h
            exact .badOctet hts (by omega) htok hb
          · have := ih (ts := ts ++ [tok]) (List.rel_append hts (.cons (octetValue_ok_iff.mp hv) .nil))
              (by simp; omega) (by simp) h
            simpa [closedBy_concat] using this
      · cases h
        exact .badByte hts hl htok (by simpa using hc) ‹_›

/-- The dotted scan raises an error exactly where `DottedFails` says. -/
theorem dottedV4_error_iff {t : List Byte} {k : ErrKind} : dottedV4 t = .error k ↔ DottedFails t k := by
  constructor
  · intro h
    rcases except_bind_error h with h | ⟨l, _, h⟩
    · simpa [closedBy] using dottedScan_fails (ts := []) .nil (by simp) (by simp) h
    · cases h
  · intro h
    rw [dottedV4, dottedFails_scan h]
    rfl

/-! ### The backward phase (R210) -/

/-- The working state of a backward scan that has closed `b` groups, or `o` octets of a quad it has not finished. -/
structure backCounts (back : List (BitVec 16)) (quad : List Byte) (iq : Bool) (b o : Nat) : Prop where
  groups : back.length = b
  octets : iq = true → quad.length = o ∧ 0 < o ∧ b = 0
  none : iq = false → o = 0 ∧ (b = 0 → quad = [])

theorem closeBack_error_iff {f b o : Nat} {back : List (BitVec 16)} {quad t : List Byte} {iq : Bool} {k : ErrKind}
    (hs : backCounts back quad iq b o) (ht : t ≠ []) : closeBack f back quad iq t = .error k ↔ closeFails f b o t k := by
  unfold closeFails
  simp only [ht, false_and, ne_eq, not_false_eq_true, true_and, false_or]
  cases iq with
  | true =>
    obtain ⟨h1, h2, rfl⟩ := hs.octets rfl
    have hb : back.length = 0 := hs.groups
    have ho : o ≠ 0 := by omega
    simp only [closeBack, if_true, ho, if_false, ← octetValue_error_iff]
    cases hv : octetValue t with
    | error e => simp [← octetValue_ok_iff, hv, error_eq_iff, -Except.error.injEq]
    | ok v =>
      have : ∃ v, octetToken t v := ⟨v, octetValue_ok_iff.mp hv⟩
      simp only [except_ok_bind, reduceCtorEq, false_or, this, true_and, List.length_cons, h1, hb]
      split
      · have : o ≠ 3 := by omega
        simp [this, error_eq_iff, -Except.error.injEq]
      · have : o = 3 := by omega
        subst this
        split
        · rename_i hf
          have : 7 < f + 0 + 2 := hf
          simp only [not_true_eq_false, this, or_true, true_and, error_eq_iff]
        · rename_i hf
          have : ¬7 < f + 0 + 2 := hf
          simp [this]
  | false =>
    obtain ⟨rfl, _⟩ := hs.none rfl
    have hb := hs.groups
    simp only [closeBack, Bool.false_eq_true, if_false, if_true, hb]
    split
    · rename_i hf
      have h1 : 7 < f + b + 1 := hf
      have h2 : ¬f + b + 1 ≤ 7 := by omega
      simp [h1, h2, error_eq_iff, -Except.error.injEq]
    · rename_i hf
      have h1 : ¬7 < f + b + 1 := hf
      have h2 : f + b + 1 ≤ 7 := by omega
      cases hv : hexGroup t with
      | error e =>
        obtain ⟨hx, rfl⟩ := hexGroup_error_iff.mp hv
        simp only [h1, false_and, false_or, h2, hx, true_and]
        exact error_eq_iff
      | ok v =>
        have : ¬0xFFFF < hexVal t := by
          intro hx
          rw [hexGroup_error_iff.mpr ⟨hx, rfl⟩] at hv
          cases hv
        simp only [h1, false_and, this, and_false, or_false, except_ok_bind, except_pure, reduceCtorEq]

/-- Reading group tokens with a ':' before each, right to left. -/
theorem backwardScan_openedGroups {f : Nat} {us : List (List Byte)} {hs back : List (BitVec 16)} {quad : List Byte}
    (rest : List Byte) (h : List.Forall₂ groupToken us hs) (hf : f + hs.length + back.length ≤ 7) :
    backwardScan f back quad false [] ((openedBy colon us).reverse ++ rest) =
      backwardScan f (hs ++ back) quad false [] rest := by
  induction h generalizing rest with
  | nil => simp [openedBy]
  | @cons t v us hs h1 h2 ih =>
    simp only [List.length_cons] at hf
    have e : (openedBy colon (t :: us)).reverse ++ rest =
        (openedBy colon us).reverse ++ (t.reverse ++ (colon :: rest)) := by simp [openedBy]
    rw [e, ih _ (by omega), backwardScan_hex _ _ _ _ _ _ _ h1.2.1, List.append_nil, backwardScan]
    simp only [isHex_colon, Bool.false_eq_true, if_false, colon_ne_dot, if_true, h1.1]
    rw [closeBack_group h1 (by simp; omega)]
    rfl

/-- Reading octet tokens with a '.' before each, right to left. -/
theorem backwardScan_openedOctets {f : Nat} {ts : List (List Byte)} {vs : List Byte} (rest : List Byte)
    (h : List.Forall₂ octetToken ts vs) (hl : vs.length ≤ 3) :
    backwardScan f [] [] false [] ((openedBy dot ts).reverse ++ rest) = backwardScan f [] vs (!vs.isEmpty) [] rest := by
  induction h generalizing rest with
  | nil => simp [openedBy]
  | @cons t v ts vs h1 h2 ih =>
    simp only [List.length_cons] at hl
    have h3 : vs.length ≠ 3 := by omega
    have hx : ∀ c ∈ t, isHex c = true := fun c hc => isHex_of_isDec (h1.2.1 c hc)
    have e : (openedBy dot (t :: ts)).reverse ++ rest =
        (openedBy dot ts).reverse ++ (t.reverse ++ (dot :: rest)) := by simp [openedBy]
    rw [e, ih _ (by omega), backwardScan_hex _ _ _ _ _ _ _ hx, List.append_nil, backwardScan]
    simp [h3, octetValue_ok_iff.mpr h1]

/-- A backward scan that has read what `BackClosed` says stands in a state with its counts. -/
theorem backwardScan_closed {f b o : Nat} {tail : List Byte} (h : BackClosed tail b o) (hf : f + b ≤ 7) :
    ∃ back quad iq, backCounts back quad iq b o ∧
      ∀ rest, backwardScan f [] [] false [] (tail.reverse ++ rest) = backwardScan f back quad iq [] rest := by
  cases h with
  | @groups us hs closed =>
    refine ⟨hs, [], false, ⟨rfl, by simp, by simp⟩, fun rest => ?_⟩
    rw [backwardScan_openedGroups rest closed (by simpa using hf), List.append_nil]
  | @quad us hs u q closed isQuad =>
    obtain ⟨t0, t1, t2, t3, o0, o1, o2, o3, rfl⟩ := quadText_toList isQuad
    refine ⟨hs ++ quadGroups q, [q[1], q[2], q[3]], false, ⟨by simp [quadGroups], by simp, by simp⟩, fun rest => ?_⟩
    have e : (openedBy colon (us ++ [t0 ++ dot :: t1 ++ dot :: t2 ++ dot :: t3])).reverse ++ rest =
        (t0 ++ dot :: t1 ++ dot :: t2 ++ dot :: t3).reverse ++ (colon :: ((openedBy colon us).reverse ++ rest)) := by
      simp [openedBy]
    rw [e, backwardScan_quad o0 o1 o2 o3, backwardScan]
    simp only [isHex_colon, Bool.false_eq_true, if_false, colon_ne_dot, if_true, o0.1]
    rw [closeBack_quad o0 (by omega), except_ok_bind, backwardScan_openedGroups rest closed (by simp [quadGroups]; omega)]
  | @octets ts vs closed hsome few =>
    have hne : vs ≠ [] := by rintro rfl; simp at hsome
    have hiq : (!vs.isEmpty) = true := by simpa using hne
    refine ⟨[], vs, true, ⟨rfl, fun _ => ⟨rfl, hsome, rfl⟩, by simp⟩, fun rest => ?_⟩
    rw [backwardScan_openedOctets rest closed few, hiq]

theorem backCounts.octets_le {back : List (BitVec 16)} {quad : List Byte} {iq : Bool} {b o : Nat}
    (hs : backCounts back quad iq b o) (hb : b = 0) : quad.length = o := by
  cases iq with
  | true => exact (hs.octets rfl).1
  | false =>
    obtain ⟨rfl, h⟩ := hs.none rfl
    rw [h hb]
    rfl

theorem backFails_scan {f : Nat} {t : List Byte} {k : ErrKind} (h : BackFails f t k) :
    backwardScan f [] [] false [] t.reverse = .error k := by
  cases h with
  | @badByte tail pre tok b o c closed room digits noDigit noDot noColon =>
    obtain ⟨back, quad, iq, hs, e⟩ := backwardScan_closed closed room
    have er : (pre ++ c :: tok ++ tail).reverse = tail.reverse ++ (tok.reverse ++ c :: pre.reverse) := by simp
    rw [er, e, backwardScan_hex _ _ _ _ _ _ _ digits, backwardScan]
    simp [noDigit, noDot, noColon]
  | @badDot tail pre tok b o closed room digits bad =>
    obtain ⟨back, quad, iq, hs, e⟩ := backwardScan_closed closed room
    have er : (pre ++ dot :: tok ++ tail).reverse = tail.reverse ++ (tok.reverse ++ dot :: pre.reverse) := by simp
    rw [er, e, backwardScan_hex _ _ _ _ _ _ _ digits, backwardScan]
    simp only [isHex_dot, Bool.false_eq_true, if_false, if_true, hs.groups]
    by_cases hb : b > 0
    · rw [if_pos hb]
    · have ho : quad.length = 3 := by
        rw [hs.octets_le (by omega)]
        exact bad.resolve_left hb
      rw [if_neg hb, if_pos ho]
  | @badOctet tail pre tok o k closed room digits few bad =>
    obtain ⟨back, quad, iq, hs, e⟩ := backwardScan_closed closed (f := f) (by omega)
    have er : (pre ++ dot :: tok ++ tail).reverse = tail.reverse ++ (tok.reverse ++ dot :: pre.reverse) := by simp
    have ho : ¬quad.length = 3 := by
      rw [hs.octets_le rfl]
      omega
    rw [er, e, backwardScan_hex _ _ _ _ _ _ _ digits, backwardScan]
    simp [hs.groups, ho, octetValue_error_iff.mpr bad]
  | @badClose tail pre tok b o k closed room digits bad =>
    obtain ⟨back, quad, iq, hs, e⟩ := backwardScan_closed closed room
    have er : (pre ++ colon :: tok ++ tail).reverse = tail.reverse ++ (tok.reverse ++ colon :: pre.reverse) := by simp
    rw [er, e, backwardScan_hex _ _ _ _ _ _ _ digits, List.append_nil, backwardScan]
    simp only [isHex_colon, Bool.false_eq_true, if_false, colon_ne_dot, if_true]
    by_cases h0 : tok = []
    · rw [if_pos h0]
      rcases bad with ⟨_, rfl⟩ | ⟨h, _⟩
      · rfl
      · exact absurd h0 h
    · rw [if_neg h0, (closeBack_error_iff hs h0).mpr bad]
      rfl
  | @badFirst tail tok b o k closed room digits bad =>
    obtain ⟨back, quad, iq, hs, e⟩ := backwardScan_closed closed room
    have er : (tok ++ tail).reverse = tail.reverse ++ (tok.reverse ++ []) := by simp
    rw [er, e, backwardScan_hex _ _ _ _ _ _ _ digits, List.append_nil, backwardScan]
    by_cases h0 : tok = []
    · rw [if_pos h0]
      rcases bad with ⟨_, rfl⟩ | ⟨h, _⟩
      · rfl
      · exact absurd h0 h
    · rw [if_neg h0, (closeBack_error_iff hs h0).mpr bad]

/-- The text a backward scan has closed, by its working state. -/
structure backReads (tail : List Byte) (back : List (BitVec 16)) (quad : List Byte) (iq : Bool) : Prop where
  octets : iq = true → back = [] ∧ quad ≠ [] ∧ ∃ ts, List.Forall₂ octetToken ts quad ∧ tail = openedBy dot ts
  groups : iq = false → ∃ ts, backTokens ts back ∧ tail = openedBy colon ts
  fresh : iq = false → back = [] → quad = [] ∧ tail = []

theorem backTokens.closed {ts : List (List Byte)} {gs : List (BitVec 16)} (h : backTokens ts gs) :
    BackClosed (openedBy colon ts) gs.length 0 := by
  rcases h with h | ⟨us, hs, u, q, h1, h2, rfl, rfl⟩
  · exact .groups h
  · have : (hs ++ quadGroups q).length = hs.length + 2 := by simp [quadGroups]
    rw [this]
    exact .quad h1 h2

theorem backReads.counts {tail quad : List Byte} {back : List (BitVec 16)} {iq : Bool} (h : backReads tail back quad iq)
    (hq : quad.length ≤ 3) : ∃ o, BackClosed tail back.length o ∧ backCounts back quad iq back.length o := by
  cases iq with
  | true =>
    obtain ⟨rfl, hne, ts, h1, rfl⟩ := h.octets rfl
    have hpos : 0 < quad.length := List.length_pos_of_ne_nil hne
    exact ⟨_, .octets h1 hpos hq, rfl, fun _ => ⟨rfl, hpos, rfl⟩, by simp⟩
  | false =>
    obtain ⟨ts, h1, rfl⟩ := h.groups rfl
    exact ⟨0, h1.closed, rfl, by simp, fun _ => ⟨rfl, fun hb => (h.fresh rfl (List.length_eq_zero_iff.mp hb)).1⟩⟩

/-- Closing a token leaves '::' a group to stand for. -/
theorem closeBack_room {f : Nat} {back b : List (BitVec 16)} {quad t : List Byte} {iq : Bool}
    (h : closeBack f back quad iq t = .ok b) : f + b.length ≤ 7 ∧ b ≠ [] := by
  unfold closeBack at h
  split at h
  · obtain ⟨v, _, h⟩ := except_bind_ok h
    dsimp only at h
    split at h
    · cases h
    · split at h
      · cases h
      · cases h
        exact ⟨by simp [quadGroups]; omega, by simp [quadGroups]⟩
  · split at h
    · cases h
    · obtain ⟨v, _, h⟩ := except_bind_ok h
      cases h
      exact ⟨by simp; omega, by simp⟩

theorem closeBack_reads {f : Nat} {tail : List Byte} {back b : List (BitVec 16)} {quad t : List Byte} {iq : Bool}
    (hs : backReads tail back quad iq) (hne : t ≠ []) (ht : ∀ c ∈ t, isHex c = true)
    (h : closeBack f back quad iq t = .ok b) : ∃ ts, backTokens ts b ∧ colon :: t ++ tail = openedBy colon ts := by
  cases iq with
  | true =>
    obtain ⟨rfl, _, os, ho, rfl⟩ := hs.octets rfl
    obtain ⟨ts, h1, _, _, _, h5⟩ := closeBack_sound (bts := []) (os := os)
      ⟨fun _ => ⟨rfl, ho⟩, by simp, by simp⟩ hne ht h
    refine ⟨ts, h1, ?_⟩
    cases ts with
    | nil => simp [closedBack, colonText, List.intercalate, hne] at h5
    | cons x xs =>
      rw [colonText, intercalate_cons] at h5
      simp only [closedBack, if_true] at h5
      simp [openedBy, h5]
  | false =>
    obtain ⟨bts, hb, rfl⟩ := hs.groups rfl
    have hx : ∃ v, hexGroup t = .ok v ∧ b = v :: back := by
      simp only [closeBack, Bool.false_eq_true, if_false] at h
      split at h
      · cases h
      · obtain ⟨v, hv, h⟩ := except_bind_ok h
        cases h
        exact ⟨v, hv, rfl⟩
    obtain ⟨v, hv, rfl⟩ := hx
    exact ⟨t :: bts, backTokens.cons ⟨hne, ht, hexGroup_ok_iff.mp hv⟩ hb, by simp [openedBy]⟩

theorem backwardScan_fails {f : Nat} {tail : List Byte} {back : List (BitVec 16)} {quad tok rev : List Byte} {iq : Bool}
    {k : ErrKind} (hs : backReads tail back quad iq) (hf : f + back.length ≤ 7) (hq : quad.length ≤ 3)
    (htok : ∀ c ∈ tok, isHex c = true) (h : backwardScan f back quad iq tok rev = .error k) :
    BackFails f (rev.reverse ++ tok ++ tail) k := by
  induction rev generalizing tail back quad tok iq with
  | nil =>
    obtain ⟨o, hc, hn⟩ := hs.counts hq
    simp only [backwardScan] at h
    simp only [List.reverse_nil, List.nil_append]
    split at h
    · cases h
      exact .badFirst hc hf htok (.inl ⟨‹_›, rfl⟩)
    · rename_i h0
      exact .badFirst hc hf htok ((closeBack_error_iff hn h0).mp h)
  | cons c rev ih =>
    obtain ⟨o, hc, hn⟩ := hs.counts hq
    have e : (c :: rev).reverse ++ tok ++ tail = rev.reverse ++ c :: tok ++ tail := by simp
    rw [e]
    rw [backwardScan] at h
    split at h
    · rename_i hx
      have := ih hs hf hq (by simpa [or_imp, forall_and] using ⟨hx, htok⟩) h
      simpa using this
    · rename_i hx
      split at h
      · rename_i hd
        subst hd
        split at h
        · cases h
          exact .badDot hc hf htok (.inl ‹_›)
        · rename_i hb
          have hb0 : back.length = 0 := by omega
          have ho := hn.octets_le hb0
          split at h
          · rename_i h3
            cases h
            exact .badDot hc hf htok (.inr (ho ▸ h3))
          · rename_i h3
            rcases except_bind_error h with h | ⟨v, hv, h⟩
            · rw [hb0] at hc
              exact .badOctet hc (by omega) htok (by omega) (octetValue_error_iff.mp h)
            · have hback : back = [] := List.length_eq_zero_iff.mp hb0
              have hr : backReads (dot :: tok ++ tail) back (v :: quad) true := by
                refine ⟨fun _ => ⟨hback, by simp, ?_⟩, by simp, by simp⟩
                cases iq with
                | true =>
                  obtain ⟨_, _, ts, h1, rfl⟩ := hs.octets rfl
                  exact ⟨tok :: ts, .cons (octetValue_ok_iff.mp hv) h1, by simp [openedBy]⟩
                | false =>
                  obtain ⟨rfl, rfl⟩ := hs.fresh rfl hback
                  exact ⟨[tok], .cons (octetValue_ok_iff.mp hv) .nil, by simp [openedBy]⟩
              have := ih hr hf (by simp; omega) (by simp) h
              simpa using this
      · rename_i hd
        split at h
        · rename_i hcol
          subst hcol
          split at h
          · cases h
            exact .badClose hc hf htok (.inl ⟨‹_›, rfl⟩)
          · rename_i h0
            rcases except_bind_error h with h | ⟨back', hb, h⟩
            · exact .badClose hc hf htok ((closeBack_error_iff hn h0).mp h)
            · obtain ⟨ts, h1, h2⟩ := closeBack_reads hs h0 htok hb
              obtain ⟨h3, h4⟩ := closeBack_room hb
              have hr : backReads (colon :: tok ++ tail) back' quad false :=
                ⟨by simp, fun _ => ⟨ts, h1, h2⟩, fun _ he => absurd he h4⟩
              have := ih hr h3 hq (by simp) h
              simpa using this
        · cases h
          exact .badByte hc hf htok (by simpa using hx) hd ‹_›

/-- The backward phase raises an error exactly where `BackFails` says. -/
theorem backwardScan_error_iff {f : Nat} (hf : f ≤ 7) {t : List Byte} {k : ErrKind} :
    backwardScan f [] [] false [] t.reverse = .error k ↔ BackFails f t k := by
  refine ⟨fun h => ?_, backFails_scan⟩
  have := backwardScan_fails (tail := []) ⟨by simp, fun _ => ⟨[], .inl .nil, rfl⟩, fun _ _ => ⟨rfl, rfl⟩⟩ (by simpa using hf)
    (by simp) (by simp) h
  simpa using this

/-! ### The forward phase (R208) -/

theorem forwardScan_token {ts : List (List Byte)} {gs : List (BitVec 16)} {tok : List Byte} (rest : List Byte)
    (h : List.Forall₂ groupToken ts gs) (hl : gs.length ≤ 8) (hd : ∀ d ∈ tok, isHex d = true) :
    colonV6 (closedBy colon ts ++ tok ++ rest) = forwardScan gs tok (ts.isEmpty && tok.isEmpty) rest := by
  rw [colonV6, List.append_assoc, forwardScan_groups _ _ h (by simpa using hl), forwardScan_hex _ _ _ _ _ hd]
  simp

theorem colonV6_compression {ts : List (List Byte)} {gs : List (BitVec 16)} (rest : List Byte)
    (h : List.Forall₂ groupToken ts gs) (hl : gs.length ≤ 8) :
    colonV6 (colonText ts ++ [colon, colon] ++ rest) = compressV6 gs rest := by
  by_cases hts : ts = []
  · subst hts
    cases h
    have e : colonText [] ++ [colon, colon] ++ rest = colon :: colon :: rest := by simp [colonText, List.intercalate]
    rw [e, colonV6, forwardScan]
    simp
  · have e : colonText ts ++ [colon, colon] ++ rest = closedBy colon ts ++ [] ++ colon :: rest := by
      rw [← colonText_closed hts]
      simp
    rw [e, forwardScan_token _ h hl (by simp), forwardScan]
    simp [hts]

theorem compressV6_error_iff {gs : List (BitVec 16)} {suffix : List Byte} {k : ErrKind} (hl : gs.length ≤ 8) :
    compressV6 gs suffix = .error k ↔
      (gs.length = 8 ∧ k = .malformed) ∨ (gs.length < 8 ∧ suffix ≠ [] ∧ BackFails gs.length suffix k) := by
  unfold compressV6
  by_cases h8 : gs.length = 8
  · rw [if_pos h8]
    simp only [h8, true_and, lt_irrefl, false_and, or_false]
    exact error_eq_iff
  · have hlt : gs.length < 8 := by omega
    rw [if_neg h8]
    simp only [h8, false_and, false_or, hlt, true_and]
    by_cases h0 : suffix = []
    · simp [h0]
    · rw [if_neg h0, ← backwardScan_error_iff (by omega)]
      simp only [ne_eq, h0, not_false_eq_true, true_and]
      constructor
      · intro h
        rcases except_bind_error h with h | ⟨v, _, h⟩
        · exact h
        · cases h
      · intro h
        rw [h]
        rfl

theorem colonFails_scan {t : List Byte} {k : ErrKind} (h : ColonFails t k) : colonV6 t = .error k := by
  cases h with
  | badByte closed room digits noDigit noDot noColon =>
    rw [forwardScan_token _ closed room digits, forwardScan]
    simp [noDigit, noDot, noColon]
  | ninthGroup closed eight digits token =>
    rw [forwardScan_token _ closed (by omega) digits, forwardScan]
    simp [eight, token]
  | badGroup closed room digits bad =>
    have h8 := Nat.ne_of_lt room
    have ht := ne_nil_of_hexVal bad
    rw [forwardScan_token _ closed (by omega) digits, forwardScan]
    simp [h8, ht, hexGroup_error_iff.mpr ⟨bad, rfl⟩]
  | loneColon lone =>
    rw [colonV6, forwardScan]
    simp [lone]
  | quadPlace closed room digits place =>
    rw [forwardScan_token _ closed room digits, forwardScan]
    simp [place, colon_ne_dot.symm]
  | badQuad closed six digits bad =>
    rw [forwardScan_token _ closed (by omega) digits, forwardScan]
    simp [six, colon_ne_dot.symm, dottedV4_error_iff.mpr bad]
  | lastColon closed room =>
    have := forwardScan_token [] closed room (tok := []) (by simp)
    rw [List.append_nil, List.append_nil] at this
    rw [this]
    simp [forwardScan]
  | ninthLast closed eight digits token =>
    rw [← List.append_nil (_ ++ _), forwardScan_token _ closed (by omega) digits]
    simp [forwardScan, token, eight]
  | badLast closed room digits bad =>
    have h8 := Nat.ne_of_lt room
    have ht := ne_nil_of_hexVal bad
    rw [← List.append_nil (_ ++ _), forwardScan_token _ closed (by omega) digits]
    simp [forwardScan, ht, h8, hexGroup_error_iff.mpr ⟨bad, rfl⟩]
  | tooFew closed few last =>
    have h8 : ∀ n, n < 7 → n ≠ 8 ∧ n ≠ 7 := by omega
    rw [← List.append_nil (_ ++ _), forwardScan_token _ closed (by omega) last.2.1]
    simp [forwardScan, last.1, (h8 _ few).1, (h8 _ few).2, hexGroup_ok_iff.mpr last.2.2]
  | fullCompression closed eight =>
    rw [colonV6_compression _ closed (by omega), (compressV6_error_iff (by omega)).mpr (.inl ⟨eight, rfl⟩)]
  | badBack closed room more bad =>
    rw [colonV6_compression _ closed (by omega), (compressV6_error_iff (by omega)).mpr (.inr ⟨room, more, bad⟩)]

theorem compressV6_fails {ts : List (List Byte)} {gs : List (BitVec 16)} {suffix : List Byte} {k : ErrKind}
    (hts : List.Forall₂ groupToken ts gs) (hl : gs.length ≤ 8) (h : compressV6 gs suffix = .error k) :
    ColonFails (colonText ts ++ [colon, colon] ++ suffix) k := by
  rcases (compressV6_error_iff hl).mp h with ⟨h8, rfl⟩ | ⟨h8, h0, hb⟩
  · exact .fullCompression hts h8
  · exact .badBack hts h8 h0 hb

theorem forwardScan_fails {front : List (BitVec 16)} {tok rest : List Byte} {start : Bool} {k : ErrKind}
    {ts : List (List Byte)} (hts : List.Forall₂ groupToken ts front) (hlen : front.length ≤ 8)
    (htok : ∀ c ∈ tok, isHex c = true) (hstart : start = true → ts = [] ∧ tok = [])
    (hgoing : start = false → ts ≠ [] ∨ tok ≠ []) (h : forwardScan front tok start rest = .error k) :
    ColonFails (closedBy colon ts ++ tok ++ rest) k := by
  induction rest generalizing front tok start ts with
  | nil =>
    rw [List.append_nil]
    simp only [forwardScan] at h
    split at h
    · rename_i h0
      cases h
      rw [h0, List.append_nil]
      exact .lastColon hts hlen
    · rename_i h0
      split at h
      · cases h
        exact .ninthLast hts ‹_› htok h0
      · rename_i h8
        rcases except_bind_error h with h | ⟨v, hv, h⟩
        · obtain ⟨hb, rfl⟩ := hexGroup_error_iff.mp h
          exact .badLast hts (by omega) htok hb
        · split at h
          · cases h
            exact .tooFew hts (by omega) ⟨h0, htok, hexGroup_ok_iff.mp hv⟩
          · cases h
  | cons c rest ih =>
    rw [forwardScan] at h
    split at h
    · rename_i hc
      have := ih hts hlen (by simpa [or_imp, forall_and] using ⟨htok, hc⟩) (by simp) (by simp) h
      simpa using this
    · rename_i hx
      split at h
      · rename_i hc
        subst hc
        split at h
        · rename_i hne
          split at h
          · cases h
            exact .ninthGroup hts ‹_› htok hne
          · rename_i h8
            rcases except_bind_error h with h | ⟨v, hv, h⟩
            · obtain ⟨hb, rfl⟩ := hexGroup_error_iff.mp h
              exact .badGroup hts (by omega) htok hb
            · have := ih (ts := ts ++ [tok]) (List.rel_append hts (.cons ⟨hne, htok, hexGroup_ok_iff.mp hv⟩ .nil))
                (by simp; omega) (by simp) (by simp) (by simp) h
              simpa [closedBy_concat] using this
        · rename_i hne
          have htk : tok = [] := by simpa using hne
          subst htk
          split at h
          · rename_i hs
            obtain ⟨rfl, -⟩ := hstart hs
            split at h
            · rename_i hhd
              have := compressV6_fails hts hlen h
              cases rest with
              | nil => simp at hhd
              | cons d rest =>
                have hd : d = colon := by simpa using hhd
                simpa [colonText, List.intercalate, hd] using this
            · rename_i hhd
              cases h
              exact .loneColon hhd
          · rename_i hs
            have htne : ts ≠ [] := by
              have := hgoing (by simpa using hs)
              simpa using this
            have := compressV6_fails hts hlen h
            rw [← colonText_closed htne]
            simpa using this
      · rename_i hcol
        split at h
        · rename_i hc
          subst hc
          split at h
          · cases h
            exact .quadPlace hts hlen htok ‹_›
          · rename_i h6
            rcases except_bind_error h with h | ⟨v, _, h⟩
            · exact .badQuad hts (by simpa using h6) htok (dottedV4_error_iff.mp h)
            · cases h
        · cases h
          exact .badByte hts hlen htok (by simpa using hx) ‹_› hcol

/-- The colon scan raises an error exactly where `ColonFails` says. -/
theorem colonV6_error_iff {t : List Byte} {k : ErrKind} : colonV6 t = .error k ↔ ColonFails t k := by
  refine ⟨fun h => ?_, colonFails_scan⟩
  simpa [closedBy] using forwardScan_fails (ts := []) .nil (by simp) (by simp) (by simp) (by simp) h

end Sys2Proof.Machine
end

