-- ==== Sys2Proof/Laws/Window.lean ====
section
/-! SUPPORT. What the window accepts, and what one step can do. -/

namespace Sys2Proof.Machine

/-- The window offset of each register (R71). -/
def offsetOf : WindowReg → Nat
  | .cmd => 0x000
  | .status => 0x004
  | .errCmd => 0x008
  | .inLen => 0x00C
  | .inValLo => 0x010
  | .inValHi => 0x014
  | .listLen => 0x018
  | .listNonNum => 0x01C
  | .aregTag => 0x020
  | .listElem k => 0x040 + 4 * k.val
  | .text q => 0x100 + 4 * q.val
  | .areg k j => 0x200 + 16 * k.val + 4 * j.val

theorem offsetOf_bounds (r : WindowReg) : offsetOf r < 1024 ∧ offsetOf r % 4 = 0 := by
  cases r with
  | listElem k => simp only [offsetOf]; omega
  | text q => simp only [offsetOf]; omega
  | areg k j => simp only [offsetOf]; omega
  | _ => exact ⟨by decide, by decide⟩

/-- The register at a register's offset is that register. -/
theorem windowReg_offsetOf (r : WindowReg) : windowReg (offsetOf r) = some r := by
  cases r with
  | listElem k =>
    have hk := k.isLt
    simp only [offsetOf]
    unfold windowReg
    repeat rw [if_neg (by omega)]
    rw [if_pos (by omega)]
    congr 2
    apply Fin.ext
    simp only [Fin.val_ofNat]
    omega
  | text q =>
    have hq := q.isLt
    simp only [offsetOf]
    unfold windowReg
    repeat rw [if_neg (by omega)]
    rw [if_pos (by omega)]
    congr 2
    apply Fin.ext
    simp only [Fin.val_ofNat]
    omega
  | areg k j =>
    have hk := k.isLt
    have hj := j.isLt
    simp only [offsetOf]
    unfold windowReg
    repeat rw [if_neg (by omega)]
    rw [if_pos (by omega)]
    congr 2 <;> (apply Fin.ext; simp only [Fin.val_ofNat]; omega)
  | _ => rfl

/-- Every aligned offset that is not reserved is that of a register (R71). -/
theorem offsetOf_surjective {off : Nat} (h4 : off % 4 = 0) (hr : ¬reserved off) : ∃ r, off = offsetOf r := by
  unfold reserved at hr
  have hc : off = 0 ∨ off = 4 ∨ off = 8 ∨ off = 12 ∨ off = 16 ∨ off = 20 ∨ off = 24 ∨ off = 28 ∨ off = 32 ∨
      (0x040 ≤ off ∧ off < 0x080) ∨ (0x100 ≤ off ∧ off < 0x200) ∨ (0x200 ≤ off ∧ off < 0x280) := by omega
  rcases hc with rfl | rfl | rfl | rfl | rfl | rfl | rfl | rfl | rfl | hc | hc | hc
  · exact ⟨.cmd, rfl⟩
  · exact ⟨.status, rfl⟩
  · exact ⟨.errCmd, rfl⟩
  · exact ⟨.inLen, rfl⟩
  · exact ⟨.inValLo, rfl⟩
  · exact ⟨.inValHi, rfl⟩
  · exact ⟨.listLen, rfl⟩
  · exact ⟨.listNonNum, rfl⟩
  · exact ⟨.aregTag, rfl⟩
  · exact ⟨.listElem ⟨(off - 0x040) / 4, by omega⟩, by simp only [offsetOf]; omega⟩
  · exact ⟨.text ⟨(off - 0x100) / 4, by omega⟩, by simp only [offsetOf]; omega⟩
  · exact ⟨.areg ⟨(off - 0x200) / 16, by omega⟩ ⟨off % 16 / 4, by omega⟩, by simp only [offsetOf]; omega⟩

/-- An aligned offset has a register exactly when it is not reserved (R71). -/
theorem windowReg_isSome {off : Nat} (h4 : off % 4 = 0) : (windowReg off).isSome = true ↔ ¬reserved off := by
  constructor
  · intro h hr
    have hn : windowReg off = none := by
      unfold reserved at hr
      unfold windowReg
      repeat rw [if_neg (by omega)]
    rw [hn] at h
    cases h
  · intro h
    obtain ⟨r, rfl⟩ := offsetOf_surjective h4 h
    rw [windowReg_offsetOf]
    rfl

theorem accessTarget_ok {off : BitVec 10} {bits : Nat} (h : accepted off bits) :
    ∃ r, accessTarget off bits = .ok r ∧ windowReg off.toNat = some r := by
  obtain ⟨h1, h2, h3⟩ := h
  have hs := (windowReg_isSome h2).mpr h3
  obtain ⟨r, hr⟩ := Option.isSome_iff_exists.mp hs
  exact ⟨r, by simp [accessTarget, h1, h2, hr], hr⟩

theorem accessTarget_error {off : BitVec 10} {bits : Nat} (h : ¬accepted off bits) :
    ∃ f, accessTarget off bits = .error f := by
  unfold accessTarget
  split
  · exact ⟨_, rfl⟩
  · split
    · exact ⟨_, rfl⟩
    · rename_i h1 h2
      have h1' : bits = 32 := by simpa using h1
      have h2' : off.toNat % 4 = 0 := by simpa using h2
      have hr : reserved off.toNat := by
        by_contra hc
        exact h ⟨h1', h2', hc⟩
      have hn : windowReg off.toNat = none := by
        have := mt (windowReg_isSome h2').mp (not_not_intro hr)
        simpa using this
      rw [hn]
      exact ⟨_, rfl⟩

theorem accessTarget_ok_iff {off : BitVec 10} {bits : Nat} {r : WindowReg} :
    accessTarget off bits = .ok r ↔ bits = 32 ∧ off.toNat % 4 = 0 ∧ windowReg off.toNat = some r := by
  unfold accessTarget
  constructor
  · intro h
    split at h
    · cases h
    · split at h
      · cases h
      · split at h
        · cases h
          exact ⟨by simpa using ‹¬bits ≠ 32›, by simpa using ‹¬off.toNat % 4 ≠ 0›, ‹_›⟩
        · cases h
  · rintro ⟨h1, h2, h3⟩
    simp [h1, h2, h3]

/-- A 32-bit access at a register's offset reaches that register (R71). -/
theorem accessTarget_offsetOf (r : WindowReg) : accessTarget (BitVec.ofNat 10 (offsetOf r)) 32 = .ok r := by
  obtain ⟨hlt, h4⟩ := offsetOf_bounds r
  have e : (BitVec.ofNat 10 (offsetOf r)).toNat = offsetOf r := by
    rw [BitVec.toNat_ofNat]
    exact Nat.mod_eq_of_lt hlt
  exact accessTarget_ok_iff.mpr ⟨rfl, by rw [e]; exact h4, by rw [e]; exact windowReg_offsetOf r⟩

/-- A register is reached by a 32-bit access at its own offset and by no other access. -/
theorem offsetOf_of_accessTarget {off : BitVec 10} {bits : Nat} {r : WindowReg} (h : accessTarget off bits = .ok r) :
    bits = 32 ∧ off = BitVec.ofNat 10 (offsetOf r) := by
  obtain ⟨rfl, h4, hw⟩ := accessTarget_ok_iff.mp h
  obtain ⟨r', hr'⟩ := offsetOf_surjective h4 ((windowReg_isSome h4).mp (by rw [hw]; rfl))
  have e : off = BitVec.ofNat 10 (offsetOf r') := by
    rw [← hr', BitVec.ofNat_toNat, BitVec.setWidth_eq]
  rw [e, accessTarget_offsetOf] at h
  cases h
  exact ⟨rfl, e⟩

/-- The offset of a TEXT word reaches that word (R71). -/
theorem accessTarget_text {q : Nat} (h : q < 64) :
    accessTarget (BitVec.ofNat 10 (0x100 + 4 * q)) 32 = .ok (.text (Fin.ofNat 64 q)) := by
  have := accessTarget_offsetOf (.text (Fin.ofNat 64 q))
  rwa [offsetOf, Fin.val_ofNat, Nat.mod_eq_of_lt h] at this

@[simp] theorem accessTarget_cmd : accessTarget 0x000 32 = .ok .cmd := rfl

/-- A command ends by committing or aborting: it never faults and is never refused. -/
theorem exec_complete (i : Instr) (s : State) : ∃ r, exec i s = .next (complete (destination i) r s) := by
  cases i <;> exact ⟨_, rfl⟩

/-- The execution of a word, whatever it is: it ends in a next state, by committing to the register of its RD field or by
aborting. -/
theorem runCommand_complete (w : Word) (s : State) :
    (∃ i, decode w = .ok i ∧ ∃ r, runCommand w s = .next (complete (destination i) r s)) ∨
      ∃ k, decode w = .error k ∧ runCommand w s = .next (abort k s) := by
  unfold runCommand
  cases h : decode w with
  | ok i => exact .inl ⟨i, rfl, exec_complete i s⟩
  | error k => exact .inr ⟨k, rfl, rfl⟩

theorem step_nil {s : State} (h : s.inputs = []) : step s = .next s := by simp [step, h]

theorem step_cons {s : State} {i : Input} {rest : List Input} (h : s.inputs = i :: rest) :
    step s = perform i { s with inputs := rest } := by simp [step, h]

/-- A write to CMD is the execution of its word, with CMD holding it. -/
theorem step_command {s : State} {w : Word} {rest : List Input} (h : s.inputs = .write 0x000 32 w :: rest) :
    step s = runCommand w { s with inputs := rest, cmd := w } := by
  rw [step_cons h]
  rfl

/-- What a write of the window can answer: a command's next state, or a next state with the registers, CMD, ERRKIND and
ERRCMD as they were. -/
theorem writeReg_next (r : WindowReg) (v : Word) (s : State) : ∃ t, writeReg r v s = .next t := by
  cases r with
  | cmd =>
    rcases runCommand_complete v { s with cmd := v } with ⟨i, _, x, h⟩ | ⟨k, _, h⟩
    · exact ⟨_, h⟩
    · exact ⟨_, h⟩
  | _ => exact ⟨_, rfl⟩

/-- Every next state of a step comes from waiting, a read, a write, or a reset. -/
theorem step_cases {s t : State} (h : step s = .next t) :
    (s.inputs = [] ∧ t = s) ∨
      (∃ off bits rest r, s.inputs = .read off bits :: rest ∧ accessTarget off bits = .ok r ∧
        t = { s with inputs := rest, reads := readReg { s with inputs := rest } r :: s.reads }) ∨
      (∃ off bits v rest r, s.inputs = .write off bits v :: rest ∧ accessTarget off bits = .ok r ∧
        writeReg r v { s with inputs := rest } = .next t) ∨
      ∃ rest, s.inputs = .reset :: rest ∧ t = platformReset { s with inputs := rest } := by
  cases hi : s.inputs with
  | nil =>
    rw [step_nil hi] at h
    cases h
    exact .inl ⟨rfl, rfl⟩
  | cons i rest =>
    rw [step_cons hi] at h
    cases i with
    | read off bits =>
      simp only [perform] at h
      split at h
      · cases h
        exact .inr (.inl ⟨_, _, _, _, rfl, ‹_›, rfl⟩)
      · cases h
    | write off bits v =>
      simp only [perform] at h
      split at h
      · exact .inr (.inr (.inl ⟨_, _, _, _, _, rfl, ‹_›, h⟩))
      · cases h
    | reset =>
      cases h
      exact .inr (.inr (.inr ⟨_, rfl, rfl⟩))

/-- A run whose first step answers a next state goes on from it. -/
theorem run_succ_of_step (M : Host.Core) {n : Nat} {s t : M.State} (h : M.step s = .next t) :
    M.run (n + 1) s = M.run n t := by
  rw [Host.Core.run, h]

theorem run_succ_of_fault (M : Host.Core) {n : Nat} {s : M.State} {e : M.Fault} (h : M.step s = .fault e) :
    M.run (n + 1) s = .fault e := by
  rw [Host.Core.run, h]

theorem run_succ_of_refused (M : Host.Core) {n : Nat} {s : M.State} {e : M.Refusal} (h : M.step s = .refused e) :
    M.run (n + 1) s = .refused e := by
  rw [Host.Core.run, h]

theorem core_run_succ {n : Nat} {s t : State} (h : step s = .next t) : core.run (n + 1) s = core.run n t :=
  run_succ_of_step core h

theorem core_run_zero (s : State) : core.run 0 s = .next s := rfl

/-- A run in two parts. -/
theorem core_run_add {m n : Nat} {s t : State} (h : core.run m s = .next t) : core.run (m + n) s = core.run n t := by
  induction m generalizing s with
  | zero =>
    cases (core_run_zero s).symm.trans h
    rw [Nat.zero_add]
  | succ m ih =>
    rw [Nat.add_right_comm]
    cases hs : step s with
    | next u => rw [core_run_succ hs, ih ((core_run_succ hs).symm.trans h)]
    | fault e =>
      have : core.run (m + 1) s = .fault e := run_succ_of_fault core hs
      rw [this] at h
      cases h
    | refused e =>
      have : core.run (m + 1) s = .refused e := run_succ_of_refused core hs
      rw [this] at h
      cases h

end Sys2Proof.Machine
end

