-- ==== Sys2Proof/Tests/Slice0.lean ====
section
/-!
SUPPORT. Tests on fixed values, and for each statement with hypotheses a concrete case that meets them. Expected values are
those of spec/95_test_vectors.md, or are worked out by hand from the rule named.
-/

namespace Sys2Proof.Tests

open Sys2Proof.Machine

/-! ### States and readings -/

/-- The reset state with the inputs given. -/
def withInputs (l : List Input) : State := { State.reset with inputs := l }

/-- The reset state with a text staged. -/
def withText (t : List Byte) : State :=
  { State.reset with
    inLen := BitVec.ofNat 9 t.length
    text := t.zipIdx.map fun (b, k) => (0x100 + k, b) }

/-- The reset state with a scalar staged. -/
def withVal (v : BitVec 64) : State :=
  { State.reset with inValLo := v.extractLsb' 0 32, inValHi := v.extractLsb' 32 32 }

/-- IN_VAL of a staged scalar, as IN_VAL_HI and IN_VAL_LO hold it. -/
def stagedVal (v : BitVec 64) : BitVec 64 := (withVal v).inValHi ++ (withVal v).inValLo

/-- The reset state with a list staged: its length, its non-numeric bits and its elements. -/
def withList (n : BitVec 5) (nonNum : BitVec 16) (es : List Word) : State :=
  { State.reset with listLen := n, listNonNum := nonNum, listElem := Vector.ofFn fun k => es.getD k 0 }

/-- The reset state with A0 and A1 written, and no other. -/
def withRegs (a b : AReg) : State := (State.reset.setAreg 0 a).setAreg 1 b

/-- A register after a step. -/
def regAfter (r : RegIx) : Host.Outcome State Fault Refusal → Option AReg
  | .next t => some (t.areg r)
  | _ => none

/-- ERRKIND after a step. -/
def kindAfter : Host.Outcome State Fault Refusal → Option (Option ErrKind)
  | .next t => some t.errKind
  | _ => none

/-! ### WellFormed: NBITS is the one operand with a bound (R101, R107) -/

theorem test_wf_m4net_refused : Instr.wellFormed (.m4net 0 256) = false := by decide
theorem test_wf_m4wild_refused : Instr.wellFormed (.m4wild 0 256) = false := by decide
theorem test_wf_m6net_refused : Instr.wellFormed (.m6net 0 256) = false := by decide
theorem test_wf_m6wild_refused : Instr.wellFormed (.m6wild 0 1000) = false := by decide
theorem test_wf_accepted : Instr.wellFormed (.m6wild 7 255) = true := by decide

/-! ### Decoding: one word for each constructor, bit by bit: NBITS, RS2, RS1, RD, OPC from R101-R106 -/

theorem test_decode_d4 :
    decode 0b00000000000000000000000100000001 = .ok (.d4abs 1) ∧
    decode 0b00000000000000000000011100000010 = .ok (.d4true 7) ∧
    decode 0b00000000000000000000010000000011 = .ok (.d4int 4) ∧
    decode 0b00000000000000000000001100000100 = .ok (.d4flt 3) ∧
    decode 0b00000000000000000000001000000101 = .ok (.d4txt 2) ∧
    decode 0b00000000000000000000010100000110 = .ok (.d4lst 5) ∧
    decode 0b00000000000000000011011000000111 = .ok (.d4adr 6 6) := by decide

theorem test_decode_d6 :
    decode 0b00000000000000000000000100010001 = .ok (.d6abs 1) ∧
    decode 0b00000000000000000000011100010010 = .ok (.d6true 7) ∧
    decode 0b00000000000000000000010000010011 = .ok (.d6int 4) ∧
    decode 0b00000000000000000000001100010100 = .ok (.d6flt 3) ∧
    decode 0b00000000000000000000001000010101 = .ok (.d6txt 2) ∧
    decode 0b00000000000000000000010100010110 = .ok (.d6lst 5) ∧
    decode 0b00000000000000000000100100010111 = .ok (.d6adr 1 1) := by decide

theorem test_decode_mask :
    decode 0b00000000001100000000000100100001 = .ok (.m4net 1 24) ∧
    decode 0b00000000010000000000001000100010 = .ok (.m4wild 2 32) ∧
    decode 0b00000000001010000000000000100011 = .ok (.m6net 0 20) ∧
    decode 0b00000001111111100000011100100100 = .ok (.m6wild 7 255) := by decide

theorem test_decode_alu :
    decode 0b00000000000000000100001000110001 = .ok (.and 2 0 1) ∧
    decode 0b00000000000000010010001000110010 = .ok (.or 2 4 4) ∧
    decode 0b00000000000000000001101000110011 = .ok (.not 2 3) ∧
    decode 0b00000000000000011111111100110100 = .ok (.add 7 7 7) ∧
    decode 0b00000000000000010111011100110101 = .ok (.sub 7 6 5) := by decide

theorem test_decode_illegal :
    decode 0x00000801 = .error .badCommand ∧ decode 0x00000018 = .error .illegalArgument ∧
    decode 0x00300821 = .error .badCommand ∧ decode 0x00028831 = .error .badCommand ∧
    decode 0x00004833 = .error .badCommand ∧ decode 0x00000020 = .error .badCommand := by decide

/-! ### The commands -/

theorem test_d4abs : regAfter 3 (exec (.d4abs 3) State.reset) = some (.v4 #v[0, 0, 0, 0]) := by decide
theorem test_d4true : regAfter 0 (exec (.d4true 0) State.reset) = some (.v4 #v[127, 0, 0, 1]) := by decide
theorem test_d4int : regAfter 0 (exec (.d4int 0) (withVal 0xC0A8010A)) = some (.v4 #v[192, 168, 1, 10]) := by decide
theorem test_d4int_range : kindAfter (exec (.d4int 0) (withVal 0x100000000)) = some (some .illegalValue) := by decide
theorem test_d4flt : regAfter 0 (exec (.d4flt 0) (withVal 0x41E8150020366666)) = some (.v4 #v[192, 168, 1, 1]) := by
  decide
theorem test_d4flt_negative_fraction :
    regAfter 0 (exec (.d4flt 0) (withVal 0xBFECCCCCCCCCCCCD)) = some (.v4 #v[0, 0, 0, 0]) := by decide
theorem test_d4txt : regAfter 0 (exec (.d4txt 0) (withText (ascii "001.002.003.004"))) = some (.v4 #v[1, 2, 3, 4]) := by
  decide
theorem test_d4txt_scan_order :
    kindAfter (exec (.d4txt 0) (withText (ascii "256.1.2.3x"))) = some (some .illegalValue) := by decide
theorem test_d4lst : regAfter 0 (exec (.d4lst 0) (withList 4 0 [10, 0, 0, 1])) = some (.v4 #v[10, 0, 0, 1]) := by decide
theorem test_d4lst_nonnumeric :
    kindAfter (exec (.d4lst 0) (withList 4 2 [1, 0, 3, 4])) = some (some .illegalValue) := by decide
theorem test_d4adr :
    regAfter 1 (exec (.d4adr 1 0) (withRegs (.v6 #v[0, 0, 0, 0, 0, 0xFFFF, 0xC000, 0x201]) .empty)) =
      some (.v4 #v[192, 0, 2, 1]) := by decide
theorem test_d4adr_range :
    kindAfter (exec (.d4adr 1 0) (withRegs (.v6 #v[0, 0, 0, 0, 0, 0xFFFE, 0x102, 0x304]) .empty)) =
      some (some .illegalRange) := by decide
theorem test_d6abs : regAfter 3 (exec (.d6abs 3) State.reset) = some (.v6 #v[0, 0, 0, 0, 0, 0, 0, 0]) := by decide
theorem test_d6true : regAfter 0 (exec (.d6true 0) State.reset) = some (.v6 #v[0, 0, 0, 0, 0, 0, 0, 1]) := by decide
theorem test_d6int :
    regAfter 0 (exec (.d6int 0) (withVal 0xC0000201)) = some (.v6 #v[0, 0, 0, 0, 0, 0xFFFF, 0xC000, 0x201]) := by decide
theorem test_d6int_negative :
    kindAfter (exec (.d6int 0) (withVal 0xFFFFFFFFFFFFFFFF)) = some (some .illegalValue) := by decide
theorem test_d6flt :
    regAfter 0 (exec (.d6flt 0) (withVal 0x41EFFFFFFFFCCCCD)) =
      some (.v6 #v[0, 0, 0, 0, 0, 0xFFFF, 0xFFFF, 0xFFFF]) := by decide
theorem test_d6flt_nan : kindAfter (exec (.d6flt 0) (withVal 0x7FF8000000000000)) = some (some .illegalValue) := by decide
theorem test_d6txt :
    regAfter 0 (exec (.d6txt 0) (withText (ascii "::ffff:192.0.2.1"))) =
      some (.v6 #v[0, 0, 0, 0, 0, 0xFFFF, 0xC000, 0x201]) := by decide
theorem test_d6txt_no_room :
    kindAfter (exec (.d6txt 0) (withText (ascii "1:2:3:4:5:6::1.2.3.4"))) = some (some .malformed) := by decide
theorem test_d6lst :
    regAfter 0 (exec (.d6lst 0) (withList 10 0 [0, 0, 0, 0, 0, 65535, 192, 0, 2, 1])) =
      some (.v6 #v[0, 0, 0, 0, 0, 0xFFFF, 0xC000, 0x201]) := by decide
theorem test_d6lst_count : kindAfter (exec (.d6lst 0) (withList 9 0 [1, 2])) = some (some .malformed) := by decide
theorem test_d6adr :
    regAfter 1 (exec (.d6adr 1 0) (withRegs (.v4 #v[192, 0, 2, 1]) .empty)) =
      some (.v6 #v[0, 0, 0, 0, 0, 0xFFFF, 0xC000, 0x201]) := by decide
theorem test_d6adr_empty : kindAfter (exec (.d6adr 1 0) State.reset) = some (some .emptyOperand) := by decide
theorem test_m4net : regAfter 0 (exec (.m4net 0 20) State.reset) = some (.v4 #v[255, 255, 240, 0]) := by decide
theorem test_m4wild : regAfter 0 (exec (.m4wild 0 9) State.reset) = some (.v4 #v[0, 127, 255, 255]) := by decide
theorem test_m6net :
    regAfter 0 (exec (.m6net 0 20) State.reset) = some (.v6 #v[0xFFFF, 0xF000, 0, 0, 0, 0, 0, 0]) := by decide
theorem test_m6wild : regAfter 0 (exec (.m6wild 0 120) State.reset) = some (.v6 #v[0, 0, 0, 0, 0, 0, 0, 0xFF]) := by
  decide
theorem test_and :
    regAfter 2 (exec (.and 2 0 1) (withRegs (.v4 #v[192, 168, 1, 10]) (.v4 #v[255, 255, 255, 0]))) =
      some (.v4 #v[192, 168, 1, 0]) := by decide
theorem test_or :
    regAfter 2 (exec (.or 2 0 1) (withRegs (.v4 #v[192, 168, 1, 0]) (.v4 #v[0, 0, 0, 255]))) =
      some (.v4 #v[192, 168, 1, 255]) := by decide
theorem test_not :
    regAfter 2 (exec (.not 2 0) (withRegs (.v6 #v[0, 0, 0, 0, 0, 0xFFFF, 0, 0]) .empty)) =
      some (.v6 #v[0xFFFF, 0xFFFF, 0xFFFF, 0xFFFF, 0xFFFF, 0, 0xFFFF, 0xFFFF]) := by decide
theorem test_add_carry :
    regAfter 2 (exec (.add 2 0 1) (withRegs (.v6 #v[0, 0, 0, 0, 0, 0, 0, 0xFFFF]) (.v6 #v[0, 0, 0, 0, 0, 0, 0, 1]))) =
      some (.v6 #v[0, 0, 0, 0, 0, 0, 1, 0]) := by decide
theorem test_add_onto_source :
    regAfter 0 (exec (.add 0 0 0) (withRegs (.v4 #v[128, 0, 0, 0]) .empty)) = some (.v4 #v[0, 0, 0, 0]) := by decide
theorem test_sub_borrow :
    regAfter 2 (exec (.sub 2 0 1) (withRegs (.v4 #v[10, 0, 0, 0]) (.v4 #v[0, 0, 0, 1]))) =
      some (.v4 #v[9, 255, 255, 255]) := by decide
theorem test_sub_mismatch :
    kindAfter (exec (.sub 2 0 1) (withRegs (.v6 #v[0, 0, 0, 0, 0, 0, 0, 1]) (.v4 #v[1, 2, 3, 4]))) =
      some (some .versionMismatch) := by decide

/-! ### Accesses -/

theorem test_step_runs_word : regAfter 1 (step (State.reset.withFetchWord 32 0x00300121)) =
    some (.v4 #v[255, 255, 255, 0]) := by decide

theorem test_status_after_error : readReg (abort .malformed State.reset) .status = 0x00000104 := by decide

theorem test_stxt_words : stxt (ascii "1.2.") = [.write 0x100 32 0x2E322E31, .write 0x00C 32 4] := by decide

theorem test_areg_tag_and_words :
    readReg (withRegs .empty (.v6 #v[0, 0, 0, 0, 0, 0xFFFF, 0xC000, 0x201])) .aregTag = 0x00000008 ∧
    readReg (withRegs .empty (.v6 #v[0, 0, 0, 0, 0, 0xFFFF, 0xC000, 0x201])) (.areg 1 3) = 0xC0000201 := by decide

/-! ### Witnesses: encoding -/

theorem witness_DecodeOfEncode : (Instr.m6net 7 255).wellFormed = true ∧ (Instr.sub 7 7 7).wellFormed = true := by decide

theorem witness_EncodeOfDecode : decode 0x01FE0724 = .ok (.m6wild 7 255) := by decide

theorem witness_MatchedWordsDecode :
    (0x00000701 : Word) &&& 0xFFFFF8FF = 0x00000001 ∧ (0x00000702 : Word) &&& 0xFFFFF8FF = 0x00000002 ∧
    (0x00000703 : Word) &&& 0xFFFFF8FF = 0x00000003 ∧ (0x00000704 : Word) &&& 0xFFFFF8FF = 0x00000004 ∧
    (0x00000705 : Word) &&& 0xFFFFF8FF = 0x00000005 ∧ (0x00000706 : Word) &&& 0xFFFFF8FF = 0x00000006 ∧
    (0x00003F07 : Word) &&& 0xFFFFC0FF = 0x00000007 ∧ (0x00000711 : Word) &&& 0xFFFFF8FF = 0x00000011 ∧
    (0x00000712 : Word) &&& 0xFFFFF8FF = 0x00000012 ∧ (0x00000713 : Word) &&& 0xFFFFF8FF = 0x00000013 ∧
    (0x00000714 : Word) &&& 0xFFFFF8FF = 0x00000014 ∧ (0x00000715 : Word) &&& 0xFFFFF8FF = 0x00000015 ∧
    (0x00000716 : Word) &&& 0xFFFFF8FF = 0x00000016 ∧ (0x00003F17 : Word) &&& 0xFFFFC0FF = 0x00000017 ∧
    (0x01FE0721 : Word) &&& 0xFE01F8FF = 0x00000021 ∧ (0x01FE0722 : Word) &&& 0xFE01F8FF = 0x00000022 ∧
    (0x01FE0723 : Word) &&& 0xFE01F8FF = 0x00000023 ∧ (0x01FE0724 : Word) &&& 0xFE01F8FF = 0x00000024 ∧
    (0x0001FF31 : Word) &&& 0xFFFE00FF = 0x00000031 ∧ (0x0001FF32 : Word) &&& 0xFFFE00FF = 0x00000032 ∧
    (0x00003F33 : Word) &&& 0xFFFFC0FF = 0x00000033 ∧ (0x0001FF34 : Word) &&& 0xFFFE00FF = 0x00000034 ∧
    (0x0001FF35 : Word) &&& 0xFFFE00FF = 0x00000035 := by decide

/-- Words at the ends of each class: their opcodes, and for a reserved bit the lowest and the highest one. -/
theorem witness_IllegalEncodings :
    ((0x0000000F : Word).extractLsb' 0 8 = 0x0F#8 ∧ (0x00000018 : Word).extractLsb' 0 8 = 0x18#8) ∧
    ((0x00000025 : Word).extractLsb' 0 8 = 0x25#8 ∧ (0xFFFFFFFF : Word).extractLsb' 0 8 = 0xFF#8) ∧
    ((0x00000806 : Word).extractLsb' 0 8 = 0x06#8 ∧ (0x00000806 : Word) &&& 0xFFFFF800 ≠ 0) ∧
    ((0x80000011 : Word).extractLsb' 0 8 = 0x11#8 ∧ (0x80000011 : Word) &&& 0xFFFFF800 ≠ 0) ∧
    ((0x00004033 : Word).extractLsb' 0 8 = 0x33#8 ∧ (0x00004033 : Word) &&& 0xFFFFC000 ≠ 0) ∧
    ((0x00020035 : Word).extractLsb' 0 8 = 0x35#8 ∧ (0x00020035 : Word) &&& 0xFFFE0000 ≠ 0) ∧
    ((0x00000821 : Word).extractLsb' 0 8 = 0x21#8 ∧ (0x00000821 : Word) &&& 0xFE01F800 ≠ 0) ∧
    ((0x02000024 : Word).extractLsb' 0 8 = 0x24#8 ∧ (0x02000024 : Word) &&& 0xFE01F800 ≠ 0) ∧
    (({ State.reset with cmd := 0x02000024 } : State).cmd = 0x02000024 ∧ decode 0x02000024 = .error .badCommand) ∧
    ({ State.reset with cmd := 0x0000000F } : State).cmd = 0x0000000F ∧ decode 0x0000000F = .error .illegalArgument := by
  decide

/-! ### Witnesses: a step -/

theorem witness_StepRunsDecodedCommand :
    (withInputs [.write 0x000 32 0x205, .reset]).inputs = .write 0x000 32 0x205 :: [.reset] ∧
      decode 0x205 = .ok (.d4txt 2) := by decide

theorem witness_CommandWriteOutcome : (withInputs [.write 0x000 32 0]).inputs = .write 0x000 32 0 :: [] := by decide

theorem witness_IllegalWordAborts :
    (withInputs [.write 0x000 32 0xF]).inputs = .write 0x000 32 0xF :: [] ∧ decode 0xF = .error .illegalArgument := by
  decide

/-- A command that commits, and one that fails. -/
theorem witness_CommandFrame :
    exec (.d4true 0) State.reset = .next (commit 0 (.v4 #v[127, 0, 0, 1]) State.reset) ∧
    exec (.not 1 0) State.reset = .next (abort .emptyOperand State.reset) ∧
    (abort .emptyOperand State.reset).errKind ≠ none := ⟨rfl, rfl, by decide⟩

theorem witness_StepWaitsForInput : State.reset.inputs = [] := rfl

theorem witness_HostAccessKeepsRegisters :
    (withInputs [.write 0x00C 32 5]).inputs = .write 0x00C 32 5 :: [] ∧ Input.write 0x00C 32 5 ≠ .reset ∧
      (∀ w, Input.write 0x00C 32 5 ≠ .write 0x000 32 w) ∧
      step (withInputs [.write 0x00C 32 5]) = .next { State.reset with inLen := 5 } :=
  ⟨rfl, by decide, fun w => by simp, rfl⟩

theorem witness_ResetInputResets : (withInputs [.reset]).inputs = .reset :: [] := rfl

/-! ### Witnesses: the window -/

/-- The last register word and the first and last words of each reserved range, an odd width and an odd offset. -/
theorem witness_BusErrorsExactly :
    (withInputs [.read 0x27C 32]).inputs = .read 0x27C 32 :: [] ∧ accepted 0x27C 32 ∧ accepted 0x000 32 ∧
    accepted 0x020 32 ∧ accepted 0x040 32 ∧ accepted 0x07C 32 ∧ accepted 0x100 32 ∧
    ¬accepted 0x024 32 ∧ ¬accepted 0x03C 32 ∧ ¬accepted 0x080 32 ∧ ¬accepted 0x0FC 32 ∧ ¬accepted 0x280 32 ∧
    ¬accepted 0x3FC 32 ∧ ¬accepted 0x102 32 ∧ ¬accepted 0x100 8 ∧ ¬accepted 0x004 16 := by
  refine ⟨rfl, ?_, ?_, ?_, ?_, ?_, ?_, ?_, ?_, ?_, ?_, ?_, ?_, ?_, ?_, ?_⟩ <;>
    (unfold accepted reserved; decide)

/-- The single registers, the first and the last of each row of registers, and a read of the last accepted offset. -/
theorem witness_ReadsHaveNoSideEffects :
    (∀ off ∈ [0x000, 0x004, 0x008, 0x00C, 0x010, 0x014, 0x018, 0x01C, 0x020, 0x040, 0x07C, 0x100, 0x1FC, 0x200, 0x27C],
      (withInputs [.read (BitVec.ofNat 10 off) 32]).inputs = .read (BitVec.ofNat 10 off) 32 :: []) ∧
    ((∃ k : Fin 16, 0x040 = 0x040 + 4 * k.val ∧ WindowReg.listElem 0 = .listElem k) ∧
      ∃ k : Fin 16, 0x07C = 0x040 + 4 * k.val ∧ WindowReg.listElem 15 = .listElem k) ∧
    ((∃ q : Fin 64, 0x100 = 0x100 + 4 * q.val ∧ WindowReg.text 0 = .text q) ∧
      ∃ q : Fin 64, 0x1FC = 0x100 + 4 * q.val ∧ WindowReg.text 63 = .text q) ∧
    ((∃ (k : RegIx) (j : Fin 4), 0x200 = 0x200 + 16 * k.val + 4 * j.val ∧ WindowReg.areg 0 0 = .areg k j) ∧
      ∃ (k : RegIx) (j : Fin 4), 0x27C = 0x200 + 16 * k.val + 4 * j.val ∧ WindowReg.areg 7 3 = .areg k j) ∧
    (withInputs [.read 0x27C 32]).inputs = .read 0x27C 32 :: [] ∧ accepted 0x27C 32 := by
  refine ⟨by decide, ⟨⟨0, rfl, rfl⟩, 15, rfl, rfl⟩, ⟨⟨0, rfl, rfl⟩, 63, rfl, rfl⟩, ⟨⟨0, 0, rfl, rfl⟩, 7, 3, rfl, rfl⟩, rfl, ?_⟩
  unfold accepted reserved
  decide

/-- A write of ones to each staging register, and to the first and the last list element. -/
theorem witness_StagingWriteReadsBack :
    (∀ off ∈ [0x00C, 0x010, 0x014, 0x018, 0x01C, 0x040, 0x07C], (withInputs [.write (BitVec.ofNat 10 off) 32 0xFFFFFFFF]).inputs =
      .write (BitVec.ofNat 10 off) 32 0xFFFFFFFF :: []) ∧
    (∃ k : Fin 16, 0x040 = 0x040 + 4 * k.val ∧ WindowReg.listElem 0 = .listElem k) ∧
    ∃ k : Fin 16, 0x07C = 0x040 + 4 * k.val ∧ WindowReg.listElem 15 = .listElem k :=
  ⟨by decide, ⟨0, rfl, rfl⟩, 15, rfl, rfl⟩

/-- What a write of ones stores, by its register: the word read back after the write. -/
theorem test_staging_masks :
    [0x00C, 0x010, 0x014, 0x018, 0x01C, 0x040, 0x07C].map (fun off =>
      match core.run 2 (withInputs [memWrite off 0xFFFFFFFF, memRead off]) with
      | .next t => t.reads
      | _ => []) =
    [[0x1FF], [0xFFFFFFFF], [0xFFFFFFFF], [0x1F], [0xFFFF], [0xFFFFFFFF], [0xFFFFFFFF]] := by decide

theorem witness_ReadOnlyWritesIgnored :
    (withInputs [.write 0x27C 32 1]).inputs = .write 0x27C 32 1 :: [] ∧ (0x27C : BitVec 10).toNat % 4 = 0 ∧
      0x200 ≤ (0x27C : BitVec 10).toNat ∧ (0x27C : BitVec 10).toNat < 0x280 ∧
      (withInputs [.write 0x020 32 1]).inputs = .write 0x020 32 1 :: [] ∧
      (withInputs [.write 0x008 32 1]).inputs = .write 0x008 32 1 :: [] := by decide

theorem witness_StatusRegister :
    State.reset.errKind = none ∧ (∀ k : ErrKind, (abort k State.reset).errKind = some k) ∧
      (withInputs [.write 0x004 32 0x100]).inputs = .write 0x004 32 0x100 :: [] := ⟨rfl, fun _ => rfl, rfl⟩

/-- The first and the last register, with each tag. -/
theorem witness_TagRegister :
    (State.reset.areg 0 = .empty ∧ State.reset.areg 7 = .empty) ∧
    ((State.reset.setAreg 0 (.v4 #v[1, 2, 3, 4])).areg 0 = .v4 #v[1, 2, 3, 4] ∧
      (State.reset.setAreg 7 (.v4 #v[1, 2, 3, 4])).areg 7 = .v4 #v[1, 2, 3, 4]) ∧
    (State.reset.setAreg 0 (.v6 #v[1, 2, 3, 4, 5, 6, 7, 8])).areg 0 = .v6 #v[1, 2, 3, 4, 5, 6, 7, 8] ∧
    (State.reset.setAreg 7 (.v6 #v[1, 2, 3, 4, 5, 6, 7, 8])).areg 7 = .v6 #v[1, 2, 3, 4, 5, 6, 7, 8] := by decide

theorem witness_AddressRegistersReadTheirValue :
    State.reset.areg 7 = .empty ∧ (withRegs (.v4 #v[1, 2, 3, 4]) .empty).areg 0 = .v4 #v[1, 2, 3, 4] ∧
      (withRegs .empty (.v6 #v[1, 2, 3, 4, 5, 6, 7, 8])).areg 1 = .v6 #v[1, 2, 3, 4, 5, 6, 7, 8] := by decide

theorem witness_TextIsLittleEndianInItsWords :
    (withInputs [.write (BitVec.ofNat 10 (0x100 + 4 * 63)) 32 5]).inputs =
      .write (BitVec.ofNat 10 (0x100 + 4 * (63 : Fin 64).val)) 32 5 :: [] ∧
    (withInputs [.read (BitVec.ofNat 10 (0x100 + 4 * (255 / 4))) 32]).inputs =
      .read (BitVec.ofNat 10 (0x100 + 4 * (255 / 4))) 32 :: [] := by decide

theorem witness_WindowStandsAtBase : 0x43FF < 0x4400 ∧ 0x4400 + 1024 ≤ 0x4800 := by decide

theorem witness_LimbsAndVal : 2 ^ 32 - 1 < 2 ^ (4 * 8) := by decide

/-! ### Witnesses: scalar and address inputs -/

theorem witness_IntegerToV4 :
    (stagedVal 0).toInt = 0 ∧ (stagedVal 0xFFFFFFFF).toInt = 0xFFFFFFFF ∧
      (stagedVal 0xFFFFFFFFFFFFFFFF).toInt < 0 ∧ 0xFFFFFFFF < (stagedVal 0x100000000).toInt := by decide

theorem witness_IntegerToV6 :
    (stagedVal 0).toInt = 0 ∧ (stagedVal 0xFFFFFFFF).toInt = 0xFFFFFFFF ∧
      (stagedVal 0x8000000000000000).toInt < 0 ∧ 0xFFFFFFFF < (stagedVal 0x100000000).toInt := by decide

/-- The number of a finite pattern, truncated, from the model's own truncation of the pattern. -/
theorem truncRat_of {x : BitVec 64} {v : Int} (h : finite64 x) (hv : truncBinary64 x = some v) :
    truncRat (value64 x) = v := Option.some.inj ((truncBinary64_some h).symm.trans hv)

/-- -0.9 and 4294967295.9 at the ends of the accepted range, a NaN, -1.0 and 2^32 outside it. -/
theorem witness_FloatToV4 :
    (finite64 (stagedVal 0xBFECCCCCCCCCCCCD) ∧
      truncRat (value64 (stagedVal 0xBFECCCCCCCCCCCCD)) = (0 : Word).toNat) ∧
    (finite64 (stagedVal 0x41EFFFFFFFFCCCCD) ∧
      truncRat (value64 (stagedVal 0x41EFFFFFFFFCCCCD)) = (0xFFFFFFFF : Word).toNat) ∧
    ¬finite64 (stagedVal 0x7FF8000000000000) ∧
    truncRat (value64 (stagedVal 0xBFF0000000000000)) < 0 ∧
    0xFFFFFFFF < truncRat (value64 (stagedVal 0x41F0000000000000)) := by
  have f1 : finite64 (stagedVal 0xBFECCCCCCCCCCCCD) := by unfold finite64; decide
  have f2 : finite64 (stagedVal 0x41EFFFFFFFFCCCCD) := by unfold finite64; decide
  have f3 : finite64 (stagedVal 0xBFF0000000000000) := by unfold finite64; decide
  have f4 : finite64 (stagedVal 0x41F0000000000000) := by unfold finite64; decide
  refine ⟨⟨f1, truncRat_of f1 (by decide)⟩, ⟨f2, truncRat_of f2 (by decide)⟩, by unfold finite64; decide, ?_, ?_⟩
  · rw [truncRat_of (v := -1) f3 (by decide)]
    decide
  · rw [truncRat_of (v := 0x100000000) f4 (by decide)]
    decide

theorem witness_FloatToV6 :
    (finite64 (stagedVal 0x3FF8000000000000) ∧
      truncRat (value64 (stagedVal 0x3FF8000000000000)) = (1 : Word).toNat) ∧
    ¬finite64 (stagedVal 0xFFF0000000000000) := by
  have f1 : finite64 (stagedVal 0x3FF8000000000000) := by unfold finite64; decide
  exact ⟨⟨f1, truncRat_of f1 (by decide)⟩, by unfold finite64; decide⟩

theorem witness_AddressToV4 :
    State.reset.areg 0 = .empty ∧ (withRegs (.v4 #v[1, 2, 3, 4]) .empty).areg 0 = .v4 #v[1, 2, 3, 4] ∧
    (withRegs (.v6 #v[0, 0, 0, 0, 0, 0xFFFF, 1#8 ++ 2#8, 3#8 ++ 4#8]) .empty).areg 0 =
      .v6 #v[0, 0, 0, 0, 0, 0xFFFF, 1#8 ++ 2#8, 3#8 ++ 4#8] ∧
    (withRegs (.v6 #v[0, 0, 0, 0, 0, 0xFFFE, 1, 2]) .empty).areg 0 = .v6 #v[0, 0, 0, 0, 0, 0xFFFE, 1, 2] ∧
    (#v[0, 0, 0, 0, 0, 0xFFFE, 1, 2] : V6Limbs)[5] ≠ 0xFFFF := by decide

theorem witness_AddressToV6 :
    State.reset.areg 0 = .empty ∧ (withRegs (.v4 #v[1, 2, 3, 4]) .empty).areg 0 = .v4 #v[1, 2, 3, 4] ∧
    (withRegs (.v6 #v[1, 2, 3, 4, 5, 6, 7, 8]) .empty).areg 0 = .v6 #v[1, 2, 3, 4, 5, 6, 7, 8] := by decide

/-! ### Witnesses: lists -/

/-- The last element, non-numeric; at both ends of [0, 255]; and just outside each end. -/
theorem witness_ListElementValue :
    (withList 16 0x8000 []).listNonNum.getLsbD (15 : Fin 16) = true ∧
    (withList 4 0 [0, 255]).listNonNum.getLsbD (1 : Fin 16) = false ∧
    ((withList 4 0 [0, 255]).listElem[(0 : Fin 16)]).toInt = 0 ∧
    ((withList 4 0 [0, 255]).listElem[(1 : Fin 16)]).toInt = 255 ∧
    ((withList 4 0 [0xFFFFFFFF]).listElem[(0 : Fin 16)]).toInt < 0 ∧
    255 < ((withList 4 0 [256]).listElem[(0 : Fin 16)]).toInt := by decide

theorem witness_ListToV4 :
    (withList 5 0 []).listLen ≠ 4 ∧
    ((withList 4 0 [0, 255, 3, 4]).listLen = 4 ∧
      ∀ k : Fin 4, (withList 4 0 [0, 255, 3, 4]).listNonNum.getLsbD k = false ∧
        ((withList 4 0 [0, 255, 3, 4]).listElemAt k).toInt = (#v[0, 255, 3, 4] : V4Limbs)[k].toNat) ∧
    ((withList 4 0 [1, 2, 3, 256]).listLen = 4 ∧ 255 < ((withList 4 0 [1, 2, 3, 256]).listElemAt (3 : Fin 4)).toInt) ∧
    ((withList 4 1 []).listLen = 4 ∧ (withList 4 1 []).listNonNum.getLsbD (0 : Fin 4) = true) := by decide

theorem witness_ListToV6 :
    ((withList 9 0 []).listLen ≠ 8 ∧ (withList 9 0 []).listLen ≠ 10) ∧
    ((withList 8 0 [0, 1, 2, 3, 4, 5, 6, 65535]).listLen = 8 ∧
      ∀ k : Fin 8, (withList 8 0 [0, 1, 2, 3, 4, 5, 6, 65535]).listNonNum.getLsbD k = false ∧
        ((withList 8 0 [0, 1, 2, 3, 4, 5, 6, 65535]).listElemAt k).toInt =
          (#v[0, 1, 2, 3, 4, 5, 6, 65535] : V6Limbs)[k].toNat) ∧
    ((withList 10 0 [0, 0, 0, 0, 0, 65535, 192, 0, 2, 255]).listLen = 10 ∧
      (∀ k : Fin 6, (withList 10 0 [0, 0, 0, 0, 0, 65535, 192, 0, 2, 255]).listNonNum.getLsbD k = false ∧
        ((withList 10 0 [0, 0, 0, 0, 0, 65535, 192, 0, 2, 255]).listElemAt k).toInt =
          (#v[0, 0, 0, 0, 0, 65535] : Limbs 16 6)[k].toNat) ∧
      ∀ k : Fin 4, (withList 10 0 [0, 0, 0, 0, 0, 65535, 192, 0, 2, 255]).listNonNum.getLsbD (6 + k) = false ∧
        ((withList 10 0 [0, 0, 0, 0, 0, 65535, 192, 0, 2, 255]).listElemAt (6 + k)).toInt =
          (#v[192, 0, 2, 255] : V4Limbs)[k].toNat) ∧
    ((withList 10 0 [0, 0, 0, 0, 0, 65536]).listLen = 10 ∧
      0xFFFF < ((withList 10 0 [0, 0, 0, 0, 0, 65536]).listElemAt 5).toInt) ∧
    ((withList 10 0 [0, 0, 0, 0, 0, 0, 256]).listLen = 10 ∧
      0xFF < ((withList 10 0 [0, 0, 0, 0, 0, 0, 256]).listElemAt 6).toInt) ∧
    (withList 8 0x80 []).listLen = 8 ∧ (withList 8 0x80 []).listNonNum.getLsbD 7 = true := by decide

/-! ### Witnesses: text -/

theorem witness_TextLengthCheck :
    256 < ({ State.reset with inLen := 257 } : State).inLen.toNat ∧
      ({ State.reset with inLen := 256 } : State).inLen.toNat ≤ 256 := by decide

theorem witness_EmptyAndNamedTexts :
    (withText []).inLen = 0 ∧ (withText (ascii "eth0")).inLen.toNat ≤ 256 ∧
      textInput (withText (ascii "eth0")) ∈ [ascii "localhost", ascii "lo", ascii "loopback", ascii "eth0"] := by decide

/-- A count is decimal digits, after a '-' or not. -/
theorem countText_of {d : List Byte} {n : Nat} (h0 : d ≠ []) (h : d.all isDec = true) (hn : decVal d = n) :
    countText d n ∧ countText (minus :: d) (-n) :=
  ⟨⟨d, h0, by simpa using h, .inl ⟨rfl, by rw [hn]⟩⟩, ⟨d, h0, by simpa using h, .inr ⟨rfl, by rw [hn]⟩⟩⟩

/-- The counts 0, 32 and 128 at the ends, -1, 33 and 129 just outside, and a remainder that is no count. -/
theorem witness_MaskTexts :
    (textInput (withText (ascii "/128")) = slash :: ascii "128" ∧ countText (ascii "128") (128 : Nat)) ∧
    (textInput (withText (ascii "/32")) = slash :: ascii "32" ∧ countText (ascii "32") (32 : Nat)) ∧
    (textInput (withText (ascii "\\0")) = backslash :: ascii "0" ∧ countText (ascii "0") (0 : Nat)) ∧
    (textInput (withText (ascii "/129")) = slash :: ascii "129" ∧ countText (ascii "129") (129 : Nat)) ∧
    (textInput (withText (ascii "\\33")) = backslash :: ascii "33" ∧ countText (ascii "33") (33 : Nat)) ∧
    (textInput (withText (ascii "/-1")) = slash :: minus :: ascii "1" ∧ countText (minus :: ascii "1") (-(1 : Nat))) ∧
    (textInput (withText (ascii "\\x")) = backslash :: ascii "x" ∧ ¬∃ n, countText (ascii "x") n) := by
  refine ⟨⟨by decide, (countText_of (by decide) (by decide) (by decide)).1⟩,
    ⟨by decide, (countText_of (by decide) (by decide) (by decide)).1⟩,
    ⟨by decide, (countText_of (by decide) (by decide) (by decide)).1⟩,
    ⟨by decide, (countText_of (by decide) (by decide) (by decide)).1⟩,
    ⟨by decide, (countText_of (by decide) (by decide) (by decide)).1⟩,
    ⟨by decide, (countText_of (by decide) (by decide) (by decide)).2⟩, by decide, ?_⟩
  rintro ⟨n, hn⟩
  have h := maskCount_count 32 hn
  rw [show maskCount (ascii "x") 32 = .error .illegalValue by decide] at h
  split at h <;> cases h

theorem witness_DottedTextToV4 :
    quadText (textInput (withText (ascii "0.0.0.00000255"))) #v[0, 0, 0, 255] ∧
    ((¬∃ g, quadText (textInput (withText (ascii "1.2.3.256"))) g) ∧ textInput (withText (ascii "1.2.3.256")) ≠ [] ∧
      textInput (withText (ascii "1.2.3.256")) ∉ [ascii "localhost", ascii "lo", ascii "loopback", ascii "eth0"] ∧
      (textInput (withText (ascii "1.2.3.256"))).head? ≠ some slash ∧
      (textInput (withText (ascii "1.2.3.256"))).head? ≠ some backslash) := by
  refine ⟨dottedV4_ok_iff.mp (by decide), ?_, by decide⟩
  rintro ⟨g, hg⟩
  have h := dottedV4_ok_iff.mpr hg
  rw [show dottedV4 (textInput (withText (ascii "1.2.3.256"))) = .error .illegalValue by decide] at h
  cases h

/-- Each of the four forms, and a text with eight groups and '::', which stands for no address. -/
theorem witness_ColonTextToV6 :
    addressText (textInput (withText (ascii "1:2:3:4:5:6:7:FFFF"))) #v[1, 2, 3, 4, 5, 6, 7, 0xFFFF] ∧
    addressText (textInput (withText (ascii "1:2:3:4:5:6:1.2.3.4"))) #v[1, 2, 3, 4, 5, 6, 0x102, 0x304] ∧
    addressText (textInput (withText (ascii "1:2:3:4:5:6:7::"))) #v[1, 2, 3, 4, 5, 6, 7, 0] ∧
    addressText (textInput (withText (ascii "::ffff:192.0.2.1"))) #v[0, 0, 0, 0, 0, 0xFFFF, 0xC000, 0x201] ∧
    ((¬∃ g, addressText (textInput (withText (ascii "1:2:3:4:5:6:7:8::"))) g) ∧
      textInput (withText (ascii "1:2:3:4:5:6:7:8::")) ≠ [] ∧
      textInput (withText (ascii "1:2:3:4:5:6:7:8::")) ∉
        [ascii "localhost", ascii "lo", ascii "loopback", ascii "eth0"] ∧
      (textInput (withText (ascii "1:2:3:4:5:6:7:8::"))).head? ≠ some slash ∧
      (textInput (withText (ascii "1:2:3:4:5:6:7:8::"))).head? ≠ some backslash) := by
  refine ⟨colonV6_ok_iff.mp (by decide), colonV6_ok_iff.mp (by decide), colonV6_ok_iff.mp (by decide),
    colonV6_ok_iff.mp (by decide), ?_, by decide⟩
  rintro ⟨g, hg⟩
  have h := colonV6_ok_iff.mpr hg
  rw [show colonV6 (textInput (withText (ascii "1:2:3:4:5:6:7:8::"))) = .error .malformed by decide] at h
  cases h

/-- A text of 256 bytes, one of 5 bytes with its padding bytes 5 to 7 and the byte 8 past it, a scalar, a list of 16 elements that starts with a numeric one and ends with another kind, and the
empty list. -/
theorem witness_StagedInputsAreTheInputs :
    ((List.replicate 256 (0x31 : Byte)).length ≤ 256 ∧
      (withInputs (stxt (List.replicate 256 0x31))).inputs = stxt (List.replicate 256 0x31) ++ []) ∧
    ((withInputs (stxt (ascii "1.2.3"))).inputs = stxt (ascii "1.2.3") ++ [] ∧ (ascii "1.2.3").length ≤ 5 ∧
      7 < 4 * (((ascii "1.2.3").length + 3) / 4) ∧ 4 * (((ascii "1.2.3").length + 3) / 4) ≤ 8) ∧
    (withInputs (sval 0x8000000000000001)).inputs = sval 0x8000000000000001 ++ [] ∧
    ((some 0xFFFFFFFF :: List.replicate 15 none : List (Option Word)).length ≤ 16 ∧
      (withInputs (slist (some 0xFFFFFFFF :: List.replicate 15 none))).inputs =
        slist (some 0xFFFFFFFF :: List.replicate 15 none) ++ [] ∧
      (some 0xFFFFFFFF :: List.replicate 15 none : List (Option Word))[(0 : Fin 16).val]? = some (some 0xFFFFFFFF) ∧
      (some 0xFFFFFFFF :: List.replicate 15 none : List (Option Word))[(15 : Fin 16).val]? = some none) ∧
    (withInputs (slist [])).inputs = slist [] ++ [] ∧ ([] : List (Option Word)).length ≤ (0 : Fin 16).val := by
  refine ⟨⟨Nat.le_of_eq List.length_replicate, ?_⟩, ⟨?_, by decide⟩, ?_, ⟨by decide, ?_, by decide, by decide⟩, ?_,
    by decide⟩ <;>
    (rw [List.append_nil]; rfl)

theorem witness_SourceErrorCases :
    textInput (withText (ascii "1.2.3.256")) = ascii "1.2.3.256" ∧ textInput (withText (ascii "1.2.3")) = ascii "1.2.3" ∧
    textInput (withText (ascii "2001::1::2")) = ascii "2001::1::2" ∧ textInput (withText (ascii "/200")) = ascii "/200" ∧
    (withText (ascii "2001::1::2")).inLen.toNat ≤ 256 := by decide

/-- Each way the dotted scan fails, in the order of `DottedFails`. -/
theorem witness_DottedFails :
    ∀ p ∈ [("1.2x.", ErrKind.malformed), ("1.2.3.4.5.x", .malformed), ("1..x", .illegalValue), ("256.x", .illegalValue),
      ("1.2.3.4.", .malformed), ("1.2.3.256", .illegalValue), ("1.2.3.", .illegalValue), ("1.2.3", .malformed)],
      DottedFails (ascii p.1) p.2 := by
  have h : ∀ p ∈ [("1.2x.", ErrKind.malformed), ("1.2.3.4.5.x", .malformed), ("1..x", .illegalValue),
      ("256.x", .illegalValue), ("1.2.3.4.", .malformed), ("1.2.3.256", .illegalValue), ("1.2.3.", .illegalValue),
      ("1.2.3", .malformed)], dottedV4 (ascii p.1) = .error p.2 := by decide
  exact fun p hp => dottedV4_error_iff.mp (h p hp)

/-- Each way the colon scan fails, in the order of `ColonFails` and then of `BackFails`. -/
theorem witness_ColonFails :
    ∀ p ∈ [("1:g:12345:", ErrKind.malformed), ("1:2:3:4:5:6:7:8:9:g", .malformed), ("12345::g", .illegalValue),
      (":1::", .malformed), ("1.2.3.256", .malformed), ("1:2:3:4:5:6:1.2.3.256", .illegalValue), ("1:2:", .malformed),
      ("1:2:3:4:5:6:7:8:9", .malformed), ("1:12345", .illegalValue), ("1:2", .malformed), ("1:2:3:4:5:6:7:8::", .malformed),
      ("::12345:g:2", .malformed), ("::g.1:2", .malformed), ("::12345:1.2.3.4.5", .malformed), ("::g.256", .illegalValue),
      ("::g:12345", .illegalValue), ("::12345::2", .malformed), ("::12345", .illegalValue)],
      ColonFails (ascii p.1) p.2 := by
  have h : ∀ p ∈ [("1:g:12345:", ErrKind.malformed), ("1:2:3:4:5:6:7:8:9:g", .malformed), ("12345::g", .illegalValue),
      (":1::", .malformed), ("1.2.3.256", .malformed), ("1:2:3:4:5:6:1.2.3.256", .illegalValue), ("1:2:", .malformed),
      ("1:2:3:4:5:6:7:8:9", .malformed), ("1:12345", .illegalValue), ("1:2", .malformed), ("1:2:3:4:5:6:7:8::", .malformed),
      ("::12345:g:2", .malformed), ("::g.1:2", .malformed), ("::12345:1.2.3.4.5", .malformed), ("::g.256", .illegalValue),
      ("::g:12345", .illegalValue), ("::12345::2", .malformed), ("::12345", .illegalValue)],
      colonV6 (ascii p.1) = .error p.2 := by decide
  exact fun p hp => colonV6_error_iff.mp (h p hp)

/-- The backward phase's empty leftmost octet (log entry 15), after a ':' and after '::', and an empty octet that a '.' closes. -/
theorem test_empty_octets :
    colonV6 (ascii "::ffff:.2.3.4") = .error .malformed ∧ colonV6 (ascii "::.2.3.4") = .error .malformed ∧
      colonV6 (ascii "::1..3.4") = .error .illegalValue ∧ colonV6 (ascii "1:2:3:4:5:6:.2.3.4") = .error .illegalValue := by
  decide

/-- A text that reaches both scans, and the example of R348. -/
theorem witness_FirstErrorInScanOrder :
    (textInput (withText (ascii "256.g")) ≠ [] ∧
      textInput (withText (ascii "256.g")) ∉ [ascii "localhost", ascii "lo", ascii "loopback", ascii "eth0"] ∧
      (textInput (withText (ascii "256.g"))).head? ≠ some slash ∧
      (textInput (withText (ascii "256.g"))).head? ≠ some backslash) ∧
    textInput (withText (ascii "12345::g")) = ascii "12345:" ++ ascii ":g" ∧
      (withText (ascii "12345::g")).inLen.toNat ≤ 256 := by decide

/-! ### Witnesses: masks -/

/-- NetmaskV4, WildmaskV4, NetmaskV6 and WildmaskV6: the counts at the ends of each range, and the field's greatest value. -/
theorem witness_mask_counts : 0 ≤ 32 ∧ 32 ≤ 32 ∧ 32 < 33 ∧ 128 ≤ 128 ∧ 128 < 129 ∧ 255 < 256 := by decide

theorem witness_MasksGroupByGroup : 128 ≤ 8 * 16 ∧ (7 : Fin 8).val = 7 := by decide

theorem witness_MasksAreComplements : (0 : RegIx) ≠ 1 ∧ 32 ≤ 32 ∧ 128 ≤ 128 := by decide

/-! ### Witnesses: the ALU -/

/-- AndIsLimbwise, OrIsLimbwise, AddIsModular and SubIsModular: operands of each version, EMPTY, and of two versions either way
round. -/
theorem witness_binaryCommand :
    ((withRegs (.v4 #v[255, 255, 255, 255]) (.v4 #v[0, 0, 0, 1])).areg 0 = .v4 #v[255, 255, 255, 255] ∧
      (withRegs (.v4 #v[255, 255, 255, 255]) (.v4 #v[0, 0, 0, 1])).areg 1 = .v4 #v[0, 0, 0, 1]) ∧
    ((withRegs (.v6 #v[0, 0, 0, 0, 0, 0, 0, 0]) (.v6 #v[0, 0, 0, 0, 0, 0, 0, 1])).areg 0 = .v6 #v[0, 0, 0, 0, 0, 0, 0, 0] ∧
      (withRegs (.v6 #v[0, 0, 0, 0, 0, 0, 0, 0]) (.v6 #v[0, 0, 0, 0, 0, 0, 0, 1])).areg 1 =
        .v6 #v[0, 0, 0, 0, 0, 0, 0, 1]) ∧
    ((withRegs (.v4 #v[1, 2, 3, 4]) .empty).areg 1 = .empty ∧ (withRegs .empty (.v4 #v[1, 2, 3, 4])).areg 0 = .empty) ∧
    ((withRegs (.v4 #v[1, 2, 3, 4]) (.v6 #v[0, 0, 0, 0, 0, 0, 0, 1])).areg 0 = .v4 #v[1, 2, 3, 4] ∧
      (withRegs (.v4 #v[1, 2, 3, 4]) (.v6 #v[0, 0, 0, 0, 0, 0, 0, 1])).areg 1 = .v6 #v[0, 0, 0, 0, 0, 0, 0, 1]) ∧
    ((withRegs (.v6 #v[0, 0, 0, 0, 0, 0, 0, 1]) (.v4 #v[1, 2, 3, 4])).areg 0 = .v6 #v[0, 0, 0, 0, 0, 0, 0, 1] ∧
      (withRegs (.v6 #v[0, 0, 0, 0, 0, 0, 0, 1]) (.v4 #v[1, 2, 3, 4])).areg 1 = .v4 #v[1, 2, 3, 4]) := by decide

theorem witness_NotIsLimbwise :
    State.reset.areg 0 = .empty ∧ (withRegs (.v4 #v[1, 2, 3, 4]) .empty).areg 0 = .v4 #v[1, 2, 3, 4] ∧
    (withRegs (.v6 #v[1, 2, 3, 4, 5, 6, 7, 8]) .empty).areg 0 = .v6 #v[1, 2, 3, 4, 5, 6, 7, 8] := by decide

theorem witness_AluLaws :
    (withRegs (.v4 #v[255, 255, 255, 255]) (.v4 #v[0, 0, 0, 1])).areg 0 ≠ .empty ∧
    ((withRegs (.v4 #v[255, 255, 255, 255]) (.v4 #v[0, 0, 0, 1])).areg 0).tagCode =
      ((withRegs (.v4 #v[255, 255, 255, 255]) (.v4 #v[0, 0, 0, 1])).areg 1).tagCode ∧
    (2 : RegIx) ≠ 1 ∧ (3 : RegIx) ≠ 0 := by decide

/-! ### Witnesses: the whole machine -/

theorem witness_StepKeepsInvariant :
    inv (withInputs [.write 0x1FC 32 5]) ∧ ∃ t, step (withInputs [.write 0x1FC 32 5]) = .next t :=
  ⟨⟨by decide, fun h => absurd rfl h⟩, _, rfl⟩

theorem witness_SafeRunsNeverStop : safe (withInputs [.write 0x000 32 0, .read 0x004 32, .reset]) := by
  intro i hi
  rcases List.mem_cons.mp hi with rfl | hi
  · change accepted 0x000 32
    unfold accepted reserved
    decide
  · rcases List.mem_cons.mp hi with rfl | hi
    · change accepted 0x004 32
      unfold accepted reserved
      decide
    · rcases List.mem_cons.mp hi with rfl | hi
      · trivial
      · cases hi

/-- Two states that differ in STATUS, in a byte past the text, in IN_VAL and in the list, for a text command. -/
theorem witness_CommandsReadOnlyTheirInputs :
    sameInputs (.d4txt 0) (withText (ascii "lo"))
      { withText (ascii "lo") with
        sticky := true, inValLo := 7, listLen := 4, text := (withText (ascii "lo")).text ++ [(0x102, 5)] } ∧
    withText (ascii "lo") ≠
      { withText (ascii "lo") with
        sticky := true, inValLo := 7, listLen := 4, text := (withText (ascii "lo")).text ++ [(0x102, 5)] } := by
  refine ⟨⟨by simp [sources], rfl, ?_⟩, fun h => absurd (congrArg State.sticky h) ?_⟩
  · have hl : (withText (ascii "lo")).inLen.toNat = 2 := by decide
    rw [hl]
    intro k hk
    interval_cases k <;> decide
  · decide

/-- One command for each other form of input, with every other staging register changed. -/
theorem witness_sameInputs :
    sameInputs (.d6int 0) (withVal 5) { withVal 5 with inLen := 9, listLen := 4 } ∧
    sameInputs (.d4lst 0) (withList 4 0 [1, 2, 3, 4]) { withList 4 0 [1, 2, 3, 4] with inLen := 9, inValHi := 1 } ∧
    sameInputs (.not 1 0) (withRegs (.v4 #v[1, 2, 3, 4]) .empty)
      { withRegs (.v4 #v[1, 2, 3, 4]) (.v4 #v[5, 6, 7, 8]) with inLen := 9, inValHi := 1, listLen := 4 } := by
  refine ⟨⟨by simp [sources], rfl, rfl⟩, ⟨by simp [sources], rfl, rfl, fun k _ _ => rfl⟩, ⟨?_, trivial⟩⟩
  intro r hr
  have hr : r = 0 := by simpa [sources] using hr
  subst hr
  decide

/-- The accesses of a sequence: a command that fails, a staging write, a read, a STATUS write that clears nothing, and a command
that succeeds. -/
def accesses : List Input :=
  [.write 0x000 32 0x00000000, .write 0x00C 32 5, .read 0x018 32, .write 0x004 32 0, .write 0x000 32 0x00000002]

/-- The states of the sequence, with a reset after it. -/
def sequenceStates : Nat → State
  | 0 => withInputs (accesses ++ [.reset])
  | 1 => { State.reset with inputs := accesses.drop 1 ++ [.reset], errKind := some .badCommand, sticky := true }
  | 2 => { State.reset with inputs := accesses.drop 2 ++ [.reset], errKind := some .badCommand, sticky := true, inLen := 5 }
  | 3 => { State.reset with
      inputs := accesses.drop 3 ++ [.reset], errKind := some .badCommand, sticky := true, inLen := 5, reads := [0] }
  | 4 => { State.reset with
      inputs := accesses.drop 4 ++ [.reset], errKind := some .badCommand, sticky := true, inLen := 5, reads := [0] }
  | _ => { State.reset with
      inputs := [.reset], cmd := 2, regs := State.reset.regs.set 0 (.v4 #v[127, 0, 0, 1]), sticky := true, inLen := 5
      reads := [0] }

theorem witness_StickyRecordsFailures :
    (sequenceStates 0).inputs = accesses ++ [.reset] ∧
    (∀ n < accesses.length, step (sequenceStates n) = .next (sequenceStates (n + 1))) ∧ .reset ∉ accesses ∧
    (∀ v, .write 0x004 32 v ∈ accesses → v.getLsbD 8 = false) ∧
    (accesses[0]? = some (.write 0x000 32 0x00000000) ∧ (sequenceStates 1).errKind ≠ none) ∧
    ∀ m w, 0 < m → ¬(accesses[m]? = some (.write 0x000 32 w) ∧ (sequenceStates (m + 1)).errKind ≠ none) := by
  refine ⟨rfl, ?_, by decide, ?_, ⟨rfl, by decide⟩, ?_⟩
  · intro n hn
    change n < 5 at hn
    interval_cases n <;> rfl
  · intro v hv
    have : v = 0 := by simpa [accesses] using hv
    subst this
    rfl
  · rintro m w h0 ⟨h, hk⟩
    have hm : m < 5 := by
      by_contra hc
      rw [List.getElem?_eq_none (by simpa [accesses] using hc)] at h
      cases h
    interval_cases m
    · simp [accesses] at h
    · simp [accesses] at h
    · simp [accesses] at h
    · exact hk rfl

/-! ### Witnesses: digits -/

theorem witness_DigitsAndNumerals : 0 < 10 ∧ 9 < 10 ∧ 0 < 6 ∧ 5 < 6 := by decide

/-- R14: leading zeros, both cases and a token of any length. -/
theorem test_numerals :
    decVal (ascii "0256") = 256 ∧ hexVal (ascii "00aF") = 175 ∧ hexVal (ascii "12345") = 0x12345 ∧
      decVal (ascii "18446744073709551872") = 2 ^ 64 + 256 := by decide

end Sys2Proof.Tests
end

section
/-!
PROOFS. The terms the statements are made in: digits and numerals (R13, R14), group sequences as numbers (R11), the words
of an address register (R43), and the texts that the two text commands accept (R146-R148, R207-R212).
-/

namespace Sys2Proof.Machine

/-! ### Digits and numerals (R13, R14) -/

theorem isDec_iff (c : Byte) : isDec c = true ↔ 0x30#8 ≤ c ∧ c ≤ 0x39#8 := by
  simp [isDec, BitVec.le_def]

theorem isHex_iff (c : Byte) :
    isHex c = true ↔ (0x30#8 ≤ c ∧ c ≤ 0x39#8) ∨ (0x61#8 ≤ c ∧ c ≤ 0x66#8) ∨ (0x41#8 ≤ c ∧ c ≤ 0x46#8) := by
  simp [isHex, isDec, BitVec.le_def, or_assoc]

theorem toNat_asciiDigit {base d : Nat} (h : base + d < 256) : (BitVec.ofNat 8 (base + d)).toNat = base + d := by
  rw [BitVec.toNat_ofNat, Nat.mod_eq_of_lt h]

@[simp] theorem decVal_nil : decVal [] = 0 := rfl

@[simp] theorem hexVal_nil : hexVal [] = 0 := rfl

theorem decVal_concat (t : List Byte) (c : Byte) : decVal (t ++ [c]) = decVal t * 10 + (c.toNat - 0x30) := by
  simp [decVal]

theorem hexVal_concat (t : List Byte) (c : Byte) : hexVal (t ++ [c]) = hexVal t * 16 + hexDigit c := by
  simp [hexVal]

/-- One more digit at the end of a decimal numeral. -/
theorem decVal_append_digit (t : List Byte) {d : Nat} (h : d < 10) :
    decVal (t ++ [BitVec.ofNat 8 (0x30 + d)]) = decVal t * 10 + d := by
  rw [decVal_concat, toNat_asciiDigit (by omega), Nat.add_sub_cancel_left]

theorem hexDigit_decimal {d : Nat} (h : d < 10) : hexDigit (BitVec.ofNat 8 (0x30 + d)) = d := by
  have hn := toNat_asciiDigit (base := 0x30) (d := d) (by omega)
  have hd : isDec (BitVec.ofNat 8 (0x30 + d)) = true := by
    simp only [isDec, hn, Bool.and_eq_true, decide_eq_true_eq]
    omega
  rw [hexDigit, if_pos hd, hn, Nat.add_sub_cancel_left]

theorem isDec_eq_false_of_lt {c : Byte} (h : 0x39 < c.toNat) : isDec c = false := by
  simp only [isDec, Bool.and_eq_false_iff, decide_eq_false_iff_not]
  omega

theorem hexDigit_lower {d : Nat} (h : d < 6) : hexDigit (BitVec.ofNat 8 (0x61 + d)) = 10 + d := by
  have hn := toNat_asciiDigit (base := 0x61) (d := d) (by omega)
  rw [hexDigit, isDec_eq_false_of_lt (by omega), if_neg (by decide), if_pos (by omega), hn]
  omega

theorem hexDigit_upper {d : Nat} (h : d < 6) : hexDigit (BitVec.ofNat 8 (0x41 + d)) = 10 + d := by
  have hn := toNat_asciiDigit (base := 0x41) (d := d) (by omega)
  rw [hexDigit, isDec_eq_false_of_lt (by omega), if_neg (by decide), if_neg (by omega), hn]
  omega

/-- A byte with the value `v` as a hex digit: alone it is the numeral of `v`, and after a numeral it is its last digit. -/
theorem hexVal_of_hexDigit (t : List Byte) {c : Byte} {v : Nat} (h : hexDigit c = v) :
    hexVal [c] = v ∧ hexVal (t ++ [c]) = hexVal t * 16 + v :=
  ⟨by simpa [h] using hexVal_concat [] c, by rw [hexVal_concat, h]⟩

/-! ### The value of a group sequence as a sum (R11) -/

theorem limbsVal_ofFn_eq_sum {w n : Nat} (f : Fin n → BitVec w) :
    limbsVal (List.ofFn f) = ∑ k : Fin n, (f k).toNat * 2 ^ (w * (n - 1 - k.val)) := by
  induction n with
  | zero => simp
  | succ n ih =>
    have exponent (k : Fin n) : n - k.succ.val = n - 1 - k.val := by rw [Fin.val_succ]; omega
    rw [List.ofFn_succ, limbsVal_cons, ih, Fin.sum_univ_succ]
    simp only [exponent, List.length_ofFn, Fin.val_zero, Nat.sub_zero, Nat.add_sub_cancel]

theorem val_eq_sum {w n : Nat} (g : Limbs w n) : val g = ∑ k : Fin n, g[k].toNat * 2 ^ (w * (n - 1 - k.val)) := by
  have groups : g.toList = List.ofFn fun k : Fin n => g[k] := List.ext_getElem (by simp) fun i _ _ => by simp
  rw [val, groups, limbsVal_ofFn_eq_sum]

theorem limbsOf_getElem_toNat {w n : Nat} (x : Nat) (k : Fin n) :
    (limbsOf w n x)[k].toNat = x / 2 ^ (w * (n - 1 - k.val)) % 2 ^ w := by
  simp [limbsOf]

/-! ### The words of an address register (R43, R77) -/

@[simp] theorem readWord_empty (j : Fin 4) : AReg.empty.readWord j = 0 := rfl

theorem readWord_v4_zero (g : V4Limbs) : ((AReg.v4 g).readWord 0).toNat = val g := by
  simp only [AReg.readWord, if_true, toNat_append_eq, val_v4]
  ring

theorem readWord_v4_ne {j : Fin 4} (g : V4Limbs) (h : j ≠ 0) : (AReg.v4 g).readWord j = 0 := by
  simp [AReg.readWord, h]

theorem readWord_v6_words (g : V6Limbs) :
    ((AReg.v6 g).readWord 0 ++ (AReg.v6 g).readWord 1 ++ (AReg.v6 g).readWord 2 ++ (AReg.v6 g).readWord 3).toNat =
      val g := by
  change ((g[0] ++ g[1]) ++ (g[2] ++ g[3]) ++ (g[4] ++ g[5]) ++ (g[6] ++ g[7])).toNat = val g
  simp only [toNat_append_eq, val_v6]
  ring

theorem readReg_areg {s : State} {k : RegIx} {v : AReg} (h : s.areg k = v) (j : Fin 4) :
    readReg s (.areg k j) = v.readWord j := by
  rw [readReg, h]

/-! ### The text commands (R148, R212) -/

/-- `d4.txt` on a text of an accepted length: the dispatch of the text decides how the command ends. -/
theorem exec_d4txt (rd : RegIx) {s : State} (h : s.inLen.toNat ≤ 256) :
    exec (.d4txt rd) s = .next (complete rd (textV4 (textInput s) >>= fun g => pure (.v4 g)) s) := by
  rw [exec, execD4Txt, checkedText_ok h, except_ok_bind]

/-- `d6.txt` on a text of an accepted length: the dispatch of the text decides how the command ends. -/
theorem exec_d6txt (rd : RegIx) {s : State} (h : s.inLen.toNat ≤ 256) :
    exec (.d6txt rd) s = .next (complete rd (textV6 (textInput s) >>= fun g => pure (.v6 g)) s) := by
  rw [exec, execD6Txt, checkedText_ok h, except_ok_bind]

theorem exec_d4txt_ok (rd : RegIx) {s : State} {g : V4Limbs} (h : s.inLen.toNat ≤ 256)
    (ht : textV4 (textInput s) = .ok g) : exec (.d4txt rd) s = .next (commit rd (.v4 g) s) := by
  rw [exec_d4txt rd h, ht, except_ok_bind, except_pure, complete_ok]

theorem exec_d4txt_error (rd : RegIx) {s : State} {k : ErrKind} (h : s.inLen.toNat ≤ 256)
    (ht : textV4 (textInput s) = .error k) : exec (.d4txt rd) s = .next (abort k s) := by
  rw [exec_d4txt rd h, ht, except_error_bind, complete_error]

theorem exec_d6txt_ok (rd : RegIx) {s : State} {g : V6Limbs} (h : s.inLen.toNat ≤ 256)
    (ht : textV6 (textInput s) = .ok g) : exec (.d6txt rd) s = .next (commit rd (.v6 g) s) := by
  rw [exec_d6txt rd h, ht, except_ok_bind, except_pure, complete_ok]

theorem exec_d6txt_error (rd : RegIx) {s : State} {k : ErrKind} (h : s.inLen.toNat ≤ 256)
    (ht : textV6 (textInput s) = .error k) : exec (.d6txt rd) s = .next (abort k s) := by
  rw [exec_d6txt rd h, ht, except_error_bind, complete_error]

/-- A scan that accepts no address ends in one of the scan errors. -/
theorem scan_error_of_not_ok {α : Type} {x : Except ErrKind α} (notOk : ¬∃ g, x = .ok g)
    (scanErrors : ∀ k, x = .error k → scanError k) : x = .error .malformed ∨ x = .error .illegalValue := by
  cases x with
  | ok g => exact absurd ⟨g, rfl⟩ notOk
  | error k => exact (scanErrors k rfl).imp (congrArg _) (congrArg _)

/-! ### The statements -/

/-- Settles O60. -/
theorem digitsAndNumerals : Obligations.DigitsAndNumerals := by
  refine ⟨fun c => ⟨isDec_iff c, isHex_iff c⟩, rfl, rfl, rfl, rfl, rfl, specialNames_eq, ?_, ?_, ?_⟩
  · intro t d hd
    exact ⟨by simpa using decVal_append_digit [] hd, decVal_append_digit t hd⟩
  · intro t d hd
    exact hexVal_of_hexDigit t (hexDigit_decimal hd)
  · intro t d hd
    exact ⟨hexVal_of_hexDigit t (hexDigit_lower hd), hexVal_of_hexDigit t (hexDigit_upper hd)⟩

/-- Settles O24: the sum by induction on the number of groups, the inverse from the value of `limbsOf`. -/
theorem limbsAndVal : Obligations.LimbsAndVal := by
  intro w n
  refine ⟨fun g => ⟨val_eq_sum g, limbsOf_val g⟩, fun x hx => ⟨?_, limbsOf_getElem_toNat x⟩⟩
  rw [val_limbsOf, Nat.mul_comm w n, Nat.mod_eq_of_lt hx]

/-- Settles O21, tag by tag. -/
theorem addressRegistersReadTheirValue : Obligations.AddressRegistersReadTheirValue := by
  intro s k
  refine ⟨fun h j => ?_, fun g h => ⟨?_, fun j hj => ?_⟩, fun g h => ?_⟩
  · rw [readReg_areg h, readWord_empty]
  · rw [readReg_areg h, readWord_v4_zero]
  · rw [readReg_areg h, readWord_v4_ne g hj]
  · rw [readReg_areg h, readReg_areg h, readReg_areg h, readReg_areg h, readWord_v6_words]

/-- Settles O38: the dotted scan accepts exactly the texts of four octets (`dottedV4_ok_iff`), and every other text that
reaches it fails with an error of the scan. -/
theorem dottedTextToV4 : Obligations.DottedTextToV4 := by
  intro rd s hlen
  constructor
  · intro g hg
    exact exec_d4txt_ok rd hlen (textV4_of_dotted (dottedV4_ok_iff.mpr hg))
  · intro hno hne hname hslash hback
    have hscan := textV4_scan hne (specialNames_eq ▸ hname) hslash hback
    have hfails := scan_error_of_not_ok (by simpa only [dottedV4_ok_iff] using hno) fun _ => dottedV4_error
    rw [← hscan] at hfails
    exact hfails.imp (exec_d4txt_error rd hlen) (exec_d4txt_error rd hlen)

/-- Settles O39: the colon scan accepts exactly the texts of the four forms (`colonV6_ok_iff`), and every other text that
reaches it fails with an error of the scan. -/
theorem colonTextToV6 : Obligations.ColonTextToV6 := by
  intro rd s hlen
  constructor
  · intro g hg
    exact exec_d6txt_ok rd hlen (textV6_of_colon (colonV6_ok_iff.mpr hg))
  · intro hno hne hname hslash hback
    have hscan := textV6_scan hne (specialNames_eq ▸ hname) hslash hback
    have hfails := scan_error_of_not_ok (by simpa only [colonV6_ok_iff] using hno) fun _ => colonV6_error
    rw [← hscan] at hfails
    exact hfails.imp (exec_d6txt_error rd hlen) (exec_d6txt_error rd hlen)

end Sys2Proof.Machine
end

section
/-!
PROOFS. The state of the unit (10_state.md): what a command, a host access and the reset do to it (R33, R39-R50, R344-R347),
what the registers of the window read (R71-R83), the float inputs (R145, R205), and the staging that R111 expands to.
-/

namespace Sys2Proof.Machine

/-! ### What a command computes, and from what (R33, R45-R48, R345) -/

/-- `f` is the meaning of the command `i`: the command ends with what `f` answers, `f` raises no BadCommand, and it reads
nothing but the inputs of the command. -/
structure IsMeaning (i : Instr) (f : State → Except ErrKind AReg) : Prop where
  ends : ∀ s, exec i s = .next (complete (destination i) (f s) s)
  raises : ∀ s, notBad (f s)
  reads : ∀ s t, sameInputs i s t → f s = f t

theorem notBad_ok {α : Type} (a : α) : notBad (.ok a) := notBad_pure a

theorem inVal_congr {s t : State} (hlo : s.inValLo = t.inValLo) (hhi : s.inValHi = t.inValHi) : inVal s = inVal t := by
  rw [inVal, inVal, hlo, hhi]

theorem integerInput_congr {s t : State} (h : inVal s = inVal t) : integerInput s = integerInput t := by
  rw [integerInput, integerInput, h]

theorem floatInput_congr {s t : State} (h : inVal s = inVal t) : floatInput s = floatInput t := by
  rw [floatInput, floatInput, h]

theorem checkedText_congr {s t : State} (hl : s.inLen = t.inLen)
    (hb : ∀ k < s.inLen.toNat, s.textByte k = t.textByte k) : checkedText s = checkedText t := by
  rw [checkedText, checkedText, textInput_congr hl hb, hl]

theorem listV4_congr {s t : State} (hl : s.listLen = t.listLen) (hn : s.listNonNum = t.listNonNum)
    (he : ∀ k < s.listLen.toNat, s.listNonNum.getLsbD k = false → s.listElemAt k = t.listElemAt k) :
    listV4 s = listV4 t := by
  rw [listV4, listV4, ← hl]
  split
  · rfl
  · have four : s.listLen.toNat = 4 := by simpa using ‹¬s.listLen.toNat ≠ 4›
    rw [elemValues_congr 255 0 4 hn fun j hj => he j (by omega)]

theorem listV6_congr {s t : State} (hl : s.listLen = t.listLen) (hn : s.listNonNum = t.listNonNum)
    (he : ∀ k < s.listLen.toNat, s.listNonNum.getLsbD k = false → s.listElemAt k = t.listElemAt k) :
    listV6 s = listV6 t := by
  rw [listV6, listV6, ← hl]
  split
  · rw [elemValues_congr 0xFFFF 0 8 hn fun j hj => he j (by omega)]
  · split
    · rw [elemValues_congr 0xFFFF 0 6 hn fun j hj => he j (by omega),
        elemValues_congr 0xFF 6 4 hn fun j hj => he j (by omega)]
    · rfl

theorem notBad_integerInput (s : State) : notBad (integerInput s) := notBad_addressValue _

/-- A command that takes its input from the state and goes on from that input alone: it raises and reads what the taking of
the input does. -/
theorem isMeaning_of_input {α : Type} {i : Instr} {x : State → Except ErrKind α} {g : α → Except ErrKind AReg}
    (ends : ∀ s, exec i s = .next (complete (destination i) (x s >>= g) s)) (raises : ∀ s, notBad (x s))
    (goesOn : ∀ a, notBad (g a)) (reads : ∀ s t, sameInputs i s t → x s = x t) : ∃ f, IsMeaning i f :=
  ⟨fun s => x s >>= g, ends, fun s => notBad_bind (raises s) goesOn, fun s t h => congrArg (· >>= g) (reads s t h)⟩

theorem isMeaning_of_constant {i : Instr} {v : AReg} (ends : ∀ s, exec i s = .next (complete (destination i) (.ok v) s)) :
    ∃ f, IsMeaning i f :=
  isMeaning_of_input (x := fun _ => .ok v) (g := .ok) ends (fun _ => notBad_ok v) notBad_ok fun _ _ _ => rfl

theorem isMeaning_of_binaryAlu {i : Instr} {op : (w n : Nat) → Limbs w n → Limbs w n → Limbs w n} {rs1 rs2 : RegIx}
    (ends : ∀ s, exec i s = .next (complete (destination i) (binaryAlu op s rs1 rs2) s))
    (named : sources i = [rs1, rs2]) : ∃ f, IsMeaning i f :=
  ⟨fun s => binaryAlu op s rs1 rs2, ends, fun s => notBad_binaryAlu op s rs1 rs2, fun s t ⟨agree, _⟩ => by
    rw [binaryAlu, binaryAlu, fetch2_congr (agree rs1 (by simp [named])) (agree rs2 (by simp [named]))]⟩

/-- Every command has a meaning, by the form of its input. -/
theorem exists_isMeaning (i : Instr) : ∃ f, IsMeaning i f := by
  cases i with
  | d4abs | d4true | d6abs | d6true => exact isMeaning_of_constant fun _ => rfl
  | d4int | d6int =>
    exact isMeaning_of_input (x := integerInput) (fun _ => rfl) notBad_integerInput (fun _ => notBad_pure _)
      fun _ _ ⟨_, hlo, hhi⟩ => integerInput_congr (inVal_congr hlo hhi)
  | d4flt | d6flt =>
    exact isMeaning_of_input (x := floatInput) (fun _ => rfl) notBad_floatInput (fun _ => notBad_pure _)
      fun _ _ ⟨_, hlo, hhi⟩ => floatInput_congr (inVal_congr hlo hhi)
  | d4txt =>
    exact isMeaning_of_input (x := checkedText) (fun _ => rfl) notBad_checkedText
      (fun _ => notBad_bind (notBad_textV4 _) fun _ => notBad_pure _) fun _ _ ⟨_, hl, hb⟩ => checkedText_congr hl hb
  | d6txt =>
    exact isMeaning_of_input (x := checkedText) (fun _ => rfl) notBad_checkedText
      (fun _ => notBad_bind (notBad_textV6 _) fun _ => notBad_pure _) fun _ _ ⟨_, hl, hb⟩ => checkedText_congr hl hb
  | d4lst =>
    exact isMeaning_of_input (x := listV4) (fun _ => rfl) notBad_listV4 (fun _ => notBad_pure _)
      fun _ _ ⟨_, hl, hn, he⟩ => listV4_congr hl hn he
  | d6lst =>
    exact isMeaning_of_input (x := listV6) (fun _ => rfl) notBad_listV6 (fun _ => notBad_pure _)
      fun _ _ ⟨_, hl, hn, he⟩ => listV6_congr hl hn he
  | d4adr rd rs1 =>
    exact isMeaning_of_input (x := fun s => fetch1 s rs1) (fun _ => rfl) (fun _ => notBad_fetch1 _ _)
      (fun _ => notBad_bind (notBad_toV4 _) fun _ => notBad_pure _)
      fun _ _ ⟨agree, _⟩ => fetch1_congr (agree rs1 (by simp [sources]))
  | d6adr rd rs1 =>
    exact isMeaning_of_input (x := fun s => fetch1 s rs1) (fun _ => rfl) (fun _ => notBad_fetch1 _ _)
      (fun _ => notBad_bind (notBad_toV6 _) fun _ => notBad_pure _)
      fun _ _ ⟨agree, _⟩ => fetch1_congr (agree rs1 (by simp [sources]))
  | m4net rd n | m4wild rd n =>
    exact isMeaning_of_input (x := fun _ => maskBits 32 n) (fun _ => rfl) (fun _ => notBad_maskBits _ _)
      (fun _ => notBad_pure _) fun _ _ _ => rfl
  | m6net rd n | m6wild rd n =>
    exact isMeaning_of_input (x := fun _ => maskBits 128 n) (fun _ => rfl) (fun _ => notBad_maskBits _ _)
      (fun _ => notBad_pure _) fun _ _ _ => rfl
  | and | or | add | sub => exact isMeaning_of_binaryAlu (fun _ => rfl) rfl
  | not rd rs1 =>
    exact ⟨fun s => unaryAlu notLimbs s rs1, fun _ => rfl, fun s => notBad_unaryAlu _ s rs1, fun s t ⟨agree, _⟩ => by
      rw [unaryAlu, unaryAlu, fetch1_congr (agree rs1 (by simp [sources]))]⟩

/-- Every command commits to its RD or aborts, with an error other than BadCommand. -/
theorem exec_cases (i : Instr) (s : State) :
    (∃ v, exec i s = .next (commit (destination i) v s)) ∨
      ∃ k, k ≠ .badCommand ∧ exec i s = .next (abort k s) := by
  obtain ⟨f, hf⟩ := exists_isMeaning i
  rw [hf.ends]
  rcases complete_cases (destination i) (f s) s with ⟨v, _, hc⟩ | ⟨k, hk, hc⟩
  · exact .inl ⟨v, by rw [hc]⟩
  · exact .inr ⟨k, fun bad => hf.raises s (bad ▸ hk), by rw [hc]⟩

/-- The register the command of an opcode row writes is the one the row is given. -/
theorem opcodeRow_destination {opc nbits : Nat} {rd rs1 rs2 : RegIx} {used : Word} {i : Instr}
    (h : opcodeRow opc rd rs1 rs2 nbits = some (used, i)) : destination i = rd := by
  unfold opcodeRow at h
  split at h <;> cases h <;> rfl

/-- A word's command writes the register of the word's RD field (R101). -/
theorem destination_of_decode {w : Word} {i : Instr} (h : decode w = .ok i) : destination i = rdField w := by
  obtain ⟨_, hrow, _⟩ := decode_ok h
  exact opcodeRow_destination hrow

/-- Everything the execution of a word can do: it commits to the register of the RD field, or it aborts. -/
theorem runCommand_cases (w : Word) (s : State) :
    (∃ v, runCommand w s = .next (commit (rdField w) v s)) ∨ ∃ k, runCommand w s = .next (abort k s) := by
  unfold runCommand
  cases hd : decode w with
  | ok i =>
    rcases exec_cases i s with ⟨v, h⟩ | ⟨k, _, h⟩
    · exact .inl ⟨v, destination_of_decode hd ▸ h⟩
    · exact .inr ⟨k, h⟩
  | error k => exact .inr ⟨k, rfl⟩

/-! ### The invariant (R39, R344; log entry 11) -/

theorem inv_commit {rd : RegIx} {v : AReg} {s : State} (h : s.text.wf = true) : inv (commit rd v s) :=
  ⟨h, fun hk => absurd rfl hk⟩

theorem inv_abort {k : ErrKind} {s : State} (h : s.text.wf = true) : inv (abort k s) := ⟨h, fun _ => rfl⟩

/-- A command leaves the invariant behind whatever ERRKIND, CMD and ERRCMD were before it. -/
theorem inv_runCommand {w : Word} {s t : State} (h : s.text.wf = true) (ht : runCommand w s = .next t) : inv t := by
  rcases runCommand_cases w s with ⟨v, hr⟩ | ⟨k, hr⟩
  · cases hr.symm.trans ht
    exact inv_commit h
  · cases hr.symm.trans ht
    exact inv_abort h

/-- Every write of the window keeps the invariant: a command restores it, and TEXT is the only other register it speaks of
that a write reaches. -/
theorem inv_writeReg {r : WindowReg} {v : Word} {s t : State} (h : inv s) (ht : writeReg r v s = .next t) : inv t := by
  obtain ⟨hwf, hcmd⟩ := h
  cases r with
  | cmd => exact inv_runCommand (s := { s with cmd := v }) hwf ht
  | text q =>
    cases ht
    exact ⟨wf_setTextWord v hwf q.isLt, hcmd⟩
  | _ =>
    cases ht
    exact ⟨hwf, hcmd⟩

theorem inv_platformReset (s : State) : inv (platformReset s) := ⟨rfl, fun hk => absurd rfl hk⟩

/-! ### The statements on a command and on the reset -/

/-- Settles O56, by the input the step performs. -/
theorem stepKeepsInvariant : Obligations.StepKeepsInvariant := by
  intro s t hs hstep
  rcases step_cases hstep with ⟨_, rfl⟩ | ⟨_, _, _, _, _, _, rfl⟩ | ⟨_, _, _, rest, _, _, _, hw⟩ | ⟨_, _, rfl⟩
  · exact hs
  · exact hs
  · exact inv_writeReg (s := { s with inputs := rest }) hs hw
  · exact inv_platformReset _

/-- Settles O55: after the reset nothing is written to TEXT and ERRKIND is 0. -/
theorem resetMeetsInvariant : Obligations.ResetMeetsInvariant := ⟨Memory.wf_nil, fun hk => absurd rfl hk⟩

/-- Settles O6: the write runs its word, which decodes to the command. -/
theorem stepRunsDecodedCommand : Obligations.StepRunsDecodedCommand := by
  intro s w rest i hin hd
  rw [step_command hin, runCommand, hd]

/-- Settles O7, by the two ends of the word's execution. -/
theorem commandWriteOutcome : Obligations.CommandWriteOutcome := by
  intro s w rest hin
  rw [step_command hin]
  exact runCommand_cases w { s with inputs := rest, cmd := w }

/-- Settles O9: the two ends of `exec_cases`, written out field by field. -/
theorem commandCommitsOrAborts : Obligations.CommandCommitsOrAborts := exec_cases

/-- Settles O10: both ends of a command leave everything but RD, ERRKIND, STICKY and ERRCMD. -/
theorem commandFrame : Obligations.CommandFrame := by
  intro i s t ht
  rcases exec_cases i s with ⟨v, he⟩ | ⟨k, _, he⟩
  · cases he.symm.trans ht
    exact ⟨fun r hr => areg_commit_ne v s hr, fun hk => absurd rfl hk, fun _ => rfl, rfl, rfl, rfl, rfl, rfl, rfl, rfl, rfl,
      fun _ => ⟨rfl, rfl⟩⟩
  · cases he.symm.trans ht
    exact ⟨fun r _ => areg_abort k s r, fun _ => areg_abort k s _, fun _ => rfl, rfl, rfl, rfl, rfl, rfl, rfl, rfl, rfl,
      fun hk => nomatch hk⟩

/-- Settles O58: the two states give the command's meaning the same inputs, so it answers the same in both. -/
theorem commandsReadOnlyTheirInputs : Obligations.CommandsReadOnlyTheirInputs := by
  intro i s t hsame
  obtain ⟨f, hf⟩ := exists_isMeaning i
  rw [hf.ends s, hf.ends t, ← hf.reads s t hsame]
  cases f s with
  | ok v => exact .inl ⟨v, rfl, rfl⟩
  | error k => exact .inr ⟨k, rfl, rfl⟩

theorem areg_replicate_empty {s : State} (h : s.regs = Vector.replicate 8 .empty) (r : RegIx) : s.areg r = .empty := by
  simp [State.areg, h]

/-- Settles O13: the address registers read as EMPTY ones do, and the other values stand in `State.reset`. -/
theorem resetValues : Obligations.ResetValues := by
  have areg_reset : ∀ r : RegIx, State.reset.areg r = .empty := areg_replicate_empty rfl
  refine ⟨areg_reset, fun k j => ?_, rfl, rfl, rfl, rfl, rfl, rfl, rfl, rfl, rfl, rfl⟩
  rw [readReg_areg (areg_reset k), readWord_empty]

/-- Settles O14: the step answers the platform's reset of the state. -/
theorem resetInputResets : Obligations.ResetInputResets := by
  intro s rest hin
  exact ⟨platformReset { s with inputs := rest }, step_cons hin, areg_replicate_empty rfl, rfl, rfl, rfl, rfl, rfl, rfl, rfl,
    rfl, rfl, rfl, rfl, rfl⟩

/-! ### The float inputs (R145, R205, R206) -/

theorem decode_commandWord_formatD {opc : Nat} {rd : RegIx} {i : Instr} (ho : opc < 256)
    (h : opcodeRow opc rd 0 0 0 = some (usedD, i)) : decode (commandWord opc rd 0 0) = .ok i := by
  rw [commandWord_eq, decode_formatD ho h]

/-- A number whose truncation is a word: the float input is that word. -/
theorem floatInput_word {s : State} {x : Word} (hf : finite64 (inVal s)) (hx : truncRat (value64 (inVal s)) = x.toNat) :
    floatInput s = .ok x.toNat := by
  have := x.isLt
  rw [floatInput_finite hf, hx, addressValue_ok (by omega) (by omega), Int.toNat_natCast]

/-- No finite number, or one whose truncation is no word: the float input is an IllegalValue. -/
theorem floatInput_error {s : State}
    (h : ¬finite64 (inVal s) ∨ truncRat (value64 (inVal s)) < 0 ∨ 0xFFFFFFFF < truncRat (value64 (inVal s))) :
    floatInput s = .error .illegalValue := by
  by_cases hf : finite64 (inVal s)
  · rw [floatInput_finite hf, addressValue_error (h.resolve_left (not_not_intro hf))]
  · exact floatInput_nonfinite hf

/-- The four bytes of a word. -/
theorem limbsOf_word (x : Word) :
    limbsOf 8 4 x.toNat = #v[x.extractLsb' 24 8, x.extractLsb' 16 8, x.extractLsb' 8 8, x.extractLsb' 0 8] := by
  simp only [limbsOf_v4, extractLsb'_eq_ofNat, Nat.pow_zero, Nat.div_one]

/-- The embedding of a word, half by half (R206). -/
theorem embed_word (x : Word) :
    embed x.toNat = #v[0, 0, 0, 0, 0, 0xFFFF, x.extractLsb' 16 16, x.extractLsb' 0 16] := by
  simp only [embed, extractLsb'_eq_ofNat, Nat.pow_zero, Nat.div_one]

/-- Settles O28: the float input of a finite pattern is its truncation (`floatInput_word`), or an error. -/
theorem floatToV4 : Obligations.FloatToV4 := by
  intro rd s
  refine ⟨decode_commandWord_formatD (by decide) rfl, fun x hf hx => ?_, fun h => ?_⟩
  · rw [exec, execD4Flt, floatInput_word hf hx, except_ok_bind, limbsOf_word, except_pure, complete_ok]
  · rw [exec, execD4Flt, floatInput_error h, except_error_bind, complete_error]

/-- Settles O29: the float input as in O28, embedded. -/
theorem floatToV6 : Obligations.FloatToV6 := by
  intro rd s
  refine ⟨decode_commandWord_formatD (by decide) rfl, fun x hf hx => ?_, fun h => ?_⟩
  · rw [exec, execD6Flt, floatInput_word hf hx, except_ok_bind, embed_word, except_pure, complete_ok]
  · rw [exec, execD6Flt, floatInput_error h, except_error_bind, complete_error]

/-! ### One access of the window -/

theorem step_read {s : State} {off : BitVec 10} {bits : Nat} {rest : List Input} {r : WindowReg}
    (hin : s.inputs = .read off bits :: rest) (hr : accessTarget off bits = .ok r) :
    step s = .next { s with inputs := rest, reads := readReg s r :: s.reads } := by
  rw [step_cons hin, perform, hr]
  cases r <;> rfl

theorem step_write {s : State} {off : BitVec 10} {bits : Nat} {v : Word} {rest : List Input} {r : WindowReg}
    (hin : s.inputs = .write off bits v :: rest) (hr : accessTarget off bits = .ok r) :
    step s = writeReg r v { s with inputs := rest } := by
  rw [step_cons hin, perform, hr]

/-- Every offset of the AREG rows is that of one of their words (R71). -/
theorem eq_offsetOf_areg {off : Nat} (h4 : off % 4 = 0) (hlo : 0x200 ≤ off) (hhi : off < 0x280) :
    ∃ k j, off = offsetOf (.areg k j) :=
  ⟨⟨(off - 0x200) / 16, by omega⟩, ⟨off % 16 / 4, by omega⟩, by simp only [offsetOf]; omega⟩

theorem accessTarget_areg {off : BitVec 10} (h4 : off.toNat % 4 = 0) (hlo : 0x200 ≤ off.toNat) (hhi : off.toNat < 0x280) :
    ∃ k j, accessTarget off 32 = .ok (.areg k j) := by
  obtain ⟨k, j, hoff⟩ := eq_offsetOf_areg h4 hlo hhi
  have hat := accessTarget_offsetOf (.areg k j)
  rw [← hoff, BitVec.ofNat_toNat, BitVec.setWidth_eq] at hat
  exact ⟨k, j, hat⟩

/-- A write of a register other than CMD runs no command: it leaves the address registers, CMD, ERRKIND, ERRCMD and the
model's own fields as they were. -/
theorem writeReg_keeps {r : WindowReg} {v : Word} {s t : State} (hr : r ≠ .cmd) (ht : writeReg r v s = .next t) :
    t.regs = s.regs ∧ t.cmd = s.cmd ∧ t.errKind = s.errKind ∧ t.errCmd = s.errCmd ∧ t.inputs = s.inputs ∧
      t.reads = s.reads ∧ t.resets = s.resets := by
  cases r with
  | cmd => exact absurd rfl hr
  | _ =>
    cases ht
    exact ⟨rfl, rfl, rfl, rfl, rfl, rfl, rfl⟩

theorem writeReg_sticky {r : WindowReg} {v : Word} {s t : State} (hc : r ≠ .cmd) (hs : r ≠ .status)
    (ht : writeReg r v s = .next t) : t.sticky = s.sticky := by
  cases r with
  | cmd => exact absurd rfl hc
  | status => exact absurd rfl hs
  | _ =>
    cases ht
    rfl

theorem textWord_setTextWord_ne (s : State) {p q : Nat} (v : Word) (h : p ≠ q) :
    (s.setTextWord q v).textWord p = s.textWord p := by
  simp only [State.textWord, textByte_setTextWord_ne s v (show (4 * p + 3) / 4 ≠ q by omega),
    textByte_setTextWord_ne s v (show (4 * p + 2) / 4 ≠ q by omega),
    textByte_setTextWord_ne s v (show (4 * p + 1) / 4 ≠ q by omega),
    textByte_setTextWord_ne s v (show 4 * p / 4 ≠ q by omega)]

theorem listElem_set_ne {n : Nat} (e : Vector Word n) (v : Word) {k k' : Fin n} (h : k' ≠ k) : (e.set k v)[k'] = e[k'] :=
  Vector.getElem_set_ne k.isLt k'.isLt fun e => h (Fin.ext e.symm)

/-- A write of a register other than CMD changes what no other register reads. -/
theorem readReg_writeReg_ne {r r' : WindowReg} {v : Word} {s t : State} (hr : r ≠ .cmd) (hne : r' ≠ r)
    (ht : writeReg r v s = .next t) : readReg t r' = readReg s r' := by
  cases r with
  | cmd => exact absurd rfl hr
  | errCmd | aregTag | areg =>
    cases ht
    rfl
  | status =>
    cases ht
    cases r' with
    | status => exact absurd rfl hne
    | _ => rfl
  | inLen =>
    cases ht
    cases r' with
    | inLen => exact absurd rfl hne
    | _ => rfl
  | inValLo =>
    cases ht
    cases r' with
    | inValLo => exact absurd rfl hne
    | _ => rfl
  | inValHi =>
    cases ht
    cases r' with
    | inValHi => exact absurd rfl hne
    | _ => rfl
  | listLen =>
    cases ht
    cases r' with
    | listLen => exact absurd rfl hne
    | _ => rfl
  | listNonNum =>
    cases ht
    cases r' with
    | listNonNum => exact absurd rfl hne
    | _ => rfl
  | listElem k =>
    cases ht
    cases r' with
    | listElem k' => exact listElem_set_ne s.listElem v fun e => hne (congrArg _ e)
    | _ => rfl
  | text q =>
    cases ht
    cases r' with
    | text p => exact textWord_setTextWord_ne s v fun e => hne (congrArg _ (Fin.ext e))
    | _ => rfl

/-- A field of `n` bits that a word is written to reads the word's low `n` bits, with 0 above them. -/
theorem setWidth_setWidth_eq_and (v : Word) {n : Nat} (h : n ≤ 32) :
    (v.setWidth n).setWidth 32 = v &&& BitVec.ofNat 32 (2 ^ n - 1) := by
  have hlt : 2 ^ n - 1 < 2 ^ 32 :=
    Nat.lt_of_lt_of_le (Nat.sub_lt (by positivity) (by decide)) (Nat.pow_le_pow_right (by decide) h)
  apply BitVec.eq_of_toNat_eq
  rw [BitVec.toNat_and, BitVec.toNat_ofNat, Nat.mod_eq_of_lt hlt, Nat.and_two_pow_sub_one_eq_mod, BitVec.toNat_setWidth,
    BitVec.toNat_setWidth, Nat.mod_eq_of_lt (Nat.lt_of_le_of_lt (Nat.mod_le _ _) v.isLt)]

theorem and_ones (v : Word) : v &&& 0xFFFFFFFF = v := BitVec.and_allOnes

/-- A step that writes a register other than CMD, when the register then reads the defined bits of the word written. -/
theorem step_staging_write {s : State} {v mask : Word} {rest : List Input} {r : WindowReg} (hr : r ≠ .cmd)
    (hin : s.inputs = .write (BitVec.ofNat 10 (offsetOf r)) 32 v :: rest)
    (stores : ∀ s t, writeReg r v s = .next t → readReg t r = v &&& mask) :
    ∃ t, step s = .next t ∧ readReg t r = v &&& mask ∧ (∀ r', r' ≠ r → readReg t r' = readReg s r') ∧
      t.regs = s.regs ∧ t.inputs = rest ∧ t.reads = s.reads ∧ t.resets = s.resets := by
  obtain ⟨t, ht⟩ := writeReg_next r v { s with inputs := rest }
  obtain ⟨regs, _, _, _, inputs, reads, resets⟩ := writeReg_keeps hr ht
  refine ⟨t, ?_, stores _ t ht, fun r' hne => ?_, regs, inputs, reads, resets⟩
  · rw [step_write hin (accessTarget_offsetOf r), ht]
  · rw [readReg_writeReg_ne hr hne ht]
    cases r' <;> rfl

/-! ### STATUS and AREG_TAG (R31, R40, R42, R342) -/

/-- STICKY and the code stand in their bits of STATUS, and the other bits are 0. -/
theorem statusWord_fields : ∀ (sticky : Bool) (code : BitVec 4),
    let w : Word := 0#23 ++ BitVec.ofBool sticky ++ 0#4 ++ code
    w.extractLsb' 0 4 = code ∧ w.getLsbD 8 = sticky ∧ w &&& 0xFFFFFEF0 = 0 := by decide

theorem errKindField_mem (k : Option ErrKind) : errKindField k ∈ [0#4, 1#4, 2#4, 3#4, 4#4, 8#4, 9#4, 10#4] := by
  rcases k with _ | k
  · decide
  · cases k <;> decide

theorem stickyAfterWrite_eq (old : Bool) (v : Word) : stickyAfterWrite old v = if v.getLsbD 8 then false else old := by
  rw [stickyAfterWrite]
  cases v.getLsbD 8 <;> simp

theorem tagWord_toNat (s : State) : s.tagWord.toNat =
    (s.areg 0).tagCode.toNat + (s.areg 1).tagCode.toNat * 2 ^ 2 + (s.areg 2).tagCode.toNat * 2 ^ 4 +
      (s.areg 3).tagCode.toNat * 2 ^ 6 + (s.areg 4).tagCode.toNat * 2 ^ 8 + (s.areg 5).tagCode.toNat * 2 ^ 10 +
      (s.areg 6).tagCode.toNat * 2 ^ 12 + (s.areg 7).tagCode.toNat * 2 ^ 14 := by
  simp only [State.tagWord, toNat_append_eq, BitVec.toNat_ofNat]
  omega

/-- Eight base-4 digits: a number below 2^16, and each digit of it. -/
theorem eight_digits (c : Fin 8 → Nat) (hc : ∀ k, c k < 4) :
    let x := c 0 + c 1 * 2 ^ 2 + c 2 * 2 ^ 4 + c 3 * 2 ^ 6 + c 4 * 2 ^ 8 + c 5 * 2 ^ 10 + c 6 * 2 ^ 12 + c 7 * 2 ^ 14
    x < 2 ^ 16 ∧ ∀ k : Fin 8, x / 2 ^ (2 * k.val) % 2 ^ 2 = c k := by
  have := hc 0
  have := hc 1
  have := hc 2
  have := hc 3
  have := hc 4
  have := hc 5
  have := hc 6
  have := hc 7
  refine ⟨by omega, fun k => ?_⟩
  match k with
  | 0 | 1 | 2 | 3 | 4 | 5 | 6 | 7 =>
    simp only [Fin.coe_ofNat_eq_mod, Nat.reduceMod, Nat.reduceMul]
    omega

/-- Each register's tag code stands at its two bits of AREG_TAG, and the bits above them are 0. -/
theorem tagWord_fields (s : State) :
    (∀ k : RegIx, s.tagWord.extractLsb' (2 * k.val) 2 = (s.areg k).tagCode) ∧ s.tagWord.extractLsb' 16 16 = 0 := by
  obtain ⟨hlt, hdigit⟩ := eight_digits (fun r => (s.areg r).tagCode.toNat) fun r => (s.areg r).tagCode.isLt
  simp only [← tagWord_toNat] at hlt hdigit
  refine ⟨fun k => BitVec.eq_of_toNat_eq ?_, ?_⟩
  · rw [extractLsb'_eq_ofNat, BitVec.toNat_ofNat, hdigit]
  · rw [extractLsb'_eq_ofNat, Nat.div_eq_of_lt hlt]
    rfl

/-! ### The statements on the window -/

/-- Settles O16: each offset is that of its register, and every accepted offset reaches one. -/
theorem readsHaveNoSideEffects : Obligations.ReadsHaveNoSideEffects := by
  intro s rest
  refine ⟨fun off r hreg hin => ?_, fun off hin hacc => ?_, rfl, rfl, rfl, rfl, rfl, rfl, rfl, fun k => rfl⟩
  · have hoff : off = offsetOf r := by
      rcases hreg with ⟨rfl, rfl⟩ | ⟨rfl, rfl⟩ | ⟨rfl, rfl⟩ | ⟨rfl, rfl⟩ | ⟨rfl, rfl⟩ | ⟨rfl, rfl⟩ | ⟨rfl, rfl⟩ |
        ⟨rfl, rfl⟩ | ⟨rfl, rfl⟩ | ⟨k, rfl, rfl⟩ | ⟨q, rfl, rfl⟩ | ⟨k, j, rfl, rfl⟩ <;> rfl
    rw [hoff] at hin
    exact step_read hin (accessTarget_offsetOf r)
  · obtain ⟨r, hr, _⟩ := accessTarget_ok hacc
    exact ⟨r, step_read hin hr⟩

/-- Settles O17, register by register. -/
theorem stagingWriteReadsBack : Obligations.StagingWriteReadsBack := by
  intro s v rest off r mask hreg hin
  rcases hreg with ⟨rfl, rfl, rfl⟩ | ⟨rfl, rfl, rfl⟩ | ⟨rfl, rfl, rfl⟩ | ⟨rfl, rfl, rfl⟩ | ⟨rfl, rfl, rfl⟩ |
    ⟨k, rfl, rfl, rfl⟩
  · exact step_staging_write (r := .inLen) nofun hin fun _ _ ht => by
      cases ht
      exact setWidth_setWidth_eq_and v (by decide)
  · exact step_staging_write (r := .inValLo) nofun hin fun _ _ ht => by
      cases ht
      exact (and_ones v).symm
  · exact step_staging_write (r := .inValHi) nofun hin fun _ _ ht => by
      cases ht
      exact (and_ones v).symm
  · exact step_staging_write (r := .listLen) nofun hin fun _ _ ht => by
      cases ht
      exact setWidth_setWidth_eq_and v (by decide)
  · exact step_staging_write (r := .listNonNum) nofun hin fun _ _ ht => by
      cases ht
      exact setWidth_setWidth_eq_and v (by decide)
  · exact step_staging_write (r := .listElem k) nofun hin fun s _ ht => by
      cases ht
      exact (Vector.getElem_set_self k.isLt).trans (and_ones v).symm

/-- Settles O18: each of the offsets reaches a register whose write is ignored. -/
theorem readOnlyWritesIgnored : Obligations.ReadOnlyWritesIgnored := by
  intro s off v rest hin h4 hoff
  rcases hoff with rfl | rfl | ⟨hlo, hhi⟩
  · exact step_write hin (accessTarget_offsetOf .errCmd)
  · exact step_write hin (accessTarget_offsetOf .aregTag)
  · obtain ⟨k, j, hat⟩ := accessTarget_areg h4 hlo hhi
    exact step_write hin hat

/-- Settles O19, field by field. -/
theorem statusRegister : Obligations.StatusRegister := by
  intro s code
  obtain ⟨hcode, hsticky, hreserved⟩ := statusWord_fields s.sticky (errKindField s.errKind)
  have code_of {k : Option ErrKind} (hk : s.errKind = k) : code = errKindField k := hk ▸ hcode
  refine ⟨code_of, code_of, code_of, code_of, code_of, code_of, code_of, code_of, code_of rfl ▸ errKindField_mem _,
    hsticky, hreserved, fun v rest hin => ?_⟩
  rw [step_write hin (accessTarget_offsetOf .status), writeReg, stickyAfterWrite_eq]

/-- Settles O20, tag by tag. -/
theorem tagRegister : Obligations.TagRegister := by
  intro s
  obtain ⟨hfield, hhigh⟩ := tagWord_fields s
  have field_of {k : RegIx} {a : AReg} (h : s.areg k = a) : (readReg s .aregTag).extractLsb' (2 * k.val) 2 = a.tagCode :=
    h ▸ hfield k
  exact ⟨fun k => ⟨field_of, fun g => field_of, fun g => field_of⟩, hhigh⟩

/-! ### What STICKY and ERRCMD record (R40, R41, R344, R346, R347) -/

/-- What one access records when it is no reset and clears nothing: a command that fails sets STICKY and ERRCMD, and every
other access leaves both as they were. -/
theorem step_records {s t : State} {i : Input} {rest : List Input} (hin : s.inputs = i :: rest) (hreset : i ≠ .reset)
    (hclear : ∀ v, i = .write 0x004 32 v → v.getLsbD 8 = false) (ht : step s = .next t) :
    t.inputs = rest ∧
      ((∃ w, (i = .write 0x000 32 w ∧ t.errKind ≠ none) ∧ t.sticky = true ∧ t.errCmd = w) ∨
        (∀ w, ¬(i = .write 0x000 32 w ∧ t.errKind ≠ none)) ∧ t.sticky = s.sticky ∧ t.errCmd = s.errCmd) := by
  rcases step_cases ht with ⟨h, _⟩ | ⟨off, bits, rest', r, h, _, rfl⟩ | ⟨off, bits, v, rest', r, h, hat, hw⟩ | ⟨_, h, _⟩
  · rw [hin] at h
    cases h
  · cases hin.symm.trans h
    exact ⟨rfl, .inr ⟨fun w hf => (nomatch hf.1), rfl, rfl⟩⟩
  · cases hin.symm.trans h
    by_cases hc : r = .cmd
    · subst hc
      obtain ⟨rfl, rfl⟩ := offsetOf_of_accessTarget hat
      rcases runCommand_cases v { s with inputs := rest, cmd := v } with ⟨a, hr⟩ | ⟨k, hr⟩
      · cases hr.symm.trans hw
        exact ⟨rfl, .inr ⟨fun w hf => hf.2 rfl, rfl, rfl⟩⟩
      · cases hr.symm.trans hw
        exact ⟨rfl, .inl ⟨v, ⟨rfl, nofun⟩, rfl, rfl⟩⟩
    · obtain ⟨_, _, _, errCmd, inputs, _, _⟩ := writeReg_keeps hc hw
      refine ⟨inputs, .inr ⟨fun w hf => hc ?_, ?_, errCmd⟩⟩
      · cases hf.1
        exact (Except.ok.inj (accessTarget_cmd.symm.trans hat)).symm
      · by_cases hs : r = .status
        · subst hs
          obtain ⟨rfl, rfl⟩ := offsetOf_of_accessTarget hat
          cases hw
          change stickyAfterWrite s.sticky v = s.sticky
          rw [stickyAfterWrite_eq, hclear v rfl, if_neg Bool.false_ne_true]
        · exact writeReg_sticky (s := { s with inputs := rest }) hc hs hw
  · cases hin.symm.trans h
    exact absurd rfl hreset

/-- What the states `u` have recorded after the first `m` accesses, when `failed n w` says that access `n` is a command of
the word `w` that failed. -/
structure Recorded (u : Nat → State) (failed : Nat → Word → Prop) (m : Nat) : Prop where
  sticky : (u m).sticky = true ↔ (u 0).sticky = true ∨ ∃ n w, n < m ∧ failed n w
  last : ∀ n w, n < m → failed n w → (∀ k w', n < k → k < m → ¬failed k w') → (u m).errCmd = w
  nothing : (∀ n w, n < m → ¬failed n w) → (u m).errCmd = (u 0).errCmd

theorem Recorded.zero (u : Nat → State) (failed : Nat → Word → Prop) : Recorded u failed 0 where
  sticky := ⟨.inl, fun h => h.resolve_right fun ⟨_, _, hn, _⟩ => absurd hn (Nat.not_lt_zero _)⟩
  last _ _ hn := absurd hn (Nat.not_lt_zero _)
  nothing _ := rfl

/-- An access that fails with the word `w`. -/
theorem Recorded.succ_failed {u : Nat → State} {failed : Nat → Word → Prop} {m : Nat} {w : Word}
    (hf : failed m w) (unique : ∀ w', failed m w' → w' = w) (hs : (u (m + 1)).sticky = true)
    (hc : (u (m + 1)).errCmd = w) : Recorded u failed (m + 1) where
  sticky := ⟨fun _ => .inr ⟨m, w, Nat.lt_succ_self m, hf⟩, fun _ => hs⟩
  last n w' hn hf' later := by
    rcases Nat.lt_succ_iff_lt_or_eq.mp hn with hn | rfl
    · exact absurd hf (later m w hn (Nat.lt_succ_self m))
    · rw [hc, unique w' hf']
  nothing allKept := absurd hf (allKept m w (Nat.lt_succ_self m))

/-- An access that does not fail. -/
theorem Recorded.succ_kept {u : Nat → State} {failed : Nat → Word → Prop} {m : Nat} (h : Recorded u failed m)
    (hf : ∀ w, ¬failed m w) (hs : (u (m + 1)).sticky = (u m).sticky) (hc : (u (m + 1)).errCmd = (u m).errCmd) :
    Recorded u failed (m + 1) where
  sticky := by
    rw [hs, h.sticky]
    refine or_congr_right ⟨fun ⟨n, w, hn, hw⟩ => ⟨n, w, Nat.lt_succ_of_lt hn, hw⟩, fun ⟨n, w, hn, hw⟩ => ?_⟩
    rcases Nat.lt_succ_iff_lt_or_eq.mp hn with hn | rfl
    · exact ⟨n, w, hn, hw⟩
    · exact absurd hw (hf w)
  last n w hn hw later := by
    rcases Nat.lt_succ_iff_lt_or_eq.mp hn with hn | rfl
    · rw [hc]
      exact h.last n w hn hw fun k w' hk hkm => later k w' hk (Nat.lt_succ_of_lt hkm)
    · exact absurd hw (hf w)
  nothing allKept := by
    rw [hc]
    exact h.nothing fun n w hn => allKept n w (Nat.lt_succ_of_lt hn)

/-- Settles O59: the record of the first m accesses, by induction on m. -/
theorem stickyRecordsFailures : Obligations.StickyRecordsFailures := by
  intro u is rest hin hstep hreset hclear failed
  have recorded (m : Nat) (hm : m ≤ is.length) : (u m).inputs = is.drop m ++ rest ∧ Recorded u failed m := by
    induction m with
    | zero => exact ⟨hin, .zero u failed⟩
    | succ m ih =>
      obtain ⟨hinputs, hrec⟩ := ih (by omega)
      rw [List.drop_eq_getElem_cons (by omega), List.cons_append] at hinputs
      have at_m : is[m]? = some is[m] := List.getElem?_eq_getElem (by omega)
      have hmem : is[m] ∈ is := List.getElem_mem (by omega)
      have failed_iff (w : Word) : failed m w ↔ is[m] = .write 0x000 32 w ∧ (u (m + 1)).errKind ≠ none := by
        simp only [failed, at_m, Option.some.injEq]
      obtain ⟨hnext, ⟨w, hf, hs, hc⟩ | ⟨hf, hs, hc⟩⟩ :=
        step_records hinputs (fun e => hreset (e ▸ hmem)) (fun v e => hclear v (e ▸ hmem)) (hstep m (by omega))
      · refine ⟨hnext, .succ_failed ((failed_iff w).mpr hf) (fun w' hf' => ?_) hs hc⟩
        cases ((failed_iff w').mp hf').1.symm.trans hf.1
        rfl
      · exact ⟨hnext, hrec.succ_kept (fun w hw => hf w ((failed_iff w).mp hw)) hs hc⟩
  have bound {n : Nat} {w : Word} (hf : failed n w) : n < is.length := (List.getElem?_eq_some_iff.mp hf.1).1
  obtain ⟨_, hrec⟩ := recorded is.length (Nat.le_refl _)
  refine ⟨?_, fun n w hf later => ?_, fun allKept => ?_⟩
  · rw [hrec.sticky]
    exact or_congr_right ⟨fun ⟨n, w, _, hf⟩ => ⟨n, w, hf⟩, fun ⟨n, w, hf⟩ => ⟨n, w, bound hf, hf⟩⟩
  · exact hrec.last n w (bound hf) hf fun k w' hk _ => later k w' hk
  · exact hrec.nothing fun n w _ => allKept n w

/-! ### The staging a host program expands to (R83, R111) -/

/-- A run whose first access is a write to a register. -/
theorem core_run_write {n : Nat} {s t : State} {r : WindowReg} {v : Word} {rest : List Input}
    (hin : s.inputs = memWrite (offsetOf r) v :: rest) (ht : writeReg r v { s with inputs := rest } = .next t) :
    core.run (n + 1) s = core.run n t :=
  core_run_succ ((step_write hin (accessTarget_offsetOf r)).trans ht)

/-- The bytes of a word put together from bytes. -/
theorem extract_bytes (a b c d : Byte) {j : Nat} (hj : j < 4) :
    (d ++ c ++ b ++ a).extractLsb' (8 * j) 8 = [a, b, c, d].getD j 0 := by
  have := a.isLt
  have := b.isLt
  have := c.isLt
  have := d.isLt
  apply BitVec.eq_of_toNat_eq
  rw [extractLsb'_eq_ofNat, BitVec.toNat_ofNat]
  simp only [toNat_append_eq]
  match j with
  | 0 | 1 | 2 | 3 =>
    simp only [List.getD_cons_zero, List.getD_cons_succ]
    omega

/-- The bytes of a word of a byte string are those of the string. -/
theorem stringWord_byte (t : List Byte) (q : Nat) {j : Nat} (hj : j < 4) :
    (stringWord t q).extractLsb' (8 * j) 8 = t.getD (4 * q + j) 0 := by
  rw [stringWord, extract_bytes _ _ _ _ hj]
  match j with
  | 0 | 1 | 2 | 3 => rfl

/-- The writes of the first n words of a text: those bytes of TEXT are the text's, with 0 past its end. -/
theorem run_stringWords (t : List Byte) {s : State} {n : Nat} {rest : List Input} (hn : n ≤ 64)
    (hin : s.inputs = (List.range n).map (fun q => memWrite (0x100 + 4 * q) (stringWord t q)) ++ rest) :
    ∃ u : State, core.run n s = .next u ∧ (∀ k, k < 4 * n → u.textByte k = t.getD k 0) ∧
      (∀ k, 4 * n ≤ k → u.textByte k = s.textByte k) ∧ u = { s with inputs := rest, text := u.text } := by
  induction n generalizing rest with
  | zero =>
    obtain rfl : s.inputs = rest := hin
    exact ⟨s, rfl, nofun, fun _ _ => rfl, rfl⟩
  | succ n ih =>
    rw [List.range_succ, List.map_append, List.append_assoc] at hin
    obtain ⟨u, hrun, hwritten, hkept, hframe⟩ := ih (by omega) hin
    have hnext : u.inputs = memWrite (0x100 + 4 * n) (stringWord t n) :: rest := by rw [hframe]; rfl
    refine ⟨{ u with inputs := rest }.setTextWord n (stringWord t n), ?_, fun k hk => ?_, fun k hk => ?_, ?_⟩
    · rw [core_run_add hrun, core_run_write (r := .text ⟨n, by omega⟩) hnext rfl, core_run_zero]
    · by_cases hq : k / 4 = n
      · have hbyte := textByte_setTextWord { u with inputs := rest } n (stringWord t n) (j := k % 4) (by omega)
        rwa [stringWord_byte t n (by omega), show 4 * n + k % 4 = k by omega] at hbyte
      · exact (textByte_setTextWord_ne _ _ hq).trans (hwritten k (by omega))
    · exact (textByte_setTextWord_ne _ _ (by omega)).trans (hkept k (by omega))
    · rw [hframe]
      rfl

/-- The list element an entry of `slist` writes: 0 for one that is not numeric. -/
def stagedElem (es : List (Option Word)) (k : Nat) : Word := (es.getD k none).getD 0

/-- The writes of the first n list elements. -/
theorem run_listElems (es : List (Option Word)) {s : State} {n : Nat} {rest : List Input} (hn : n ≤ 16)
    (hin : s.inputs = (List.range n).map (fun k => memWrite (0x040 + 4 * k) (stagedElem es k)) ++ rest) :
    ∃ u : State, core.run n s = .next u ∧
      (∀ k : Fin 16, u.listElem[k] = if k.val < n then stagedElem es k.val else s.listElem[k]) ∧
      u = { s with inputs := rest, listElem := u.listElem } := by
  induction n generalizing rest with
  | zero =>
    obtain rfl : s.inputs = rest := hin
    exact ⟨s, rfl, fun _ => rfl, rfl⟩
  | succ n ih =>
    rw [List.range_succ, List.map_append, List.append_assoc] at hin
    obtain ⟨u, hrun, helem, hframe⟩ := ih (by omega) hin
    have hnext : u.inputs = memWrite (0x040 + 4 * n) (stagedElem es n) :: rest := by rw [hframe]; rfl
    have hlt : n < 16 := by omega
    refine ⟨{ u with inputs := rest, listElem := u.listElem.set n (stagedElem es n) }, ?_, fun k => ?_, ?_⟩
    · rw [core_run_add hrun, core_run_write (r := .listElem ⟨n, hlt⟩) hnext rfl, core_run_zero]
    · by_cases hk : k = ⟨n, hlt⟩
      · subst hk
        rw [if_pos (Nat.lt_succ_self n)]
        exact Vector.getElem_set_self hlt
      · have hne : k.val ≠ n := fun e => hk (Fin.ext e)
        have hkn : k.val < n + 1 ↔ k.val < n := by omega
        simp only [hkn]
        exact (listElem_set_ne u.listElem _ hk).trans (helem k)
    · rw [hframe]

/-- Bit k of LIST_NONNUM's number is 1 exactly where element k is not numeric. -/
theorem nonNumericBits_testBit (es : List (Option Word)) (k : Nat) :
    (nonNumericBits es).testBit k = decide (es[k]? = some none) := by
  induction es generalizing k with
  | nil => simp [nonNumericBits]
  | cons e es ih =>
    rw [nonNumericBits]
    cases k with
    | zero => cases e <;> simp [Nat.testBit_zero]
    | succ k =>
      rw [List.getElem?_cons_succ, ← ih, Nat.testBit_succ]
      congr 1
      split <;> omega

theorem inVal_staged (v : BitVec 64) : v.extractLsb' 32 32 ++ v.extractLsb' 0 32 = v := by
  apply BitVec.eq_of_toNat_eq
  simp only [toNat_append_eq, extractLsb'_eq_ofNat, BitVec.toNat_ofNat]
  omega

/-- After `stxt t` the text input is t. -/
theorem run_stxt {s : State} {rest : List Input} {t : List Byte} (ht : t.length ≤ 256) (hin : s.inputs = stxt t ++ rest) :
    ∃ u : State, core.run (stxt t).length s = .next u ∧ textInput u = t ∧
      (∀ k, t.length ≤ k → k < 4 * ((t.length + 3) / 4) → u.textByte k = 0) ∧
      (∀ k, 4 * ((t.length + 3) / 4) ≤ k → u.textByte k = s.textByte k) ∧
      u = { s with inputs := rest, inLen := BitVec.ofNat 9 t.length, text := u.text } := by
  rw [stxt, List.append_assoc] at hin
  obtain ⟨u, hrun, hwritten, hkept, hframe⟩ := run_stringWords t (by omega) hin
  have hnext : u.inputs = memWrite 0x00C (BitVec.ofNat 32 t.length) :: rest := by rw [hframe]; rfl
  have hlen : (BitVec.ofNat 32 t.length).setWidth 9 = BitVec.ofNat 9 t.length := BitVec.setWidth_ofNat_of_le (by decide) _
  have hcount : (BitVec.ofNat 9 t.length).toNat = t.length := by
    rw [BitVec.toNat_ofNat]
    omega
  refine ⟨{ u with inputs := rest, inLen := BitVec.ofNat 9 t.length }, ?_, ?_, fun k hk hk4 => ?_, fun k hk => hkept k hk, ?_⟩
  · have hl : (stxt t).length = (t.length + 3) / 4 + 1 := by simp [stxt]
    rw [hl, core_run_add hrun, core_run_write (r := .inLen) hnext rfl, core_run_zero, hlen]
  · apply List.ext_getElem
    · rw [textInput_length, hcount]
    · intro k hk hkt
      simp only [textInput, List.getElem_map, List.getElem_range]
      exact (hwritten k (by omega)).trans (List.getD_eq_getElem t 0 hkt)
  · exact (hwritten k hk4).trans (List.getD_eq_default t 0 hk)
  · rw [hframe]

/-- After `sval v` the scalar input is v. -/
theorem run_sval {s : State} {rest : List Input} {v : BitVec 64} (hin : s.inputs = sval v ++ rest) :
    core.run 2 s =
      .next { s with inputs := rest, inValLo := v.extractLsb' 0 32, inValHi := v.extractLsb' 32 32 } :=
  (core_run_write (r := .inValLo) hin rfl).trans ((core_run_write (r := .inValHi) rfl rfl).trans (core_run_zero _))

/-- After `slist es` the list input is es. -/
theorem run_slist {s : State} {rest : List Input} {es : List (Option Word)} (hes : es.length ≤ 16)
    (hin : s.inputs = slist es ++ rest) :
    ∃ u : State, core.run (es.length + 2) s = .next u ∧ u.listLen = BitVec.ofNat 5 es.length ∧
      u.listNonNum = BitVec.ofNat 16 (nonNumericBits es) ∧
      (∀ k : Fin 16, u.listElem[k] = if k.val < es.length then stagedElem es k.val else s.listElem[k]) ∧
      u = { s with inputs := rest, listLen := u.listLen, listNonNum := u.listNonNum, listElem := u.listElem } := by
  rw [slist, List.append_assoc] at hin
  obtain ⟨u, hrun, helem, hframe⟩ := run_listElems es hes hin
  have hnext : u.inputs = memWrite 0x01C (BitVec.ofNat 32 (nonNumericBits es)) ::
      memWrite 0x018 (BitVec.ofNat 32 es.length) :: rest := by rw [hframe]; rfl
  refine ⟨{ u with inputs := rest, listLen := BitVec.ofNat 5 es.length, listNonNum := BitVec.ofNat 16 (nonNumericBits es) },
    ?_, rfl, rfl, helem, ?_⟩
  · rw [core_run_add hrun, core_run_write (r := .listNonNum) hnext rfl, core_run_write (r := .listLen) rfl rfl,
      core_run_zero, BitVec.setWidth_ofNat_of_le (by decide), BitVec.setWidth_ofNat_of_le (by decide)]
  · rw [hframe]

theorem listElemAt_eq_getElem (s : State) (k : Fin 16) : s.listElemAt k = s.listElem[k] := by
  simp [State.listElemAt]

/-- Settles O40, pseudo-instruction by pseudo-instruction. -/
theorem stagedInputsAreTheInputs : Obligations.StagedInputsAreTheInputs := by
  intro s rest
  refine ⟨fun t ht hin => run_stxt ht hin, fun v hin => ⟨_, run_sval hin, inVal_staged v, inVal_staged v, rfl⟩,
    fun es hes hin => ?_⟩
  obtain ⟨u, hrun, hlen, hnon, helem, hframe⟩ := run_slist hes hin
  have staged {k : Fin 16} {e : Option Word} (he : es[k.val]? = some e) : u.listElem[k] = e.getD 0 := by
    rw [helem, if_pos (List.getElem?_eq_some_iff.mp he).1, stagedElem, List.getD_eq_getElem?_getD, he, Option.getD_some]
  refine ⟨u, hrun, ?_, fun k hk => ?_, fun k e he => ⟨staged he, ?_⟩, fun k he => staged he, fun k hk => ?_, hframe⟩
  · rw [hlen, BitVec.toNat_ofNat]
    omega
  · rw [hnon, BitVec.getLsbD_ofNat, decide_eq_true hk, Bool.true_and, nonNumericBits_testBit]
  · rw [listElemAt_eq_getElem, staged he, Option.getD_some]
  · rw [helem, if_neg (by omega)]

end Sys2Proof.Machine
end

section
/-!
PROOFS. The host accesses (20_memory.md): which of them the window accepts and which are bus errors (R71-R73, R350), that
only a command or a reset changes the address registers (R88), that accepted accesses never stop the unit (R72, R340), the
byte order of TEXT (R83), and where the window stands on the bus (R70).
-/

namespace Sys2Proof.Machine

/-! ### One input performed -/

theorem perform_next_of_safeInput {i : Input} (s : State) (h : safeInput i) : ∃ t, perform i s = .next t := by
  cases i with
  | read off bits =>
    obtain ⟨r, hr, _⟩ := accessTarget_ok h
    exact ⟨_, by rw [perform, hr]⟩
  | write off bits v =>
    obtain ⟨r, hr, _⟩ := accessTarget_ok h
    rw [perform, hr]
    exact writeReg_next r v s
  | reset => exact ⟨_, rfl⟩

theorem perform_fault_of_not_safeInput {i : Input} (s : State) (h : ¬safeInput i) : ∃ f, perform i s = .fault f := by
  cases i with
  | read off bits | write off bits v =>
    obtain ⟨f, hf⟩ := accessTarget_error h
    exact ⟨f, by rw [perform, hf]⟩
  | reset => exact absurd trivial h

/-- No write of the window, a command's included, touches the inputs still to come. -/
theorem writeReg_inputs {r : WindowReg} {v : Word} {s t : State} (ht : writeReg r v s = .next t) : t.inputs = s.inputs := by
  by_cases hc : r = .cmd
  · subst hc
    rcases runCommand_cases v { s with cmd := v } with ⟨a, hr⟩ | ⟨k, hr⟩
    · cases hr.symm.trans ht
      rfl
    · cases hr.symm.trans ht
      rfl
  · obtain ⟨_, _, _, _, inputs, _, _⟩ := writeReg_keeps hc ht
    exact inputs

/-- A step takes the next input, if there is one, and leaves the later ones. -/
theorem step_inputs {s t : State} (h : step s = .next t) : t.inputs = s.inputs.tail := by
  rcases step_cases h with ⟨hin, rfl⟩ | ⟨_, _, _, _, hin, _, rfl⟩ | ⟨_, _, _, _, _, hin, _, hw⟩ | ⟨_, hin, rfl⟩
  · rw [hin, List.tail_nil]
  · rw [hin, List.tail_cons]
  · rw [hin, List.tail_cons, writeReg_inputs hw]
  · rw [hin, List.tail_cons, platformReset_inputs]

/-- A register written at an offset other than that of CMD is not CMD. -/
theorem ne_cmd_of_accessTarget {off : BitVec 10} {bits : Nat} {v : Word} {r : WindowReg}
    (hat : accessTarget off bits = .ok r) (hne : ∀ w, Input.write off bits v ≠ .write 0x000 32 w) : r ≠ .cmd := by
  rintro rfl
  obtain ⟨rfl, rfl⟩ := offsetOf_of_accessTarget hat
  exact hne v rfl

/-! ### Safe runs -/

/-- A state with a safe run takes a step, and the run stays safe: its inputs become fewer. -/
theorem step_of_safe {s : State} (h : safe s) : ∃ t, step s = .next t ∧ safe t := by
  have progress : ∃ t, step s = .next t := by
    cases hin : s.inputs with
    | nil => exact ⟨s, step_nil hin⟩
    | cons i rest =>
      rw [step_cons hin]
      exact perform_next_of_safeInput _ (h i (by rw [hin]; exact List.mem_cons_self))
  obtain ⟨t, ht⟩ := progress
  exact ⟨t, ht, fun i hi => h i (List.mem_of_mem_tail (step_inputs ht ▸ hi))⟩

/-- A property whose states take a step that keeps it is kept by runs of any length, none of which stops. -/
theorem core_run_of_progress {P : State → Prop} (hstep : ∀ s, P s → ∃ t, step s = .next t ∧ P t) (n : Nat) {s : State}
    (hs : P s) : ∃ t : State, core.run n s = .next t ∧ P t := by
  induction n generalizing s with
  | zero => exact ⟨s, core_run_zero s, hs⟩
  | succ n ih =>
    obtain ⟨u, hu, hPu⟩ := hstep s hs
    rw [core_run_succ hu]
    exact ih hPu

/-! ### The bytes of a TEXT word (R83) -/

/-- A read of a TEXT word returns the word's four bytes, the first one lowest. -/
theorem textWord_byte (s : State) (q : Nat) {j : Nat} (hj : j < 4) :
    (s.textWord q).extractLsb' (8 * j) 8 = s.textByte (4 * q + j) := by
  rw [State.textWord, extract_bytes _ _ _ _ hj]
  match j with
  | 0 | 1 | 2 | 3 => rfl

/-! ### The window on the bus (R70) -/

theorem windowOffset_of_mem {base addr : Nat} (hlo : base ≤ addr) (hhi : addr < base + 1024) :
    windowOffset base addr = some (BitVec.ofNat 10 (addr - base)) := if_pos ⟨hlo, hhi⟩

theorem windowOffset_of_not_mem {base addr : Nat} (h : addr < base ∨ base + 1024 ≤ addr) :
    windowOffset base addr = none := by
  refine if_neg fun ⟨hlo, hhi⟩ => ?_
  rw [Config.windowBytes] at hhi
  omega

/-! ### The statements on the host accesses -/

/-- Settles O57: safety is kept by every step, so by every run. -/
theorem safeRunsNeverStop : Obligations.SafeRunsNeverStop := fun _ n hs =>
  core_run_of_progress (fun _ => step_of_safe) n hs

/-- Settles O12, by the access the step performs: a read, or a write of a register other than CMD. -/
theorem hostAccessKeepsRegisters : Obligations.HostAccessKeepsRegisters := by
  intro s t i rest hin hreset hcmd ht
  rcases step_cases ht with ⟨h, _⟩ | ⟨_, _, _, _, _, _, rfl⟩ | ⟨off, bits, v, rest', r, h, hat, hw⟩ | ⟨_, h, _⟩
  · cases hin.symm.trans h
  · exact ⟨rfl, rfl, rfl, rfl⟩
  · cases hin.symm.trans h
    obtain ⟨regs, cmd, errKind, errCmd, _⟩ := writeReg_keeps (ne_cmd_of_accessTarget hat hcmd) hw
    exact ⟨regs, cmd, errKind, errCmd⟩
  · cases hin.symm.trans h
    exact absurd rfl hreset

/-- Settles O15: a read and a write are safe inputs exactly when the window accepts them. -/
theorem busErrorsExactly : Obligations.BusErrorsExactly := by
  intro s off bits v rest hin
  rcases hin with hin | hin
  · rw [step_cons hin]
    exact ⟨perform_next_of_safeInput (i := .read off bits) _, perform_fault_of_not_safeInput (i := .read off bits) _⟩
  · rw [step_cons hin]
    exact ⟨perform_next_of_safeInput (i := .write off bits v) _, perform_fault_of_not_safeInput (i := .write off bits v) _⟩

/-- Settles O22: byte k is byte k mod 4 of the word k div 4. -/
theorem textIsLittleEndianInItsWords : Obligations.TextIsLittleEndianInItsWords := by
  intro s
  refine ⟨fun k rest hk hin => ?_, fun v q rest hin => ?_⟩
  · have hq : k / 4 < 64 := by omega
    refine ⟨s.textWord (k / 4), step_read hin (accessTarget_offsetOf (.text ⟨k / 4, hq⟩)), ?_⟩
    rw [textWord_byte s _ (Nat.mod_lt k (by decide)), Nat.div_add_mod]
  · exact ⟨_, step_write hin (accessTarget_offsetOf (.text q)), fun j hj => textByte_setTextWord _ _ v hj,
      fun k hk => textByte_setTextWord_ne { s with inputs := rest } v hk, rfl⟩

/-- Settles O23: an offset of 10 bits is below 1024, and it is the distance from the base. -/
theorem windowStandsAtBase : Obligations.WindowStandsAtBase := by
  refine fun base => ⟨fun off => ?_, fun addr => windowOffset_of_not_mem⟩
  have hlt := off.isLt
  rw [windowOffset_of_mem (by omega) (by omega), Nat.add_sub_cancel_left, BitVec.ofNat_toNat, BitVec.setWidth_eq]

end Sys2Proof.Machine
end

section
/-!
PROOFS. The command word (30_encoding.md): decode and encode are inverse to each other (R108, R110), each row of the opcode
map by its selecting mask (R102-R106), and the words outside the map with what they do to the unit (R108, R109, R344).
-/

namespace Sys2Proof

/-! ### The rows of the opcode map (R102-R106) -/

/-- The row of an opcode, format by format: the opcodes of the format, its used bits, and which of the five fields the word
of the row's command carries. -/
inductive RowOfFormat (opc : Nat) (rd rs1 rs2 : RegIx) (nbits : Nat) : Word → Instr → Prop
  /-- Format D (R102). -/
  | formatD {i : Instr} (opcode : (0x01 ≤ opc ∧ opc ≤ 0x06) ∨ (0x11 ≤ opc ∧ opc ≤ 0x16))
      (word : encode i = packFields opc rd 0 0 0) (wf : i.wellFormed = true) : RowOfFormat opc rd rs1 rs2 nbits usedD i
  /-- Format U (R103). -/
  | formatU {i : Instr} (opcode : opc = 0x07 ∨ opc = 0x17 ∨ opc = 0x33)
      (word : encode i = packFields opc rd rs1 0 0) (wf : i.wellFormed = true) : RowOfFormat opc rd rs1 rs2 nbits usedU i
  /-- Format R (R104). -/
  | formatR {i : Instr} (opcode : opc = 0x31 ∨ opc = 0x32 ∨ opc = 0x34 ∨ opc = 0x35)
      (word : encode i = packFields opc rd rs1 rs2 0) (wf : i.wellFormed = true) : RowOfFormat opc rd rs1 rs2 nbits usedR i
  /-- Format M (R105). -/
  | formatM {i : Instr} (opcode : 0x21 ≤ opc ∧ opc ≤ 0x24)
      (word : encode i = packFields opc rd 0 0 nbits) (wf : i.wellFormed = decide (nbits < 256)) :
      RowOfFormat opc rd rs1 rs2 nbits usedM i

/-- Every row of the map is a row of one of the four formats. Case `h_n` is row n of the table. -/
theorem opcodeRow_format {opc nbits : Nat} {rd rs1 rs2 : RegIx} {used : Word} {i : Instr}
    (h : opcodeRow opc rd rs1 rs2 nbits = some (used, i)) : RowOfFormat opc rd rs1 rs2 nbits used i := by
  unfold opcodeRow at h
  split at h
  case h_1 | h_2 | h_3 | h_4 | h_5 | h_6 | h_8 | h_9 | h_10 | h_11 | h_12 | h_13 =>
    cases h
    exact .formatD (by decide) rfl rfl
  case h_7 | h_14 | h_21 =>
    cases h
    exact .formatU (by decide) rfl rfl
  case h_15 | h_16 | h_17 | h_18 =>
    cases h
    exact .formatM (by decide) rfl rfl
  case h_19 | h_20 | h_22 | h_23 =>
    cases h
    exact .formatR (by decide) rfl rfl
  case h_24 => cases h

/-! ### A word from its fields (R101) -/

theorem opcField_lt (w : Word) : opcField w < 256 := Nat.mod_lt _ (by decide)

/-- A word whose reserved bits are 0 is packed from its own fields. -/
theorem packFields_of_fields {w : Word} {rs1 rs2 : RegIx} {nbits : Nat} (hrs1 : field w 11 3 = rs1.val)
    (hrs2 : field w 14 3 = rs2.val) (hnbits : field w 17 8 = nbits) (hreserved : field w 25 7 = 0) :
    packFields (opcField w) (rdField w) rs1 rs2 nbits = w := by
  apply BitVec.eq_of_toNat_eq
  rw [packFields_toNat _ _ _ (opcField_lt w) (hnbits ▸ nbitsField_lt w), rdField_val, word_toNat_eq_fields w]
  omega

theorem packFields_of_unusedD {w : Word} (h : w &&& ~~~usedD = 0#32) : packFields (opcField w) (rdField w) 0 0 0 = w := by
  have small := (unusedD w).mp h
  apply packFields_of_fields <;> simp only [field, Fin.val_zero] <;> omega

theorem packFields_of_unusedU {w : Word} (h : w &&& ~~~usedU = 0#32) :
    packFields (opcField w) (rdField w) (rs1Field w) 0 0 = w := by
  have small := (unusedU w).mp h
  apply packFields_of_fields (rs1Field_val w).symm <;> simp only [field, Fin.val_zero] <;> omega

theorem packFields_of_unusedR {w : Word} (h : w &&& ~~~usedR = 0#32) :
    packFields (opcField w) (rdField w) (rs1Field w) (rs2Field w) 0 = w := by
  have small := (unusedR w).mp h
  apply packFields_of_fields (rs1Field_val w).symm (rs2Field_val w).symm <;> simp only [field] <;> omega

theorem packFields_of_unusedM {w : Word} (h : w &&& ~~~usedM = 0#32) :
    packFields (opcField w) (rdField w) 0 0 (nbitsField w) = w := by
  obtain ⟨sources, reserved⟩ := (unusedM w).mp h
  apply packFields_of_fields _ _ rfl reserved <;> simp only [field, Fin.val_zero] at sources ⊢ <;> omega

/-! ### Decode and encode (R108, R110) -/

/-- The round trip from a command, by the format it is packed in. -/
theorem decode_encode {i : Instr} (h : i.wellFormed = true) : decode (encode i) = .ok i := by
  cases i with
  | d4abs | d4true | d4int | d4flt | d4txt | d4lst | d6abs | d6true | d6int | d6flt | d6txt | d6lst =>
    exact decode_formatD (by decide) rfl
  | d4adr | d6adr | not => exact decode_formatU (by decide) rfl
  | m4net | m4wild | m6net | m6wild => exact decode_formatM (by decide) (of_decide_eq_true h) rfl
  | and | or | add | sub => exact decode_formatR (by decide) rfl

theorem decode_of_encode_eq {w : Word} {i : Instr} (hi : i.wellFormed = true) (hw : encode i = w) : decode w = .ok i :=
  hw ▸ decode_encode hi

/-- A word that decodes carries the fields of its format and nothing else, so it is the word of its command. -/
theorem encode_of_decode {w : Word} {i : Instr} (h : decode w = .ok i) : encode i = w ∧ i.wellFormed = true := by
  obtain ⟨used, hrow, hunused⟩ := decode_ok h
  cases opcodeRow_format hrow with
  | formatD _ word wf => exact ⟨word.trans (packFields_of_unusedD hunused), wf⟩
  | formatU _ word wf => exact ⟨word.trans (packFields_of_unusedU hunused), wf⟩
  | formatR _ word wf => exact ⟨word.trans (packFields_of_unusedR hunused), wf⟩
  | formatM _ word wf => exact ⟨word.trans (packFields_of_unusedM hunused), wf.trans (decide_eq_true (nbitsField_lt w))⟩

/-! ### Selecting masks (R102-R105) -/

/-- The selecting mask of a format covers OPC and every bit the format does not use. -/
def selecting (used : Word) : Word := 0xFF ||| ~~~used

theorem selecting_usedD : selecting usedD = 0xFFFFF8FF := by decide

theorem selecting_usedU : selecting usedU = 0xFFFFC0FF := by decide

theorem selecting_usedR : selecting usedR = 0xFFFE00FF := by decide

theorem selecting_usedM : selecting usedM = 0xFE01F8FF := by decide

theorem opcField_eq_and (w : Word) : opcField w = (w &&& 0xFF).toNat := by
  rw [BitVec.toNat_and, opcField, field, Nat.pow_zero, Nat.div_one]
  exact (Nat.and_two_pow_sub_one_eq_mod w.toNat 8).symm

theorem opcField_ofNat {opc : Nat} (h : opc < 256) : opcField (BitVec.ofNat 32 opc) = opc := by
  rw [opcField, field, BitVec.toNat_ofNat]
  omega

/-- The fields of a word that OPC and the unused bits make up are those of the word under the selecting mask. -/
theorem and_selecting_and (w used : Word) :
    w &&& selecting used &&& 0xFF = w &&& 0xFF ∧ w &&& selecting used &&& ~~~used = w &&& ~~~used := by
  have absorb (a b : Word) : (a ||| b) &&& a = a := BitVec.eq_of_getLsbD_eq fun i _ => by
    rw [BitVec.getLsbD_and, BitVec.getLsbD_or]
    exact inf_eq_right.mpr le_sup_left
  constructor
  · rw [selecting, BitVec.and_assoc, absorb]
  · rw [selecting, BitVec.and_assoc, BitVec.or_comm, absorb]

/-- The opcode of a row fits OPC, which its format uses. -/
theorem opcodeRow_uses_opc {opc nbits : Nat} {rd rs1 rs2 : RegIx} {used : Word} {i : Instr}
    (h : opcodeRow opc rd rs1 rs2 nbits = some (used, i)) : opc < 256 ∧ 0xFF &&& ~~~used = 0#32 := by
  cases opcodeRow_format h with
  | formatD opcode | formatU opcode | formatR opcode | formatM opcode => exact ⟨by omega, by decide⟩

/-- A word that matches a row's opcode under the selecting mask of its format decodes to the row's command. -/
theorem decode_of_selecting {w used sel : Word} {opc : Nat} {i : Instr} (hsel : selecting used = sel)
    (hrow : opcodeRow opc (rdField w) (rs1Field w) (rs2Field w) (nbitsField w) = some (used, i))
    (hmatch : w &&& sel = BitVec.ofNat 32 opc) : decode w = .ok i := by
  subst hsel
  obtain ⟨hlt, hused⟩ := opcodeRow_uses_opc hrow
  obtain ⟨hopc, hunused⟩ := and_selecting_and w used
  rw [hmatch] at hopc hunused
  have opcode : BitVec.ofNat 32 opc &&& 0xFF = BitVec.ofNat 32 opc := by
    apply BitVec.eq_of_toNat_eq
    rw [← opcField_eq_and, opcField_ofNat hlt, BitVec.toNat_ofNat, Nat.mod_eq_of_lt (by omega)]
  have same : opcField w = opc := by rw [opcField_eq_and, ← hopc, ← opcField_eq_and, opcField_ofNat hlt]
  apply decode_of_row (same.symm ▸ hrow)
  rw [← hunused, ← opcode, BitVec.and_assoc, hused, BitVec.and_zero]

/-! ### Words outside the map (R108, R109) -/

theorem unknownInputKind_iff {opc : Nat} :
    unknownInputKind opc = true ↔ (0x08 ≤ opc ∧ opc ≤ 0x0F) ∨ (0x18 ≤ opc ∧ opc ≤ 0x1F) := by
  simp only [unknownInputKind, Bool.or_eq_true, Bool.and_eq_true, decide_eq_true_eq]

/-- No opcode with a row is an unassigned one of the decoder groups. -/
theorem not_unknownInputKind_of_row {opc nbits : Nat} {rd rs1 rs2 : RegIx} {used : Word} {i : Instr}
    (row : RowOfFormat opc rd rs1 rs2 nbits used i) : ¬unknownInputKind opc = true := by
  rw [unknownInputKind_iff]
  cases row with
  | formatD opcode | formatU opcode | formatR opcode | formatM opcode => omega

/-- An unassigned opcode of the decoder groups raises IllegalArgument, whatever the other bits. -/
theorem decode_illegalArgument {w : Word}
    (h : (0x08 ≤ opcField w ∧ opcField w ≤ 0x0F) ∨ (0x18 ≤ opcField w ∧ opcField w ≤ 0x1F)) :
    decode w = .error .illegalArgument := by
  have unknown := unknownInputKind_iff.mpr h
  unfold decode
  split
  · exact absurd unknown (not_unknownInputKind_of_row (opcodeRow_format ‹_›))
  · exact if_pos unknown

/-- Any other opcode raises BadCommand when it has no format, or when a bit that its format does not use is set. -/
theorem decode_badCommand {w : Word}
    (hknown : ¬((0x08 ≤ opcField w ∧ opcField w ≤ 0x0F) ∨ (0x18 ≤ opcField w ∧ opcField w ≤ 0x1F)))
    (hunused : ∀ used i, RowOfFormat (opcField w) (rdField w) (rs1Field w) (rs2Field w) (nbitsField w) used i →
      w &&& ~~~used ≠ 0#32) : decode w = .error .badCommand := by
  unfold decode
  split
  · exact if_neg (hunused _ _ (opcodeRow_format ‹_›))
  · exact if_neg (mt unknownInputKind_iff.mp hknown)

theorem opcField_eq_extractLsb' (w : Word) : opcField w = (w.extractLsb' 0 8).toNat := by
  rw [BitVec.extractLsb'_toNat, Nat.shiftRight_eq_div_pow]
  rfl

end Sys2Proof

namespace Sys2Proof.Machine

/-- A word that does not decode aborts with its error (R109, R344). -/
theorem runCommand_of_decode_error {w : Word} {k : ErrKind} (h : decode w = .error k) (s : State) :
    runCommand w s = .next (abort k s) := by
  rw [runCommand, h]

/-! ### The statements on the command word -/

/-- Settles O1: the word of a command carries its row's opcode and its operands, and no unused bit. -/
theorem decodeOfEncode : Obligations.DecodeOfEncode := fun _ => decode_encode

/-- Settles O2: a word is its fields, and a word that decodes has no other bit set. -/
theorem encodeOfDecode : Obligations.EncodeOfDecode := fun _ _ => encode_of_decode

/-- Settles O3: the selecting mask fixes the opcode and leaves no unused bit of the format. Goal `refine_n` is row n of
the table. -/
theorem matchedWordsDecode : Obligations.MatchedWordsDecode := by
  intro w
  refine ⟨?_, ?_, ?_, ?_, ?_, ?_, ?_, ?_, ?_, ?_, ?_, ?_, ?_, ?_, ?_, ?_, ?_, ?_, ?_, ?_, ?_, ?_, ?_⟩
  case refine_1 | refine_2 | refine_3 | refine_4 | refine_5 | refine_6 =>
    exact decode_of_selecting selecting_usedD rfl
  case refine_8 | refine_9 | refine_10 | refine_11 | refine_12 | refine_13 =>
    exact decode_of_selecting selecting_usedD rfl
  case refine_7 | refine_14 | refine_21 => exact decode_of_selecting selecting_usedU rfl
  case refine_15 | refine_16 | refine_17 | refine_18 => exact decode_of_selecting selecting_usedM rfl
  case refine_19 | refine_20 | refine_22 | refine_23 => exact decode_of_selecting selecting_usedR rfl

/-- Settles O4: the first two classes have no row in the map, the next four break the format of their row. -/
theorem illegalEncodings : Obligations.IllegalEncodings := by
  intro w opc
  have hopc : opcField w = opc.toNat := opcField_eq_extractLsb' w
  clear_value opc
  refine ⟨fun h => ?_, fun h => ?_, fun h hset => ?_, fun h hset => ?_, fun h hset => ?_, fun h hset => ?_,
    fun k s hcmd hd => ?_⟩
  · exact decode_illegalArgument (by bv_omega)
  · refine decode_badCommand (by bv_omega) fun used i row => ?_
    cases row with
    | formatD opcode | formatU opcode | formatR opcode | formatM opcode => bv_omega
  · refine decode_badCommand (by bv_omega) fun used i row => ?_
    cases row with
    | formatD => exact hset
    | formatU opcode | formatR opcode | formatM opcode => bv_omega
  · refine decode_badCommand (by bv_omega) fun used i row => ?_
    cases row with
    | formatU => exact hset
    | formatD opcode | formatR opcode | formatM opcode => bv_omega
  · refine decode_badCommand (by bv_omega) fun used i row => ?_
    cases row with
    | formatR => exact hset
    | formatD opcode | formatU opcode | formatM opcode => bv_omega
  · refine decode_badCommand (by bv_omega) fun used i row => ?_
    cases row with
    | formatM => exact hset
    | formatD opcode | formatU opcode | formatR opcode => bv_omega
  · subst hcmd
    exact runCommand_of_decode_error hd s

/-- Settles O5: each word is that of its command. -/
theorem writtenWordsDecode : Obligations.WrittenWordsDecode :=
  ⟨decode_of_encode_eq rfl rfl, decode_of_encode_eq rfl rfl, decode_of_encode_eq rfl rfl, decode_of_encode_eq rfl rfl,
    decode_of_encode_eq rfl rfl, decode_of_encode_eq rfl rfl, decode_of_encode_eq rfl rfl⟩

/-- Settles O8: the write runs its word, which aborts. -/
theorem illegalWordAborts : Obligations.IllegalWordAborts := fun _ _ _ _ hin hd =>
  (step_command hin).trans (runCommand_of_decode_error hd _)

end Sys2Proof.Machine
end

section
/-!
PROOFS. The address decoders as commands (40_decode_v4.md, 41_decode_v6.md): the constant, integer, list and address inputs
of a V4 address (R142-R144, R149-R151), the length of a text and the texts that the dispatch takes before a scan (R141, R148,
R201, R212), and which error a scanned text raises (R147, R208, R210, R348).
-/

namespace Sys2Proof.Machine

/-! ### The commands without an operand (R142, R143, R202, R203) -/

theorem exec_d4abs (rd : RegIx) (s : State) : exec (.d4abs rd) s = .next (commit rd (.v4 #v[0, 0, 0, 0]) s) := rfl

theorem exec_d4true (rd : RegIx) (s : State) : exec (.d4true rd) s = .next (commit rd (.v4 #v[127, 0, 0, 1]) s) := rfl

theorem exec_d6abs (rd : RegIx) (s : State) :
    exec (.d6abs rd) s = .next (commit rd (.v6 #v[0, 0, 0, 0, 0, 0, 0, 0]) s) := rfl

theorem exec_d6true (rd : RegIx) (s : State) :
    exec (.d6true rd) s = .next (commit rd (.v6 #v[0, 0, 0, 0, 0, 0, 0, 1]) s) := rfl

/-! ### The integer input of d4.int (R144) -/

theorem integerInput_ok {s : State} (h0 : 0 ≤ (inVal s).toInt) (h1 : (inVal s).toInt ≤ 0xFFFFFFFF) :
    integerInput s = .ok (inVal s).toNat := by
  have unsigned : (inVal s).msb = false := by rw [BitVec.msb_eq_toInt, decide_eq_false (by omega)]
  rw [integerInput, addressValue_ok h0 h1, BitVec.toNat_toInt_of_msb _ unsigned]

theorem integerInput_error {s : State} (h : (inVal s).toInt < 0 ∨ 0xFFFFFFFF < (inVal s).toInt) :
    integerInput s = .error .illegalValue := addressValue_error h

/-- The low four bytes of a number of any width: `limbsOf_word` is the case of a word, this one serves IN_VAL. -/
theorem limbsOf_toNat_bytes {n : Nat} (x : BitVec n) :
    limbsOf 8 4 x.toNat = #v[x.extractLsb' 24 8, x.extractLsb' 16 8, x.extractLsb' 8 8, x.extractLsb' 0 8] := by
  simp only [limbsOf_v4, extractLsb'_eq_ofNat, Nat.pow_zero, Nat.div_one]

theorem exec_d4int_ok (rd : RegIx) {s : State} {v : Nat} (h : integerInput s = .ok v) :
    exec (.d4int rd) s = .next (commit rd (.v4 (limbsOf 8 4 v)) s) := by
  rw [exec, execD4Int, h, except_ok_bind, except_pure, complete_ok]

theorem exec_d4int_error (rd : RegIx) {s : State} {k : ErrKind} (h : integerInput s = .error k) :
    exec (.d4int rd) s = .next (abort k s) := by
  rw [exec, execD4Int, h, except_error_bind, complete_error]

/-! ### The list input of d4.lst (R149, R150) -/

theorem listV4_count {s : State} (h : s.listLen ≠ 4) : listV4 s = .error .malformed := by
  have hn : s.listLen.toNat ≠ 4 := fun e => h (BitVec.eq_of_toNat_eq e)
  rw [listV4, if_pos hn]

theorem listV4_of_count {s : State} (h : s.listLen = 4) :
    listV4 s = (elemValues s 255 0 4 >>= fun e => pure (limbsOfList 4 (e.map (BitVec.ofNat 8)))) := by
  have hn : ¬s.listLen.toNat ≠ 4 := by rw [h]; decide
  rw [listV4, if_neg hn]

theorem map_ofNat_toNat {w : Nat} (g : List (BitVec w)) : (g.map BitVec.toNat).map (BitVec.ofNat w) = g := by
  have roundTrip (x : BitVec w) : BitVec.ofNat w x.toNat = x := by rw [BitVec.ofNat_toNat, BitVec.setWidth_eq]
  rw [List.map_map]
  exact List.map_id'' roundTrip g

theorem listV4_ok {s : State} {g : V4Limbs} (h : s.listLen = 4)
    (limbs : ∀ k : Fin 4, s.listNonNum.getLsbD k = false ∧ (s.listElemAt k).toInt = g[k].toNat) :
    listV4 s = .ok g := by
  have values : elemValues s 255 0 4 = .ok (g.toList.map BitVec.toNat) :=
    elemValues_limbs g rfl fun k => by rw [Nat.zero_add]; exact limbs k
  rw [listV4_of_count h, values, except_ok_bind, map_ofNat_toNat, limbsOfList_vector, except_pure]

/-- An element that is not a number in range, whatever the elements before it. -/
theorem listV4_bad {s : State} (k : Fin 4) (h : s.listLen = 4)
    (bad : s.listNonNum.getLsbD k = true ∨ (s.listElemAt k).toInt < 0 ∨ 255 < (s.listElemAt k).toInt) :
    listV4 s = .error .illegalValue := by
  have element : elemValue s (0 + k) 255 = .error .illegalValue := by
    rw [Nat.zero_add]
    exact bad.elim (elemValue_nonnumeric 255) elemValue_range
  rw [listV4_of_count h, elemValues_bad k.isLt element, except_error_bind]

theorem exec_d4lst_ok (rd : RegIx) {s : State} {g : V4Limbs} (h : listV4 s = .ok g) :
    exec (.d4lst rd) s = .next (commit rd (.v4 g) s) := by
  rw [exec, execD4Lst, h, except_ok_bind, except_pure, complete_ok]

theorem exec_d4lst_error (rd : RegIx) {s : State} {k : ErrKind} (h : listV4 s = .error k) :
    exec (.d4lst rd) s = .next (abort k s) := by
  rw [exec, execD4Lst, h, except_error_bind, complete_error]

/-! ### The address input of d4.adr (R151) -/

theorem exec_d4adr_empty (rd : RegIx) {rs1 : RegIx} {s : State} (h : s.areg rs1 = .empty) :
    exec (.d4adr rd rs1) s = .next (abort .emptyOperand s) := by
  rw [exec, execD4Adr, fetch1_empty h, except_error_bind, complete_error]

theorem exec_d4adr_ok (rd : RegIx) {rs1 : RegIx} {s : State} {v : AReg} {g : V4Limbs} (hf : fetch1 s rs1 = .ok v)
    (hg : toV4 v = .ok g) : exec (.d4adr rd rs1) s = .next (commit rd (.v4 g) s) := by
  rw [exec, execD4Adr, hf, except_ok_bind, hg, except_ok_bind, except_pure, complete_ok]

theorem exec_d4adr_error (rd : RegIx) {rs1 : RegIx} {s : State} {v : AReg} {k : ErrKind} (hf : fetch1 s rs1 = .ok v)
    (hk : toV4 v = .error k) : exec (.d4adr rd rs1) s = .next (abort k s) := by
  rw [exec, execD4Adr, hf, except_ok_bind, hk, except_error_bind, complete_error]

theorem decode_commandWord_formatU {opc : Nat} {rd rs1 : RegIx} {i : Instr} (ho : opc < 256)
    (h : opcodeRow opc rd rs1 0 0 = some (usedU, i)) : decode (commandWord opc rd rs1 0) = .ok i := by
  rw [commandWord_eq, decode_formatU ho h]

/-! ### The text input before any scan (R141, R148, R201, R212) -/

theorem exec_d4txt_tooLong (rd : RegIx) {s : State} (h : 256 < s.inLen.toNat) :
    exec (.d4txt rd) s = .next (abort .illegalArgument s) := by
  rw [exec, execD4Txt, checkedText_error h, except_error_bind, complete_error]

theorem exec_d6txt_tooLong (rd : RegIx) {s : State} (h : 256 < s.inLen.toNat) :
    exec (.d6txt rd) s = .next (abort .illegalArgument s) := by
  rw [exec, execD6Txt, checkedText_error h, except_error_bind, complete_error]

theorem textInput_eq_nil {s : State} (h : s.inLen = 0) : textInput s = [] := by
  rw [← List.length_eq_zero_iff, textInput_length, h]
  rfl

theorem nil_not_specialName : [] ∉ specialNames := by decide

theorem textV4_nil : textV4 [] = .ok #v[0, 0, 0, 0] := by rw [textV4, if_pos rfl]

theorem textV6_nil : textV6 [] = .ok #v[0, 0, 0, 0, 0, 0, 0, 0] := by rw [textV6, if_pos rfl]

theorem textV4_specialName {t : List Byte} (h : t ∈ specialNames) : textV4 t = .ok #v[127, 0, 0, 1] := by
  rw [textV4, if_neg (ne_of_mem_of_not_mem h nil_not_specialName), if_pos h, loopbackV4]

theorem textV6_specialName {t : List Byte} (h : t ∈ specialNames) : textV6 t = .ok #v[0, 0, 0, 0, 0, 0, 0, 1] := by
  rw [textV6, if_neg (ne_of_mem_of_not_mem h nil_not_specialName), if_pos h, loopbackV6]

/-! ### The error a command ends with (R344, R348) -/

/-- A command ends in the abort of `k` exactly when its computation raises `k`: a commit leaves no error kind. -/
theorem complete_eq_abort_iff {rd : RegIx} {r : Except ErrKind AReg} {s : State} {k : ErrKind} :
    complete rd r s = abort k s ↔ r = .error k := by
  constructor
  · intro h
    have kind : (complete rd r s).errKind = some k := by rw [h, abort_errKind]
    rcases complete_cases rd r s with ⟨v, -, e⟩ | ⟨k', rfl, e⟩
    · rw [e, commit_errKind] at kind
      cases kind
    · rw [e, abort_errKind] at kind
      cases kind
      rfl
  · rintro rfl
    exact complete_error rd k s

theorem bind_pure_eq_error_iff {α β : Type} {x : Except ErrKind α} {f : α → β} {k : ErrKind} :
    (x >>= fun a => pure (f a)) = .error k ↔ x = .error k := by
  constructor
  · intro h
    rcases except_bind_error h with hx | ⟨a, -, ha⟩
    · exact hx
    · cases ha
  · rintro rfl
    rfl

theorem next_inj_iff {s t : State} : (.next s : Host.Outcome State Fault Refusal) = .next t ↔ s = t :=
  ⟨Host.Outcome.next.inj, congrArg _⟩

theorem exec_d4txt_abort_iff (rd : RegIx) {s : State} {k : ErrKind} (h : s.inLen.toNat ≤ 256) :
    exec (.d4txt rd) s = .next (abort k s) ↔ textV4 (textInput s) = .error k := by
  rw [exec_d4txt rd h, next_inj_iff, complete_eq_abort_iff, bind_pure_eq_error_iff]

theorem exec_d6txt_abort_iff (rd : RegIx) {s : State} {k : ErrKind} (h : s.inLen.toNat ≤ 256) :
    exec (.d6txt rd) s = .next (abort k s) ↔ textV6 (textInput s) = .error k := by
  rw [exec_d6txt rd h, next_inj_iff, complete_eq_abort_iff, bind_pure_eq_error_iff]

/-! ### The example of R348 -/

theorem colonFails_12345 (rest : List Byte) : ColonFails (ascii "12345:" ++ rest) .illegalValue :=
  .badGroup (ts := []) (tok := ascii "12345") (rest := rest) .nil (by decide) (by decide) (by decide)

/-- A text whose colon scan raises an IllegalValue is no text that the dispatch takes first: on those the scan would raise a
Malformed. -/
theorem textV6_of_colonFails_illegalValue {t : List Byte} (h : ColonFails t .illegalValue) :
    textV6 t = .error .illegalValue := by
  have scan := colonV6_error_iff.mpr h
  have notMalformed : colonV6 t ≠ .error .malformed := by simp [scan]
  rw [textV6_scan, scan]
  · rintro rfl
    exact notMalformed rfl
  · exact fun name => notMalformed (colonV6_specialName t name)
  · intro head
    obtain ⟨r, rfl⟩ := eq_cons_of_head? head
    exact notMalformed (colonV6_slash r)
  · intro head
    obtain ⟨r, rfl⟩ := eq_cons_of_head? head
    exact notMalformed (colonV6_backslash r)

/-! ### The statements of the address decoders -/

/-- Settles O25. -/
theorem constantInputs : Obligations.ConstantInputs := fun rd s =>
  ⟨⟨decode_commandWord_formatD (by decide) rfl, exec_d4abs rd s⟩,
    ⟨decode_commandWord_formatD (by decide) rfl, exec_d4true rd s⟩,
    ⟨decode_commandWord_formatD (by decide) rfl, exec_d6abs rd s⟩,
    ⟨decode_commandWord_formatD (by decide) rfl, exec_d6true rd s⟩⟩

/-- Settles O26: a nonnegative IN_VAL is the same number read unsigned, and its limbs are its low four bytes. -/
theorem integerToV4 : Obligations.IntegerToV4 := by
  intro rd s
  refine ⟨decode_commandWord_formatD (by decide) rfl, fun ⟨h0, h1⟩ => ?_, fun h => ?_⟩
  · rw [exec_d4int_ok rd (integerInput_ok h0 h1), limbsOf_toNat_bytes, inVal]
  · exact exec_d4int_error rd (integerInput_error h)

/-- Settles O30, by what the source register holds. -/
theorem addressToV4 : Obligations.AddressToV4 := fun rd rs1 _ =>
  ⟨decode_commandWord_formatU (by decide) rfl, exec_d4adr_empty rd, fun g h => exec_d4adr_ok rd (fetch1_v4 h) (toV4_v4 g),
    fun a b c d h => exec_d4adr_ok rd (fetch1_v6 h) (toV4_mapped a b c d),
    fun _ h unmapped => exec_d4adr_error rd (fetch1_v6 h) (toV4_unmapped unmapped)⟩

/-- Settles O32: NONNUM first, then the range. -/
theorem listElementValue : Obligations.ListElementValue := by
  intro s k hi
  rw [← listElemAt_eq_getElem]
  refine ⟨elemValue_nonnumeric hi, fun numeric h0 h1 => ?_, fun _ range => elemValue_range range⟩
  obtain ⟨v, hv⟩ := Int.eq_ofNat_of_zero_le h0
  exact ⟨v, elemValue_ok numeric hv (by omega), hv.symm⟩

/-- Settles O33: the count comes before the elements, and one bad element is enough. -/
theorem listToV4 : Obligations.ListToV4 := fun rd _ =>
  ⟨decode_commandWord_formatD (by decide) rfl, fun count => exec_d4lst_error rd (listV4_count count),
    fun _ count limbs => exec_d4lst_ok rd (listV4_ok count limbs),
    fun k count bad => exec_d4lst_error rd (listV4_bad k count bad)⟩

/-- Settles O35. -/
theorem textLengthCheck : Obligations.TextLengthCheck := fun rd s =>
  ⟨fun long => ⟨exec_d4txt_tooLong rd long, exec_d6txt_tooLong rd long⟩,
    fun fits => ⟨textInput s, checkedText_ok fits, textInput_length s, fun _ => textInput_getElem?⟩⟩

/-- Settles O36: the dispatch takes the empty text and the names before any scan. -/
theorem emptyAndNamedTexts : Obligations.EmptyAndNamedTexts := by
  intro rd s hlen
  rw [← specialNames_eq]
  refine ⟨fun h0 => ?_, fun name => ?_⟩
  · have empty := textInput_eq_nil h0
    exact ⟨exec_d4txt_ok rd hlen (by rw [empty, textV4_nil]), exec_d6txt_ok rd hlen (by rw [empty, textV6_nil])⟩
  · exact ⟨exec_d4txt_ok rd hlen (textV4_specialName name), exec_d6txt_ok rd hlen (textV6_specialName name)⟩

/-- Settles O42: the command aborts with what its scan raises (`dottedV4_error_iff`, `colonV6_error_iff`). -/
theorem firstErrorInScanOrder : Obligations.FirstErrorInScanOrder := by
  intro rd s hlen
  rw [← specialNames_eq]
  refine ⟨fun notEmpty notName noSlash noBackslash k => ⟨?_, ?_⟩, fun rest text => ?_⟩
  · rw [exec_d4txt_abort_iff rd hlen, textV4_scan notEmpty notName noSlash noBackslash, dottedV4_error_iff]
  · rw [exec_d6txt_abort_iff rd hlen, textV6_scan notEmpty notName noSlash noBackslash, colonV6_error_iff]
  · refine exec_d6txt_error rd hlen (textV6_of_colonFails_illegalValue ?_)
    rw [text]
    exact colonFails_12345 rest

end Sys2Proof.Machine
end

section
/-!
PROOFS. The V6 decoders whose input is an integer, an address or a list (41_decode_v6.md, R204, R206, R214, R215).
-/

namespace Sys2Proof.Machine

/-! ### The integer input of d6.int (R204, R206) -/

/-- The embedding of the low 32 bits of a number of any width: `embed_word` is the case of a word, this one serves IN_VAL. -/
theorem embed_toNat_halves {n : Nat} (x : BitVec n) :
    embed x.toNat = #v[0, 0, 0, 0, 0, 0xFFFF, x.extractLsb' 16 16, x.extractLsb' 0 16] := by
  simp only [embed, extractLsb'_eq_ofNat, Nat.pow_zero, Nat.div_one]

theorem exec_d6int_ok (rd : RegIx) {s : State} {v : Nat} (h : integerInput s = .ok v) :
    exec (.d6int rd) s = .next (commit rd (.v6 (embed v)) s) := by
  rw [exec, execD6Int, h, except_ok_bind, except_pure, complete_ok]

theorem exec_d6int_error (rd : RegIx) {s : State} {k : ErrKind} (h : integerInput s = .error k) :
    exec (.d6int rd) s = .next (abort k s) := by
  rw [exec, execD6Int, h, except_error_bind, complete_error]

/-! ### The address input of d6.adr (R215) -/

theorem exec_d6adr_empty (rd : RegIx) {rs1 : RegIx} {s : State} (h : s.areg rs1 = .empty) :
    exec (.d6adr rd rs1) s = .next (abort .emptyOperand s) := by
  rw [exec, execD6Adr, fetch1_empty h, except_error_bind, complete_error]

theorem exec_d6adr_ok (rd : RegIx) {rs1 : RegIx} {s : State} {v : AReg} {g : V6Limbs} (hf : fetch1 s rs1 = .ok v)
    (hg : toV6 v = .ok g) : exec (.d6adr rd rs1) s = .next (commit rd (.v6 g) s) := by
  rw [exec, execD6Adr, hf, except_ok_bind, hg, except_ok_bind, except_pure, complete_ok]

/-! ### The list input of d6.lst (R149, R214) -/

/-- A run of list elements with one, at index k, that is not a number in range. -/
theorem elemValues_bad_element {s : State} {hi first n k : Nat} (hfirst : first ≤ k) (hlast : k < first + n)
    (bad : s.listNonNum.getLsbD k = true ∨ (s.listElemAt k).toInt < 0 ∨ hi < (s.listElemAt k).toInt) :
    elemValues s hi first n = .error .illegalValue := by
  obtain ⟨j, rfl⟩ := Nat.exists_eq_add_of_le hfirst
  exact elemValues_bad (by omega) (bad.elim (elemValue_nonnumeric hi) elemValue_range)

theorem listV6_count {s : State} (h8 : s.listLen ≠ 8) (h10 : s.listLen ≠ 10) : listV6 s = .error .malformed := by
  have not8 : ¬s.listLen.toNat = 8 := fun e => h8 (BitVec.eq_of_toNat_eq e)
  have not10 : ¬s.listLen.toNat = 10 := fun e => h10 (BitVec.eq_of_toNat_eq e)
  rw [listV6, if_neg not8, if_neg not10]

theorem listV6_of_eight {s : State} (h : s.listLen = 8) :
    listV6 s = (elemValues s 0xFFFF 0 8 >>= fun e => pure (limbsOfList 8 (e.map (BitVec.ofNat 16)))) := by
  have is8 : s.listLen.toNat = 8 := congrArg BitVec.toNat h
  rw [listV6, if_pos is8]

theorem listV6_of_ten {s : State} (h : s.listLen = 10) :
    listV6 s = (elemValues s 0xFFFF 0 6 >>= fun g => elemValues s 0xFF 6 4 >>= fun e =>
      pure (limbsOfList 8 (g.map (BitVec.ofNat 16) ++ quadGroups (limbsOfList 4 (e.map (BitVec.ofNat 8)))))) := by
  have is10 : s.listLen.toNat = 10 := congrArg BitVec.toNat h
  have not8 : ¬s.listLen.toNat = 8 := by omega
  rw [listV6, if_neg not8, if_pos is10]

/-- Six groups and an embedded quad are eight groups, the octets in pairs, high byte first (R209). -/
theorem limbsOfList_append_quadGroups (g : Limbs 16 6) (q : V4Limbs) :
    limbsOfList 8 (g.toList ++ quadGroups q) =
      #v[g[0], g[1], g[2], g[3], g[4], g[5], q[0] ++ q[1], q[2] ++ q[3]] := by
  apply Vector.ext
  intro k hk
  interval_cases k <;> simp [limbsOfList, quadGroups, pairOctets]

theorem listV6_eight_ok {s : State} {g : V6Limbs} (h : s.listLen = 8)
    (groups : ∀ k : Fin 8, s.listNonNum.getLsbD k = false ∧ (s.listElemAt k).toInt = g[k].toNat) :
    listV6 s = .ok g := by
  have values : elemValues s 0xFFFF 0 8 = .ok (g.toList.map BitVec.toNat) :=
    elemValues_limbs g rfl fun k => by rw [Nat.zero_add]; exact groups k
  rw [listV6_of_eight h, values, except_ok_bind, map_ofNat_toNat, limbsOfList_vector, except_pure]

theorem listV6_ten_ok {s : State} {g : Limbs 16 6} {q : V4Limbs} (h : s.listLen = 10)
    (groups : ∀ k : Fin 6, s.listNonNum.getLsbD k = false ∧ (s.listElemAt k).toInt = g[k].toNat)
    (octets : ∀ k : Fin 4, s.listNonNum.getLsbD (6 + k) = false ∧ (s.listElemAt (6 + k)).toInt = q[k].toNat) :
    listV6 s = .ok #v[g[0], g[1], g[2], g[3], g[4], g[5], q[0] ++ q[1], q[2] ++ q[3]] := by
  have groupValues : elemValues s 0xFFFF 0 6 = .ok (g.toList.map BitVec.toNat) :=
    elemValues_limbs g rfl fun k => by rw [Nat.zero_add]; exact groups k
  have octetValues : elemValues s 0xFF 6 4 = .ok (q.toList.map BitVec.toNat) := elemValues_limbs q rfl octets
  rw [listV6_of_ten h, groupValues, except_ok_bind, octetValues, except_ok_bind, map_ofNat_toNat, map_ofNat_toNat,
    limbsOfList_vector, limbsOfList_append_quadGroups, except_pure]

/-- A bad group, in a list of either length. -/
theorem listV6_bad_group {s : State} {k : Nat} (h : (s.listLen = 8 ∧ k < 8) ∨ (s.listLen = 10 ∧ k < 6))
    (bad : s.listNonNum.getLsbD k = true ∨ (s.listElemAt k).toInt < 0 ∨ 0xFFFF < (s.listElemAt k).toInt) :
    listV6 s = .error .illegalValue := by
  rcases h with ⟨h8, hk⟩ | ⟨h10, hk⟩
  · rw [listV6_of_eight h8, elemValues_bad_element (Nat.zero_le k) (by omega) bad, except_error_bind]
  · rw [listV6_of_ten h10, elemValues_bad_element (Nat.zero_le k) (by omega) bad, except_error_bind]

/-- A bad octet of the quad: the groups before it are read first, and a bad one among them raises the same error. -/
theorem listV6_bad_octet {s : State} {k : Nat} (h : s.listLen = 10) (h6 : 6 ≤ k) (hk : k < 10)
    (bad : s.listNonNum.getLsbD k = true ∨ (s.listElemAt k).toInt < 0 ∨ 0xFF < (s.listElemAt k).toInt) :
    listV6 s = .error .illegalValue := by
  have octets : elemValues s 0xFF 6 4 = .error .illegalValue := elemValues_bad_element h6 hk bad
  rw [listV6_of_ten h]
  cases groups : elemValues s 0xFFFF 0 6 with
  | ok vs => rw [except_ok_bind, octets, except_error_bind]
  | error e => rw [except_error_bind, elemValues_error groups]

theorem exec_d6lst_ok (rd : RegIx) {s : State} {g : V6Limbs} (h : listV6 s = .ok g) :
    exec (.d6lst rd) s = .next (commit rd (.v6 g) s) := by
  rw [exec, execD6Lst, h, except_ok_bind, except_pure, complete_ok]

theorem exec_d6lst_error (rd : RegIx) {s : State} {k : ErrKind} (h : listV6 s = .error k) :
    exec (.d6lst rd) s = .next (abort k s) := by
  rw [exec, execD6Lst, h, except_error_bind, complete_error]

/-! ### The statements of the V6 decoders -/

/-- Settles O27: a nonnegative IN_VAL is the same number read unsigned, and the embedding takes its low two halves. -/
theorem integerToV6 : Obligations.IntegerToV6 := by
  intro rd s
  refine ⟨decode_commandWord_formatD (by decide) rfl, fun ⟨h0, h1⟩ => ?_, fun h => ?_⟩
  · rw [exec_d6int_ok rd (integerInput_ok h0 h1), embed_toNat_halves, inVal]
  · exact exec_d6int_error rd (integerInput_error h)

/-- Settles O31, by what the source register holds. The d4.adr reads the mapped address that the commit wrote. -/
theorem addressToV6 : Obligations.AddressToV6 := fun rd rd' _ s =>
  ⟨decode_commandWord_formatU (by decide) rfl, exec_d6adr_empty rd, fun g h => exec_d6adr_ok rd (fetch1_v6 h) (toV6_v6 g),
    fun a b c d h => ⟨_, rfl, exec_d6adr_ok rd (fetch1_v4 h) (toV6_v4 a b c d),
      exec_d4adr_ok rd' (fetch1_v6 (areg_commit_self rd _ s)) (toV4_mapped a b c d)⟩⟩

/-- Settles O34: the count comes before the elements, and one bad element is enough. -/
theorem listToV6 : Obligations.ListToV6 := fun rd _ =>
  ⟨decode_commandWord_formatD (by decide) rfl, fun h8 h10 => exec_d6lst_error rd (listV6_count h8 h10),
    fun _ count groups => exec_d6lst_ok rd (listV6_eight_ok count groups),
    fun _ _ count groups octets => exec_d6lst_ok rd (listV6_ten_ok count groups octets),
    fun _ count bad => exec_d6lst_error rd (listV6_bad_group count bad),
    fun _ count h6 hk bad => exec_d6lst_error rd (listV6_bad_octet count h6 hk bad)⟩

end Sys2Proof.Machine
end

section
/-!
PROOFS. The mask generator (42_mask.md): the mask of each text that begins with '/' or '\' (R275), the four mask commands
(R276-R279), and the laws of the two masks, group by group (R273) and against each other (R272, R280).
-/

namespace Sys2Proof.Machine

/-! ### The mask texts (R148, R212, R275) -/

theorem maskCount_in_range {r : List Byte} {n width : Nat} (h : countText r n) (hn : n ≤ width) :
    maskCount r width = .ok n := by
  have inRange : ¬((n : Int) < 0 ∨ (n : Int) > width) := by omega
  rw [maskCount_count width h, if_neg inRange, Int.toNat_natCast]

theorem maskCount_out_of_range {r : List Byte} {n : Int} {width : Nat} (h : countText r n) (hn : n < 0 ∨ width < n) :
    maskCount r width = .error .illegalRange := by
  rw [maskCount_count width h, if_pos hn]

theorem textV4_slash_count {r : List Byte} {n : Nat} (h : maskCount r 32 = .ok n) :
    textV4 (slash :: r) = .ok (limbsOf 8 4 (netMask 32 n)) := by
  rw [textV4_slash, h, except_ok_bind, except_pure]

theorem textV4_backslash_count {r : List Byte} {n : Nat} (h : maskCount r 32 = .ok n) :
    textV4 (backslash :: r) = .ok (limbsOf 8 4 (wildMask 32 n)) := by
  rw [textV4_backslash, h, except_ok_bind, except_pure]

theorem textV6_slash_count {r : List Byte} {n : Nat} (h : maskCount r 128 = .ok n) :
    textV6 (slash :: r) = .ok (limbsOf 16 8 (netMask 128 n)) := by
  rw [textV6_slash, h, except_ok_bind, except_pure]

theorem textV6_backslash_count {r : List Byte} {n : Nat} (h : maskCount r 128 = .ok n) :
    textV6 (backslash :: r) = .ok (limbsOf 16 8 (wildMask 128 n)) := by
  rw [textV6_backslash, h, except_ok_bind, except_pure]

/-- A mask text, with either first byte, raises what its count raises. -/
theorem textV4_mask_error {t r : List Byte} {k : ErrKind} (ht : t = slash :: r ∨ t = backslash :: r)
    (h : maskCount r 32 = .error k) : textV4 t = .error k := by
  rcases ht with rfl | rfl
  · rw [textV4_slash, h, except_error_bind]
  · rw [textV4_backslash, h, except_error_bind]

theorem textV6_mask_error {t r : List Byte} {k : ErrKind} (ht : t = slash :: r ∨ t = backslash :: r)
    (h : maskCount r 128 = .error k) : textV6 t = .error k := by
  rcases ht with rfl | rfl
  · rw [textV6_slash, h, except_error_bind]
  · rw [textV6_backslash, h, except_error_bind]

/-! ### The masks as address registers (R271, R272) -/

theorem v4Bits_netMask {n : Nat} (hn : n ≤ 32) :
    v4Bits (fun j => decide (32 - n ≤ j)) (.v4 (limbsOf 8 4 (netMask 32 n))) :=
  v4Bits_limbsOf fun _ hj => netMask_testBit hn hj

theorem v4Bits_wildMask (n : Nat) : v4Bits (fun j => decide (j < 32 - n)) (.v4 (limbsOf 8 4 (wildMask 32 n))) :=
  v4Bits_limbsOf fun _ _ => wildMask_testBit

theorem v6Bits_netMask {n : Nat} (hn : n ≤ 128) :
    v6Bits (fun j => decide (128 - n ≤ j)) (.v6 (limbsOf 16 8 (netMask 128 n))) :=
  v6Bits_limbsOf fun _ hj => netMask_testBit hn hj

theorem v6Bits_wildMask (n : Nat) : v6Bits (fun j => decide (j < 128 - n)) (.v6 (limbsOf 16 8 (wildMask 128 n))) :=
  v6Bits_limbsOf fun _ _ => wildMask_testBit

/-! ### The mask commands (R276-R279) -/

theorem exec_m4net (rd : RegIx) (nbits : Nat) (s : State) : exec (.m4net rd nbits) s =
    .next (complete rd (maskBits 32 nbits >>= fun n => pure (.v4 (limbsOf 8 4 (netMask 32 n)))) s) := rfl

theorem exec_m4wild (rd : RegIx) (nbits : Nat) (s : State) : exec (.m4wild rd nbits) s =
    .next (complete rd (maskBits 32 nbits >>= fun n => pure (.v4 (limbsOf 8 4 (wildMask 32 n)))) s) := rfl

theorem exec_m6net (rd : RegIx) (nbits : Nat) (s : State) : exec (.m6net rd nbits) s =
    .next (complete rd (maskBits 128 nbits >>= fun n => pure (.v6 (limbsOf 16 8 (netMask 128 n)))) s) := rfl

theorem exec_m6wild (rd : RegIx) (nbits : Nat) (s : State) : exec (.m6wild rd nbits) s =
    .next (complete rd (maskBits 128 nbits >>= fun n => pure (.v6 (limbsOf 16 8 (wildMask 128 n)))) s) := rfl

theorem complete_maskBits_ok (rd : RegIx) {width n : Nat} (mask : Nat → AReg) (s : State) (hn : n ≤ width) :
    complete rd (maskBits width n >>= fun k => pure (mask k)) s = commit rd (mask n) s := by
  rw [maskBits_ok hn, except_ok_bind, except_pure, complete_ok]

theorem complete_maskBits_error (rd : RegIx) {width n : Nat} (mask : Nat → AReg) (s : State) (hn : width < n) :
    complete rd (maskBits width n >>= fun k => pure (mask k)) s = abort .illegalRange s := by
  rw [maskBits_error hn, except_error_bind, complete_error]

/-- A row of format M whose command completes with a mask after the range check is a mask command of that mask. -/
theorem maskCommand_of_exec {opc width : Nat} {i : RegIx → Nat → Instr} {reg : Nat → AReg → Prop} {mask : Nat → AReg}
    (ho : opc < 256) (row : ∀ rd n, opcodeRow opc rd 0 0 n = some (usedM, i rd n))
    (meaning : ∀ rd n s, exec (i rd n) s = .next (complete rd (maskBits width n >>= fun k => pure (mask k)) s))
    (hmask : ∀ n ≤ width, reg n (mask n)) : maskCommand opc width i reg := by
  intro rd
  refine ⟨fun n hn => ?_, fun n s => ⟨fun hn => ⟨mask n, hmask n hn, ?_⟩, fun hn => ?_⟩⟩
  · rw [maskWord_eq, decode_formatM ho hn (row rd n)]
  · rw [meaning, complete_maskBits_ok rd _ s hn]
  · rw [meaning, complete_maskBits_error rd _ s hn]

/-! ### The masks group by group (R273) -/

/-- The pattern of R273 for a group with `c` bits in the top region: its top `c` bits. -/
theorem shiftedOnes_testBit (w c j : Nat) :
    (((2 ^ w - 1) <<< (w - c)) &&& (2 ^ w - 1)).testBit j = (decide (j < w) && decide (w - c ≤ j)) := by
  rw [Nat.testBit_and, Nat.testBit_shiftLeft, Nat.testBit_two_pow_sub_one, Nat.testBit_two_pow_sub_one]
  by_cases hj : j < w
  · have below : j - (w - c) < w := by omega
    simp [hj, below]
  · simp [hj]

/-- The bits of a group sequence are those of the groups before group k, those of group k, and those after it. -/
theorem bits_around_group {n : Nat} (w : Nat) (k : Fin n) : n * w = w * k.val + (w + w * (n - 1 - k.val)) := by
  have groups : n = k.val + (1 + (n - 1 - k.val)) := by omega
  calc n * w = w * (k.val + (1 + (n - 1 - k.val))) := by rw [← groups, Nat.mul_comm]
    _ = w * k.val + (w + w * (n - 1 - k.val)) := by rw [Nat.mul_add, Nat.mul_add, Nat.mul_one]

/-- Group k of the netmask has its top c bits set, where c of its bits lie in the top region. -/
theorem netMask_group {w n nbits : Nat} (k : Fin n) (h : nbits ≤ n * w) :
    (limbsOf w n (netMask (n * w) nbits))[k].toNat =
      ((2 ^ w - 1) <<< (w - min w (nbits - w * k.val))) &&& (2 ^ w - 1) := by
  apply Nat.eq_of_testBit_eq
  intro j
  rw [limbsOf_testBit, shiftedOnes_testBit]
  by_cases hj : j < w
  · have place := bits_around_group w k
    have region : n * w - nbits ≤ j + w * (n - 1 - k.val) ↔ w - min w (nbits - w * k.val) ≤ j := by omega
    rw [netMask_testBit h (by omega), decide_eq_decide.mpr region]
  · rw [decide_eq_false hj, Bool.false_and, Bool.false_and]

/-! ### The two masks against each other (R272, R280) -/

theorem limbsOf_getLsbD {w n x k j : Nat} (hk : k < n) (hj : j < w) :
    (limbsOf w n x)[k].getLsbD j = x.testBit (j + w * (n - 1 - k)) := by
  have bit := limbsOf_testBit (w := w) (x := x) ⟨k, hk⟩ j
  rw [decide_eq_true hj, Bool.true_and, BitVec.testBit_toNat] at bit
  exact bit

/-- The wildcard mask is the complement of the netmask, limb by limb. -/
theorem limbsOf_wildMask {w n nbits : Nat} (h : nbits ≤ n * w) :
    limbsOf w n (wildMask (n * w) nbits) = notLimbs w n (limbsOf w n (netMask (n * w) nbits)) := by
  apply Vector.ext
  intro k hk
  apply BitVec.eq_of_getLsbD_eq
  intro j hj
  have place := bits_around_group w ⟨k, hk⟩
  have complement (p : Nat) : decide (p < n * w - nbits) = !decide (n * w - nbits ≤ p) := by
    rw [← decide_not, decide_eq_decide, not_le]
  rw [notLimbs_getElem, BitVec.getLsbD_not, limbsOf_getLsbD hk hj, limbsOf_getLsbD hk hj, wildMask_testBit,
    netMask_testBit h (by dsimp only at place; omega), complement, decide_eq_true hj, Bool.true_and]

theorem toNat_not_eq_xor {w : Nat} (x : BitVec w) : (~~~x).toNat = x.toNat ^^^ (2 ^ w - 1) := by
  rw [← BitVec.xor_allOnes, BitVec.toNat_xor, BitVec.toNat_allOnes]

theorem andLimbs_notLimbs {w n : Nat} (a : Limbs w n) : andLimbs w n a (notLimbs w n a) = Vector.replicate n 0 := by
  apply Vector.ext
  intro k hk
  simp

theorem orLimbs_notLimbs {w n : Nat} (a : Limbs w n) :
    orLimbs w n a (notLimbs w n a) = Vector.replicate n (BitVec.allOnes w) := by
  apply Vector.ext
  intro k hk
  simp

/-- R280 in the limbs: the two masks of a count have no bit in common. -/
theorem andLimbs_masks {w n nbits : Nat} (h : nbits ≤ n * w) :
    andLimbs w n (limbsOf w n (netMask (n * w) nbits)) (limbsOf w n (wildMask (n * w) nbits)) = Vector.replicate n 0 := by
  rw [limbsOf_wildMask h, andLimbs_notLimbs]

/-- R280 in the limbs: the two masks of a count have every bit between them. -/
theorem orLimbs_masks {w n nbits : Nat} (h : nbits ≤ n * w) :
    orLimbs w n (limbsOf w n (netMask (n * w) nbits)) (limbsOf w n (wildMask (n * w) nbits)) =
      Vector.replicate n (BitVec.allOnes w) := by
  rw [limbsOf_wildMask h, orLimbs_notLimbs]

theorem andLimbs_masks_v4 {n : Nat} (hn : n ≤ 32) :
    andLimbs 8 4 (limbsOf 8 4 (netMask 32 n)) (limbsOf 8 4 (wildMask 32 n)) = #v[0, 0, 0, 0] :=
  andLimbs_masks (w := 8) (n := 4) hn

theorem orLimbs_masks_v4 {n : Nat} (hn : n ≤ 32) :
    orLimbs 8 4 (limbsOf 8 4 (netMask 32 n)) (limbsOf 8 4 (wildMask 32 n)) = #v[255, 255, 255, 255] :=
  orLimbs_masks (w := 8) (n := 4) hn

theorem andLimbs_masks_v6 {n : Nat} (hn : n ≤ 128) :
    andLimbs 16 8 (limbsOf 16 8 (netMask 128 n)) (limbsOf 16 8 (wildMask 128 n)) = #v[0, 0, 0, 0, 0, 0, 0, 0] :=
  andLimbs_masks (w := 16) (n := 8) hn

theorem orLimbs_masks_v6 {n : Nat} (hn : n ≤ 128) :
    orLimbs 16 8 (limbsOf 16 8 (netMask 128 n)) (limbsOf 16 8 (wildMask 128 n)) =
      #v[0xFFFF, 0xFFFF, 0xFFFF, 0xFFFF, 0xFFFF, 0xFFFF, 0xFFFF, 0xFFFF] :=
  orLimbs_masks (w := 16) (n := 8) hn

/-! ### The commands that combine two masks (R302, R303) -/

theorem exec_and_v4 (rd : RegIx) {rs1 rs2 : RegIx} {s : State} {a b : V4Limbs} (ha : s.areg rs1 = .v4 a)
    (hb : s.areg rs2 = .v4 b) : exec (.and rd rs1 rs2) s = .next (commit rd (.v4 (andLimbs 8 4 a b)) s) := by
  rw [exec, execAnd, binaryAlu_v4 ha hb, complete_ok]

theorem exec_and_v6 (rd : RegIx) {rs1 rs2 : RegIx} {s : State} {a b : V6Limbs} (ha : s.areg rs1 = .v6 a)
    (hb : s.areg rs2 = .v6 b) : exec (.and rd rs1 rs2) s = .next (commit rd (.v6 (andLimbs 16 8 a b)) s) := by
  rw [exec, execAnd, binaryAlu_v6 ha hb, complete_ok]

theorem exec_or_v4 (rd : RegIx) {rs1 rs2 : RegIx} {s : State} {a b : V4Limbs} (ha : s.areg rs1 = .v4 a)
    (hb : s.areg rs2 = .v4 b) : exec (.or rd rs1 rs2) s = .next (commit rd (.v4 (orLimbs 8 4 a b)) s) := by
  rw [exec, execOr, binaryAlu_v4 ha hb, complete_ok]

theorem exec_or_v6 (rd : RegIx) {rs1 rs2 : RegIx} {s : State} {a b : V6Limbs} (ha : s.areg rs1 = .v6 a)
    (hb : s.areg rs2 = .v6 b) : exec (.or rd rs1 rs2) s = .next (commit rd (.v6 (orLimbs 16 8 a b)) s) := by
  rw [exec, execOr, binaryAlu_v6 ha hb, complete_ok]

/-- Two commands write `p` and `q` to two registers, and the commands over the two then answer `conj` and `disj`: the run
that R280 speaks of, at either version. -/
theorem exec_and_or_of_two {a b c : RegIx} {i j : Instr} {s : State} {p q conj disj : AReg} (hab : a ≠ b)
    (hi : ∀ s, exec i s = .next (commit a p s)) (hj : ∀ s, exec j s = .next (commit b q s))
    (hand : ∀ s : State, s.areg a = p → s.areg b = q → exec (.and c a b) s = .next (commit c conj s))
    (hor : ∀ s : State, s.areg a = p → s.areg b = q → exec (.or c a b) s = .next (commit c disj s)) :
    ∃ t u x y, exec i s = .next t ∧ exec j t = .next u ∧ exec (.and c a b) u = .next x ∧ x.areg c = conj ∧
      exec (.or c a b) u = .next y ∧ y.areg c = disj := by
  have first : (commit b q (commit a p s)).areg a = p := by rw [areg_commit_ne q _ hab, areg_commit_self]
  have second : (commit b q (commit a p s)).areg b = q := areg_commit_self b q _
  exact ⟨_, _, _, _, hi s, hj _, hand _ first second, areg_commit_self c conj _, hor _ first second,
    areg_commit_self c disj _⟩

/-! ### The statements of the mask generator -/

/-- Settles O37: the dispatch hands the remainder to MaskCount, which accepts, rejects by range or rejects by form. -/
theorem maskTexts : Obligations.MaskTexts := by
  intro rd s r hlen
  refine ⟨fun text => ⟨fun n count hn => ⟨_, v4Bits_netMask hn, exec_d4txt_ok rd hlen ?_⟩,
      fun n count hn => ⟨_, v6Bits_netMask hn, exec_d6txt_ok rd hlen ?_⟩⟩,
    fun text => ⟨fun n count hn => ⟨_, v4Bits_wildMask n, exec_d4txt_ok rd hlen ?_⟩,
      fun n count hn => ⟨_, v6Bits_wildMask n, exec_d6txt_ok rd hlen ?_⟩⟩,
    fun text => ⟨fun n count hn => ?_, fun n count hn => ?_, fun noCount => ⟨?_, ?_⟩⟩⟩
  · rw [text, textV4_slash_count (maskCount_in_range count hn)]
  · rw [text, textV6_slash_count (maskCount_in_range count hn)]
  · rw [text, textV4_backslash_count (maskCount_in_range count hn)]
  · rw [text, textV6_backslash_count (maskCount_in_range count hn)]
  · exact exec_d4txt_error rd hlen (textV4_mask_error text (maskCount_out_of_range count hn))
  · exact exec_d6txt_error rd hlen (textV6_mask_error text (maskCount_out_of_range count hn))
  · exact exec_d4txt_error rd hlen (textV4_mask_error text (maskCount_no_count 32 noCount))
  · exact exec_d6txt_error rd hlen (textV6_mask_error text (maskCount_no_count 128 noCount))

/-- Settles O43. -/
theorem netmaskV4 : Obligations.NetmaskV4 :=
  maskCommand_of_exec (by decide) (fun _ _ => rfl) exec_m4net fun _ => v4Bits_netMask

/-- Settles O44. -/
theorem wildmaskV4 : Obligations.WildmaskV4 :=
  maskCommand_of_exec (by decide) (fun _ _ => rfl) exec_m4wild fun n _ => v4Bits_wildMask n

/-- Settles O45. -/
theorem netmaskV6 : Obligations.NetmaskV6 :=
  maskCommand_of_exec (by decide) (fun _ _ => rfl) exec_m6net fun _ => v6Bits_netMask

/-- Settles O46. -/
theorem wildmaskV6 : Obligations.WildmaskV6 :=
  maskCommand_of_exec (by decide) (fun _ _ => rfl) exec_m6wild fun n _ => v6Bits_wildMask n

/-- Settles O47: the netmask's group bit by bit, and the wildcard mask's as its complement. -/
theorem masksGroupByGroup : Obligations.MasksGroupByGroup := by
  intro w n nbits k h
  refine ⟨netMask_group k h, ?_⟩
  rw [limbsOf_wildMask h, Fin.getElem_fin, notLimbs_getElem, toNat_not_eq_xor]
  exact congrArg (· ^^^ (2 ^ w - 1)) (netMask_group k h)

/-- Settles O48: the second register holds the complement of the first, limb by limb. -/
theorem masksAreComplements : Obligations.MasksAreComplements := by
  intro a b c s n hab
  refine ⟨fun hn => ?_, fun hn => ?_⟩
  · exact exec_and_or_of_two hab
      (fun s => by rw [exec_m4net, complete_maskBits_ok a _ s hn])
      (fun s => by rw [exec_m4wild, complete_maskBits_ok b _ s hn])
      (fun s net wild => by rw [exec_and_v4 c net wild, andLimbs_masks_v4 hn])
      (fun s net wild => by rw [exec_or_v4 c net wild, orLimbs_masks_v4 hn])
  · exact exec_and_or_of_two hab
      (fun s => by rw [exec_m6net, complete_maskBits_ok a _ s hn])
      (fun s => by rw [exec_m6wild, complete_maskBits_ok b _ s hn])
      (fun s net wild => by rw [exec_and_v6 c net wild, andLimbs_masks_v6 hn])
      (fun s net wild => by rw [exec_or_v6 c net wild, orLimbs_masks_v6 hn])

end Sys2Proof.Machine
end

section
/-!
PROOFS. The limb ALU: its two-operand commands complete with one limb operation at both versions (R300-R303, R305, R306),
`not` with its own (R304), and the laws R308 states of the operations hold of the commands.
-/

namespace Sys2Proof.Machine

theorem decode_commandWord_formatR {opc : Nat} {rd rs1 rs2 : RegIx} {i : Instr} (ho : opc < 256)
    (h : opcodeRow opc rd rs1 rs2 0 = some (usedR, i)) : decode (commandWord opc rd rs1 rs2) = .ok i := by
  rw [commandWord_eq, decode_formatR ho h]

/-! ### Contents of one version (R31, R301) -/

theorem eq_v4_of_tagCode {x : V4Limbs} {b : AReg} (h : (AReg.v4 x).tagCode = b.tagCode) : ∃ y, b = .v4 y := by
  cases b with
  | v4 y => exact ⟨y, rfl⟩
  | empty | v6 => simp [AReg.tagCode] at h

theorem eq_v6_of_tagCode {x : V6Limbs} {b : AReg} (h : (AReg.v6 x).tagCode = b.tagCode) : ∃ y, b = .v6 y := by
  cases b with
  | v6 y => exact ⟨y, rfl⟩
  | empty | v4 => simp [AReg.tagCode] at h

theorem ne_empty_of_tagCode {a b : AReg} (ha : a ≠ .empty) (h : a.tagCode = b.tagCode) : b ≠ .empty := by
  rintro rfl
  cases a with
  | empty => exact ha rfl
  | v4 =>
    obtain ⟨_, e⟩ := eq_v4_of_tagCode h
    cases e
  | v6 =>
    obtain ⟨_, e⟩ := eq_v6_of_tagCode h
    cases e

/-- A limb operation on the contents of two registers of one version. Every other pair raises an error of R301 and has no
result; it is EMPTY here. -/
def aluResult (op : (w n : Nat) → Limbs w n → Limbs w n → Limbs w n) : AReg → AReg → AReg
  | .v4 a, .v4 b => .v4 (op 8 4 a b)
  | .v6 a, .v6 b => .v6 (op 16 8 a b)
  | _, _ => .empty

section
variable {op : (w n : Nat) → Limbs w n → Limbs w n → Limbs w n} {a b c : AReg}

theorem binaryAlu_eq_aluResult {s : State} {rs1 rs2 : RegIx} (ha : s.areg rs1 = a) (hb : s.areg rs2 = b)
    (held : a ≠ .empty) (hab : a.tagCode = b.tagCode) : binaryAlu op s rs1 rs2 = .ok (aluResult op a b) := by
  cases a with
  | empty => exact absurd rfl held
  | v4 x =>
    obtain ⟨y, rfl⟩ := eq_v4_of_tagCode hab
    exact binaryAlu_v4 ha hb
  | v6 x =>
    obtain ⟨y, rfl⟩ := eq_v6_of_tagCode hab
    exact binaryAlu_v6 ha hb

theorem aluResult_tagCode (hab : a.tagCode = b.tagCode) : (aluResult op a b).tagCode = a.tagCode := by
  cases a with
  | empty => rfl
  | v4 x =>
    obtain ⟨y, rfl⟩ := eq_v4_of_tagCode hab
    rfl
  | v6 x =>
    obtain ⟨y, rfl⟩ := eq_v6_of_tagCode hab
    rfl

theorem aluResult_ne_empty (held : a ≠ .empty) (hab : a.tagCode = b.tagCode) : aluResult op a b ≠ .empty :=
  ne_empty_of_tagCode held (aluResult_tagCode hab).symm

theorem aluResult_assoc (assoc : ∀ w n (x y z : Limbs w n), op w n (op w n x y) z = op w n x (op w n y z))
    (hab : a.tagCode = b.tagCode) (hbc : b.tagCode = c.tagCode) :
    aluResult op (aluResult op a b) c = aluResult op a (aluResult op b c) := by
  cases a with
  | empty => rfl
  | v4 x =>
    obtain ⟨y, rfl⟩ := eq_v4_of_tagCode hab
    obtain ⟨z, rfl⟩ := eq_v4_of_tagCode hbc
    exact congrArg AReg.v4 (assoc 8 4 x y z)
  | v6 x =>
    obtain ⟨y, rfl⟩ := eq_v6_of_tagCode hab
    obtain ⟨z, rfl⟩ := eq_v6_of_tagCode hbc
    exact congrArg AReg.v6 (assoc 16 8 x y z)

end

theorem aluResult_sub_add {a b : AReg} (hab : a.tagCode = b.tagCode) :
    aluResult subLimbs (aluResult addLimbs a b) b = a := by
  cases a with
  | empty => rfl
  | v4 x =>
    obtain ⟨y, rfl⟩ := eq_v4_of_tagCode hab
    exact congrArg AReg.v4 (subLimbs_addLimbs x y)
  | v6 x =>
    obtain ⟨y, rfl⟩ := eq_v6_of_tagCode hab
    exact congrArg AReg.v6 (subLimbs_addLimbs x y)

/-! ### The commands with two operands -/

/-- The command `i` completes with the limb operation `op` of its two sources. -/
def CompletesWith (i : RegIx → RegIx → RegIx → Instr) (op : (w n : Nat) → Limbs w n → Limbs w n → Limbs w n) : Prop :=
  ∀ rd rs1 rs2 s, exec (i rd rs1 rs2) s = .next (complete rd (binaryAlu op s rs1 rs2) s)

theorem completesWith_and : CompletesWith Instr.and andLimbs := fun _ _ _ _ => rfl

theorem completesWith_or : CompletesWith Instr.or orLimbs := fun _ _ _ _ => rfl

theorem completesWith_add : CompletesWith Instr.add addLimbs := fun _ _ _ _ => rfl

theorem completesWith_sub : CompletesWith Instr.sub subLimbs := fun _ _ _ _ => rfl

section
variable {i : RegIx → RegIx → RegIx → Instr} {op : (w n : Nat) → Limbs w n → Limbs w n → Limbs w n}

/-- A row of format R whose command completes with a limb operation has that operation's results and R301's errors. -/
theorem binaryCommand_of_completesWith {opc : Nat} {p4 : V4Limbs → V4Limbs → V4Limbs → Prop}
    {p6 : V6Limbs → V6Limbs → V6Limbs → Prop} (ho : opc < 256)
    (row : ∀ rd rs1 rs2, opcodeRow opc rd rs1 rs2 0 = some (usedR, i rd rs1 rs2)) (meaning : CompletesWith i op)
    (h4 : ∀ a b, p4 a b (op 8 4 a b)) (h6 : ∀ a b, p6 a b (op 16 8 a b)) : binaryCommand opc i p4 p6 := by
  intro rd rs1 rs2
  refine ⟨decode_commandWord_formatR ho (row rd rs1 rs2), fun s => ?_⟩
  rw [meaning]
  refine ⟨fun a b ha hb => ⟨op 8 4 a b, h4 a b, ?_⟩, fun a b ha hb => ⟨op 16 8 a b, h6 a b, ?_⟩, fun h => ?_,
    fun a b ha hb => ?_, fun a b ha hb => ?_⟩
  · rw [binaryAlu_v4 ha hb, complete_ok]
  · rw [binaryAlu_v6 ha hb, complete_ok]
  · rw [binaryAlu_empty h, complete_error]
  · rw [binaryAlu_mismatch46 ha hb, complete_error]
  · rw [binaryAlu_mismatch64 ha hb, complete_error]

theorem CompletesWith.commits (meaning : CompletesWith i op) (rd : RegIx) {rs1 rs2 : RegIx} {s : State} {a b : AReg}
    (ha : s.areg rs1 = a) (hb : s.areg rs2 = b) (held : a ≠ .empty) (hab : a.tagCode = b.tagCode) :
    exec (i rd rs1 rs2) s = .next (commit rd (aluResult op a b) s) := by
  rw [meaning, binaryAlu_eq_aluResult ha hb held hab, complete_ok]

/-- A commutative operation's command is the same on the sources exchanged, also where it fails. -/
theorem CompletesWith.comm (meaning : CompletesWith i op) (comm : ∀ w n a b, op w n a b = op w n b a)
    (rd rs1 rs2 : RegIx) (s : State) : exec (i rd rs1 rs2) s = exec (i rd rs2 rs1) s := by
  rw [meaning, meaning, binaryAlu_comm comm]

/-- An associative operation's command over three operands, grouped either way. -/
theorem CompletesWith.assoc (meaning : CompletesWith i op)
    (assoc : ∀ w n (x y z : Limbs w n), op w n (op w n x y) z = op w n x (op w n y z)) {rd rd' rs1 rs2 rs3 : RegIx}
    {s : State} (held : s.areg rs1 ≠ .empty) (h12 : (s.areg rs1).tagCode = (s.areg rs2).tagCode)
    (h23 : (s.areg rs2).tagCode = (s.areg rs3).tagCode) (hrd : rd ≠ rs3) (hrd' : rd' ≠ rs1) :
    ∃ t u t' u', exec (i rd rs1 rs2) s = .next t ∧ exec (i rd rd rs3) t = .next u ∧
      exec (i rd' rs2 rs3) s = .next t' ∧ exec (i rd' rs1 rd') t' = .next u' ∧ u.areg rd = u'.areg rd' ∧
      u.errKind = none ∧ u'.errKind = none := by
  have left := meaning.commits rd (areg_commit_self rd (aluResult op (s.areg rs1) (s.areg rs2)) s)
    (areg_commit_ne _ s hrd.symm) (aluResult_ne_empty held h12) ((aluResult_tagCode h12).trans (h12.trans h23))
  have right := meaning.commits rd' (areg_commit_ne _ s hrd'.symm)
    (areg_commit_self rd' (aluResult op (s.areg rs2) (s.areg rs3)) s) held (h12.trans (aluResult_tagCode h23).symm)
  refine ⟨_, _, _, _, meaning.commits rd rfl rfl held h12, left,
    meaning.commits rd' rfl rfl (ne_empty_of_tagCode held h12) h23, right, ?_, commit_errKind .., commit_errKind ..⟩
  rw [areg_commit_self, areg_commit_self, aluResult_assoc assoc h12 h23]

end

/-- `sub` of a sum by its second operand answers the first one (R308). -/
theorem exec_sub_add {rd rd' rs1 rs2 : RegIx} {s : State} (held : s.areg rs1 ≠ .empty)
    (h12 : (s.areg rs1).tagCode = (s.areg rs2).tagCode) (hrd : rd ≠ rs2) :
    ∃ t u, exec (.add rd rs1 rs2) s = .next t ∧ exec (.sub rd' rd rs2) t = .next u ∧ u.areg rd' = s.areg rs1 := by
  have difference := completesWith_sub.commits rd'
    (areg_commit_self rd (aluResult addLimbs (s.areg rs1) (s.areg rs2)) s) (areg_commit_ne _ s hrd.symm)
    (aluResult_ne_empty held h12) ((aluResult_tagCode h12).trans h12)
  refine ⟨_, _, completesWith_add.commits rd rfl rfl held h12, difference, ?_⟩
  rw [areg_commit_self, aluResult_sub_add h12]

/-! ### The complement (R304) -/

theorem exec_not_empty (rd : RegIx) {rs1 : RegIx} {s : State} (h : s.areg rs1 = .empty) :
    exec (.not rd rs1) s = .next (abort .emptyOperand s) := by
  rw [exec, execNot, unaryAlu_empty h, complete_error]

theorem exec_not_v4 (rd : RegIx) {rs1 : RegIx} {s : State} {a : V4Limbs} (h : s.areg rs1 = .v4 a) :
    exec (.not rd rs1) s = .next (commit rd (.v4 (notLimbs 8 4 a)) s) := by
  rw [exec, execNot, unaryAlu_v4 h, complete_ok]

theorem exec_not_v6 (rd : RegIx) {rs1 : RegIx} {s : State} {a : V6Limbs} (h : s.areg rs1 = .v6 a) :
    exec (.not rd rs1) s = .next (commit rd (.v6 (notLimbs 16 8 a)) s) := by
  rw [exec, execNot, unaryAlu_v6 h, complete_ok]

/-- `not` twice answers the operand (R308), at whichever version it has. -/
theorem exec_not_not (rd rd' : RegIx) {rs1 : RegIx} {s : State} (held : s.areg rs1 ≠ .empty) :
    ∃ t u, exec (.not rd rs1) s = .next t ∧ exec (.not rd' rd) t = .next u ∧ u.areg rd' = s.areg rs1 := by
  cases h : s.areg rs1 with
  | empty => exact absurd h held
  | v4 a =>
    refine ⟨_, _, exec_not_v4 rd h, exec_not_v4 rd' (areg_commit_self ..), ?_⟩
    rw [areg_commit_self, notLimbs_notLimbs]
  | v6 a =>
    refine ⟨_, _, exec_not_v6 rd h, exec_not_v6 rd' (areg_commit_self ..), ?_⟩
    rw [areg_commit_self, notLimbs_notLimbs]

/-! ### The statements of the limb ALU -/

/-- Settles O49. -/
theorem andIsLimbwise : Obligations.AndIsLimbwise :=
  binaryCommand_of_completesWith (by decide) (fun _ _ _ => rfl) completesWith_and
    (fun a b k => andLimbs_getElem a b k k.isLt) fun a b k => andLimbs_getElem a b k k.isLt

/-- Settles O50. -/
theorem orIsLimbwise : Obligations.OrIsLimbwise :=
  binaryCommand_of_completesWith (by decide) (fun _ _ _ => rfl) completesWith_or
    (fun a b k => orLimbs_getElem a b k k.isLt) fun a b k => orLimbs_getElem a b k k.isLt

/-- Settles O51. -/
theorem notIsLimbwise : Obligations.NotIsLimbwise := fun rd _ _ =>
  ⟨decode_commandWord_formatU (by decide) rfl, exec_not_empty rd,
    fun a h => ⟨notLimbs 8 4 a, fun k => notLimbs_getElem a k k.isLt, exec_not_v4 rd h⟩,
    fun a h => ⟨notLimbs 16 8 a, fun k => notLimbs_getElem a k k.isLt, exec_not_v6 rd h⟩⟩

/-- Settles O52: the limb loop is addition of the values, by `val_addLimbs`. -/
theorem addIsModular : Obligations.AddIsModular :=
  binaryCommand_of_completesWith (by decide) (fun _ _ _ => rfl) completesWith_add val_addLimbs val_addLimbs

/-- Settles O53: `a + ~b + 1` is subtraction of the values, by `val_subLimbs_int`. -/
theorem subIsModular : Obligations.SubIsModular :=
  binaryCommand_of_completesWith (by decide) (fun _ _ _ => rfl) completesWith_sub val_subLimbs_int val_subLimbs_int

/-- Settles O54: each law of the commands is that law of their limb operations. -/
theorem aluLaws : Obligations.AluLaws := by
  intro rd rd' rs1 rs2 rs3 s held
  refine ⟨?_, exec_not_not rd rd' held, exec_sub_add held⟩
  rintro op (rfl | rfl)
  · exact ⟨completesWith_and.comm (fun _ _ => andLimbs_comm) rd rs1 rs2 s,
      completesWith_and.assoc (fun _ _ => andLimbs_assoc) held⟩
  · exact ⟨completesWith_or.comm (fun _ _ => orLimbs_comm) rd rs1 rs2 s,
      completesWith_or.assoc (fun _ _ => orLimbs_assoc) held⟩

end Sys2Proof.Machine
end

section
/-!
PROOFS. The source's error cases (60_exceptions.md, R349). Each text is placed in the case of `DottedFails`, `ColonFails` or
`countText` that says where it fails; what the command does then is known of every text in that case.
-/

namespace Sys2Proof.Machine

/-! ### The texts that reach a scan (R148, R212) -/

/-- The dispatch of a text command leaves the text `t` to the scan of its version. -/
def reachesScan (t : List Byte) : Prop :=
  t ≠ [] ∧ t ∉ specialNames ∧ t.head? ≠ some slash ∧ t.head? ≠ some backslash

theorem textV4_of_dottedFails {t : List Byte} {k : ErrKind} (scanned : reachesScan t) (h : DottedFails t k) :
    textV4 t = .error k := by
  obtain ⟨notEmpty, notName, noSlash, noBackslash⟩ := scanned
  rw [textV4_scan notEmpty notName noSlash noBackslash, dottedV4_error_iff]
  exact h

theorem textV6_of_colonFails {t : List Byte} {k : ErrKind} (scanned : reachesScan t) (h : ColonFails t k) :
    textV6 t = .error k := by
  obtain ⟨notEmpty, notName, noSlash, noBackslash⟩ := scanned
  rw [textV6_scan notEmpty notName noSlash noBackslash, colonV6_error_iff]
  exact h

/-- A text that begins with a decimal digit is no special name and no mask text. -/
theorem reachesScan_of_digit {c : Byte} {r : List Byte} (digit : isDec c = true) : reachesScan (c :: r) := by
  have headNe {d : Byte} (notDigit : isDec d = false) : (c :: r).head? ≠ some d := by
    rintro ⟨⟩
    simp [notDigit] at digit
  have namesBeginWithLetters : ∀ name ∈ specialNames, (name.head?.any isDec) = false := by decide
  refine ⟨List.cons_ne_nil c r, fun name => ?_, headNe (by decide), headNe (by decide)⟩
  simpa [digit] using namesBeginWithLetters _ name

/-! ### Where each text fails (R146, R147, R210, R275) -/

/-- A decimal digit alone is a token of its value. -/
theorem octetToken_digit {c : Byte} (digit : isDec c = true) : octetToken [c] (c - 0x30) := by
  obtain ⟨low, high⟩ := (isDec_iff c).mp digit
  refine ⟨List.cons_ne_nil c [], by simpa using digit, ?_⟩
  simp only [decVal, List.foldl]
  bv_omega

/-- `1.2.3.256` ends in an octet above 255. -/
theorem dottedFails_octetAbove255 : DottedFails (ascii "1.2.3.256") .illegalValue :=
  .badLast (ts := [ascii "1", ascii "2", ascii "3"]) (tok := ascii "256")
    (.cons (octetToken_digit (by decide)) (.cons (octetToken_digit (by decide))
      (.cons (octetToken_digit (by decide)) .nil)))
    (by decide) (by decide) (.inr (by decide))

/-- `1.2.3` ends after its third limb. -/
theorem dottedFails_threeLimbs : DottedFails (ascii "1.2.3") .malformed :=
  .tooFew (ts := [ascii "1", ascii "2"]) (tok := ascii "3")
    (.cons (octetToken_digit (by decide)) (.cons (octetToken_digit (by decide)) .nil))
    (by decide) (octetToken_digit (by decide))

/-- The bytes `1::2` after the first '::' of `2001::1::2`, read from the right: the second ':' closes an empty token. -/
theorem backFails_secondCompression (f : Nat) (room : f + 1 ≤ 7) : BackFails f (ascii "1::2") .malformed :=
  .badClose (pre := ascii "1") (tok := []) (tail := openedBy colon [ascii "2"])
    (.groups (hs := [2]) (.cons ⟨by decide, by decide, by decide⟩ .nil)) room (by decide) (.inl ⟨rfl, rfl⟩)

theorem colonFails_secondCompression : ColonFails (ascii "2001::1::2") .malformed :=
  .badBack (ts := [ascii "2001"]) (gs := [0x2001]) (suffix := ascii "1::2")
    (.cons ⟨by decide, by decide, by decide⟩ .nil) (by decide) (by decide) (backFails_secondCompression 1 (by decide))

theorem countText_200 : countText (ascii "200") 200 :=
  ⟨ascii "200", by decide, by decide, .inl ⟨rfl, by decide⟩⟩

/-! ### The statement -/

/-- Settles O41: the count 200 is above 32 and above 128. -/
theorem sourceErrorCases : Obligations.SourceErrorCases := by
  intro rd s hlen
  refine ⟨fun text => exec_d4txt_error rd hlen ?_, fun text => exec_d4txt_error rd hlen ?_,
    fun text => exec_d6txt_error rd hlen ?_,
    fun text => ⟨exec_d4txt_error rd hlen ?_, exec_d6txt_error rd hlen ?_⟩⟩
  · rw [text]
    exact textV4_of_dottedFails (reachesScan_of_digit (by decide)) dottedFails_octetAbove255
  · rw [text]
    exact textV4_of_dottedFails (reachesScan_of_digit (by decide)) dottedFails_threeLimbs
  · rw [text]
    exact textV6_of_colonFails (reachesScan_of_digit (by decide)) colonFails_secondCompression
  · exact textV4_mask_error (.inl text) (maskCount_out_of_range countText_200 (by decide))
  · exact textV6_mask_error (.inl text) (maskCount_out_of_range countText_200 (by decide))

end Sys2Proof.Machine
end

section
/-!
PROOFS. Waiting for the host (70_reset_and_hazards.md, R381, R386).
-/

namespace Sys2Proof.Machine

/-- Settles O11, by the step's equation for an empty list of inputs: no access is performed and nothing of the state changes. -/
theorem stepWaitsForInput : Obligations.StepWaitsForInput := fun _ noInput => step_nil noInput

end Sys2Proof.Machine
end
